-- ==== Sys2Proof/Word.lean ====
section
/-! DEFINITION. The plain data the codec block works on: bytes, words, symbols, trees, queue entries, code-table
entries and stack frames (spec 00_scope.md, 10_state.md). Types only: everything that computes stands in Decode.lean and
under Machine/. -/

namespace Sys2Proof

/-- A literal: 8 bits (R8, `BITS_PER_WORD`). -/
abbrev Byte := BitVec 8

/-- A host register, the magic word (R10, R39). -/
abbrev Word := BitVec 32

/-- The 9-bit symbol field (R9, `SYM_W`): 0 to 255 literals, 256 the end-of-stream symbol, 257 to 511 only from a
parsed header (R23, R115). -/
abbrev Sym := BitVec 9

/-- R23: a tree is a leaf with a symbol and a weight, or an internal node with a weight and exactly two children
(R24 (a) holds by the type). The placeholder symbol 0 of an internal node (R24 (c)) is no field. -/
inductive Tree where
  | leaf (sym : Sym) (weight : Nat)
  | internal (weight : Nat) (left right : Tree)
deriving DecidableEq, Repr, Inhabited

/-- The two children of an internal node: left is code bit 0, right is code bit 1 (R170). -/
inductive Child where
  | left
  | right
deriving DecidableEq, Repr, Inhabited

/-- R26: an entry of the priority queue. -/
structure PqEntry where
  weight : Nat
  seq    : BitVec 10
  tree   : Tree
deriving DecidableEq, Repr, Inhabited

/-- R29: an entry of the code table; its length is the number of its bits, the first bit first. -/
structure CodeEntry where
  valid : Bool
  bits  : List Bool
deriving DecidableEq, Repr, Inhabited

/-- R33: a frame of the traversal stack: the node and which child is being visited. In a walk of a built tree `node` is
that node; while a header is parsed the node does not exist yet, and `node` is the left subtree once it is parsed. -/
structure Frame where
  node : Option Tree
  next : Child
deriving DecidableEq, Repr, Inhabited

end Sys2Proof
end

