-- ==== Sys2Proof/Config.lean ====
section
/-! DEFINITION. What an implementation fixes (the open parameters MAGIC, CNT_W, NODE_CAP of 92_eei_decisions.md), the
alphabet constants (R8, R9), and the free values: opaque constants with no body, for what the spec leaves unspecified. -/

namespace Sys2Proof

/-- The open parameters (R10, R11, R12; D1, D2, D3). They are the same for every step (R45); `none` is the value ∞.
They stand in State as data that no step changes (log entry 3). -/
structure Params where
  /-- R10: the 32-bit magic word. -/
  magic   : Word
  /-- R11: the width of counts and weights, `none` for ∞. -/
  cntW    : Option Nat
  /-- R12: the most nodes a tree store holds, `none` for ∞. -/
  nodeCap : Option Nat
deriving DecidableEq, Repr

namespace Config

/-- R8: the end-of-stream symbol, one past the largest literal. -/
abbrev eos : Sym := 256#9

/-- R10, D1: the magic word of the machine after reset. UNVERIFIED: the spec gives no value, so it has none here. -/
opaque magic : Word

/-- R11: the default width of counts and weights. -/
abbrev cntW : Nat := 32

/-- R12: the default and least size of the node store. -/
abbrev nodeCap : Nat := 513

/-- The constraint of R12 on NODE_CAP, and that the weight 1 of the end-of-stream symbol fits CNT_W bits (log entry 2). -/
def Valid (p : Params) : Prop :=
  (∀ w, p.cntW = some w → 1 ≤ w) ∧ (∀ n, p.nodeCap = some n → nodeCap ≤ n)

/-! Free values: what the working stores hold in FAULT (R247) and after a command (R42) (log entries 11, 12), and what a write
beyond the code table leaves (R170, R29; log entry 18). -/

opaque freeFreq : Nat → Vector Nat 257
opaque freeNbytes : Nat → Nat
opaque freeTree : Nat → Option Tree
opaque freeNnodes : Nat → Nat
opaque freePq : Nat → List PqEntry
opaque freeSeq : Nat → BitVec 10
opaque freeRet : Nat → Option Tree
opaque freeCode : Nat → Vector CodeEntry 257
opaque freeCodeBeyond : Nat → CodeEntry
opaque freeCur : Nat → Option Tree
opaque freeStk : Nat → List Frame
opaque freePath : Nat → List Bool

end Config

end Sys2Proof
end

