-- ==== Sys2Proof/Syntax.lean ====
section
/-! DEFINITION. The instructions: one constructor per row of spec/opcode_table.json. -/

namespace Sys2Proof

/-- One constructor per row of the table: commands the host writes to CMD (R102, R103), phase codes (R104), the
micro-operations of BUILD (R150, R151), the records of the compressed stream (R105 to R113), the port transactions
(R61 to R65). -/
inductive Instr where
  -- CMD (R101): bits 31:2 are ignored
  /-- `CMD_NOP`, OP = 00. -/
  | cmdNop
  /-- `COMPRESS`, OP = 01. -/
  | compress
  /-- `DECOMPRESS`, OP = 10. -/
  | decompress
  /-- `CMD_RESERVED`, OP = 11. -/
  | cmdReserved
  -- PHASE (R104)
  | idle
  | count
  | build
  | gencodes
  | wrmagic
  | wrhdr
  | rewind
  | encode
  | close
  | chkmagic
  | rdhdr
  | decode
  | phaseC
  | phaseD
  | done
  | fault
  -- MICRO
  /-- `PQ_INSERT(t)`, R150. -/
  | pqInsert (t : Tree)
  /-- `PQ_REMOVE_MIN()`, R151. -/
  | pqRemoveMin
  -- WIRE
  /-- The preamble, R106. -/
  | wireMagic
  /-- An internal-node record, R108. -/
  | wireNodeInternal
  /-- A leaf record with its symbol field, R109. -/
  | wireNodeLeaf (sym : Sym)
  /-- The code word of a literal byte, R111. -/
  | wireCode (b : Byte)
  /-- The terminator, R112. -/
  | wireEosCode
  /-- The padding of the last byte, R113. -/
  | wirePadding
  -- PORT
  /-- `SrcRead(N)`, R61. -/
  | srcRead (n : Nat)
  /-- `SrcReset()`, R63. -/
  | srcReset
  /-- `SnkWrite(N, v)`, R64. -/
  | snkWrite (n : Nat) (v : Word)
  /-- `SnkClose()`, R65. -/
  | snkClose
deriving DecidableEq, Repr

end Sys2Proof
end

