-- ==== Sys2Proof/WellFormed.lean ====
section
/-! DEFINITION. Which instructions are well formed: the widths of the port transactions (R61, R64) and the tree handed to
PQ_INSERT (R24). -/

namespace Sys2Proof

/-- The weight of a tree is its root's weight (R26). -/
def Tree.weight : Tree → Nat
  | .leaf _ w => w
  | .internal w _ _ => w

/-- R24 (b): every internal node weighs as much as its two children together. -/
def Tree.weightsAdd : Tree → Bool
  | .leaf _ _ => true
  | .internal w l r => w == l.weight + r.weight && l.weightsAdd && r.weightsAdd

/-- The symbols of the leaves, left to right. -/
def Tree.syms : Tree → List Sym
  | .leaf s _ => [s]
  | .internal _ l r => l.syms ++ r.syms

/-- R24 (e): every leaf symbol is one of the 257 symbols. -/
def Tree.symsInTable (t : Tree) : Bool :=
  t.syms.all fun s => decide (s.toNat ≤ 256)

/-- R61, R69: the widths the block asks a source for. -/
def readWidthOk (n : Nat) : Bool := n == 1 || n == 8 || n == 9 || n == 32

/-- R64: the widths a sink takes. -/
def writeWidthOk (n : Nat) : Bool := decide (1 ≤ n) && decide (n ≤ 32)

/-- An instruction is well formed when its operands are what the spec allows: `SrcRead(N)` asks for 1, 8, 9 or 32 bits
(R61), `SnkWrite(N, v)` writes 1 to 32 bits (R64), `PQ_INSERT(t)` gets a tree whose weights add up (R24 (b)) and whose
symbols are in the table (R24 (e)). Every other instruction is well formed. -/
def Instr.WellFormed : Instr → Bool
  | .pqInsert t => t.weightsAdd && t.symsInTable
  | .srcRead n => readWidthOk n
  | .snkWrite n _ => writeWidthOk n
  | .cmdNop | .compress | .decompress | .cmdReserved | .idle | .count | .build | .gencodes | .wrmagic | .wrhdr
  | .rewind | .encode | .close | .chkmagic | .rdhdr | .decode | .phaseC | .phaseD | .done | .fault | .pqRemoveMin
  | .wireMagic | .wireNodeInternal | .wireNodeLeaf _ | .wireCode _ | .wireEosCode | .wirePadding | .srcReset
  | .snkClose => true

end Sys2Proof
end

