-- ==== Sys2Proof/Decode.lean ====
section
/-! DEFINITION. Bits and bytes (R16, R66, R67), the three encoded formats (R100), their decoder and their encoder. The
decoder is total on any bits and rejects by name. MICRO and PORT instructions have no encoding (opcode_table.json). -/

namespace Sys2Proof

/-! ## Bit groups -/

/-- R16, R66: `bits_N(v)`, the low `n` bits of `v`, most significant first. -/
def bitsOf : Nat → Nat → List Bool
  | 0, _ => []
  | n + 1, v => v.testBit n :: bitsOf n v

/-- R16: `val(s)`, the number whose most significant bit is the first bit of `s`. -/
def valOf (bs : List Bool) : Nat :=
  bs.foldl (fun acc b => 2 * acc + b.toNat) 0

/-- R67: the whole bytes of a bit stream, the first bit of each its most significant; a last group of fewer than eight
bits is no byte. -/
def bytesOfBits : List Bool → List Byte
  | a :: b :: c :: d :: e :: f :: g :: h :: rest =>
    BitVec.ofNat 8 (valOf [a, b, c, d, e, f, g, h]) :: bytesOfBits rest
  | _ => []

/-- R67: the bit stream of a byte string. -/
def bitsOfBytes (bs : List Byte) : List Bool :=
  bs.flatMap fun b => bitsOf 8 b.toNat

/-- R65: how many zero bits bring a stream of `n` bits to a byte boundary. -/
def padLength (n : Nat) : Nat := (8 - n % 8) % 8

/-! ## PHASE codes (R104) -/

abbrev Phase.idle : BitVec 4 := 0x0#4
abbrev Phase.count : BitVec 4 := 0x1#4
abbrev Phase.build : BitVec 4 := 0x2#4
abbrev Phase.gencodes : BitVec 4 := 0x3#4
abbrev Phase.wrmagic : BitVec 4 := 0x4#4
abbrev Phase.wrhdr : BitVec 4 := 0x5#4
abbrev Phase.rewind : BitVec 4 := 0x6#4
abbrev Phase.encode : BitVec 4 := 0x7#4
abbrev Phase.close : BitVec 4 := 0x8#4
abbrev Phase.chkmagic : BitVec 4 := 0x9#4
abbrev Phase.rdhdr : BitVec 4 := 0xA#4
abbrev Phase.decode : BitVec 4 := 0xB#4
abbrev Phase.phaseC : BitVec 4 := 0xC#4
abbrev Phase.phaseD : BitVec 4 := 0xD#4
abbrev Phase.done : BitVec 4 := 0xE#4
abbrev Phase.fault : BitVec 4 := 0xF#4

/-! ## The decoder -/

/-- R100: the encoded formats; the records of the wire format by where a reader meets them (R105). -/
inductive Format where
  | cmd
  | phase
  | wireMagic
  | wireNode
  | wireBody
  | wirePad
deriving DecidableEq, Repr

/-- What the wire format's records depend on: the parameter MAGIC (R106), the tree in force (R111), the number of stream
bits written so far (R113). -/
structure Ctx where
  magic : Word
  tree  : Option Tree
  written   : Nat
deriving DecidableEq, Repr

/-- Why a bit string is no instruction of a format. -/
inductive Reject where
  /-- fewer bits than a CMD word or a PHASE code has -/
  | tooShort
  /-- R106: fewer than 32 bits -/
  | magicMissing
  /-- R106: another word than MAGIC -/
  | magicWrong (w : Word)
  /-- R117: no bit is left for a node's flag -/
  | headerEndsAtFlag
  /-- R117: fewer than nine bits are left for a leaf's symbol -/
  | headerEndsInSymbol
  /-- there is no tree in force, so no code words -/
  | noTree
  /-- R203: the root is a leaf other than EOS -/
  | leafRoot (s : Sym)
  /-- R117: the bits end inside a code word -/
  | bodyEnds
  /-- the bits are not the zero padding of this stream -/
  | notPadding
deriving DecidableEq, Repr

/-- R101 to R103: the command word; only bits 1:0 matter. -/
def decodeCmd (w : Word) : Instr :=
  match w.toNat % 4 with
  | 0 => .cmdNop
  | 1 => .compress
  | 2 => .decompress
  | _ => .cmdReserved

/-- R104: the phase code. -/
def decodePhase (p : BitVec 4) : Instr :=
  match p.toNat with
  | 0 => .idle
  | 1 => .count
  | 2 => .build
  | 3 => .gencodes
  | 4 => .wrmagic
  | 5 => .wrhdr
  | 6 => .rewind
  | 7 => .encode
  | 8 => .close
  | 9 => .chkmagic
  | 10 => .rdhdr
  | 11 => .decode
  | 12 => .phaseC
  | 13 => .phaseD
  | 14 => .done
  | _ => .fault

/-- R108, R109, R110, R114 (b): a node record; its first bit tells its length. -/
def decodeNode : List Bool → Except Reject (Instr × List Bool)
  | [] => .error .headerEndsAtFlag
  | false :: rest => .ok (.wireNodeInternal, rest)
  | true :: rest =>
    if rest.length < 9 then .error .headerEndsInSymbol
    else .ok (.wireNodeLeaf (BitVec.ofNat 9 (valOf (rest.take 9))), rest.drop 9)

/-- R111, R112, R114 (d): a code word ends where the walk from the root (0 left, 1 right) reaches a leaf; a symbol other
than EOS stands for the literal in its low 8 bits (R115, R119). -/
def decodeCode : Tree → List Bool → Except Reject (Instr × List Bool)
  | .leaf s _, bits => .ok (if s = Config.eos then .wireEosCode else .wireCode (s.setWidth 8), bits)
  | .internal _ _ _, [] => .error .bodyEnds
  | .internal _ l r, b :: bits => if b then decodeCode r bits else decodeCode l bits

/-- The decoder: the first instruction of a bit string read in a format, with the bits after it, or why there is none. -/
def decode (c : Ctx) (f : Format) (bits : List Bool) : Except Reject (Instr × List Bool) :=
  match f with
  | .cmd =>
    if bits.length < 32 then .error .tooShort
    else .ok (decodeCmd (BitVec.ofNat 32 (valOf (bits.take 32))), bits.drop 32)
  | .phase =>
    if bits.length < 4 then .error .tooShort
    else .ok (decodePhase (BitVec.ofNat 4 (valOf (bits.take 4))), bits.drop 4)
  | .wireMagic =>
    if bits.length < 32 then .error .magicMissing
    else if BitVec.ofNat 32 (valOf (bits.take 32)) = c.magic then .ok (.wireMagic, bits.drop 32)
    else .error (.magicWrong (BitVec.ofNat 32 (valOf (bits.take 32))))
  | .wireNode => decodeNode bits
  | .wireBody =>
    match c.tree with
    | none => .error .noTree
    | some (.leaf s w) => if s = Config.eos then decodeCode (.leaf s w) bits else .error (.leafRoot s)
    | some (.internal w l r) => decodeCode (.internal w l r) bits
  | .wirePad =>
    if bits.take (padLength c.written) = List.replicate (padLength c.written) false then
      .ok (.wirePadding, bits.drop (padLength c.written))
    else .error .notPadding

/-- The instruction the decoder reads from a word numbered as spec/opcode_table.json numbers it (log entry 21): 32 bits
are a CMD write, 4 bits (8 in whole bytes) a PHASE code, 10 bits (16 in whole bytes) a leaf record, 1 bit a node flag. -/
def decodeTableWord (nbits w : Nat) : Option Instr :=
  let c : Ctx := ⟨0#32, none, 0⟩
  let read (f : Format) (n : Nat) : Option Instr :=
    if w < 2 ^ n then
      match decode c f (bitsOf n w) with
      | .ok (i, []) => some i
      | .ok (_, _ :: _) => none
      | .error _ => none
    else none
  if nbits = 32 then read .cmd 32
  else if nbits = 4 ∨ nbits = 8 then read .phase 4
  else if nbits = 10 ∨ nbits = 16 then read .wireNode 10
  else if nbits = 1 then read .wireNode 1
  else none

/-! ## The encoder -/

/-- R105: the path from the root to the leaf that carries `s`, left 0 and right 1. DESIGN CHOICE (log entry 36): where several
leaves carry it (R116) it is the first one, left before right. -/
def Tree.path : Tree → Sym → Option (List Bool)
  | .leaf s _, x => if s = x then some [] else none
  | .internal _ l r, x =>
    match l.path x with
    | some p => some (false :: p)
    | none => (r.path x).map (true :: ·)

/-- R203: whether the tree is one leaf; a literal then has no code word (R111). -/
def Tree.isLeaf : Tree → Bool
  | .leaf _ _ => true
  | .internal _ _ _ => false

/-- R109: a leaf record. -/
def encodeLeaf (s : Sym) : List Bool := true :: bitsOf 9 s.toNat

/-- R107: `hdr(t)`, the pre-order header of a tree. -/
def encodeTree : Tree → List Bool
  | .internal _ l r => false :: (encodeTree l ++ encodeTree r)
  | .leaf s _ => encodeLeaf s

/-- The format an instruction is encoded in; MICRO and PORT instructions have none. -/
def Instr.format : Instr → Option Format
  | .cmdNop | .compress | .decompress | .cmdReserved => some .cmd
  | .idle | .count | .build | .gencodes | .wrmagic | .wrhdr | .rewind | .encode | .close | .chkmagic | .rdhdr
  | .decode | .phaseC | .phaseD | .done | .fault => some .phase
  | .wireMagic => some .wireMagic
  | .wireNodeInternal | .wireNodeLeaf _ => some .wireNode
  | .wireCode _ | .wireEosCode => some .wireBody
  | .wirePadding => some .wirePad
  | .pqInsert _ | .pqRemoveMin | .srcRead _ | .srcReset | .snkWrite _ _ | .snkClose => none

/-- The encoder: the bits of an instruction in its own format, in stream order (for CMD and PHASE the most significant
bit first), `none` where the table gives it no bits or the tree in force gives the symbol no code. -/
def encode (c : Ctx) : Instr → Option (List Bool)
  -- R102, R103; the ignored bits 31:2 are written 0
  | .cmdNop => some (bitsOf 32 0)
  | .compress => some (bitsOf 32 1)
  | .decompress => some (bitsOf 32 2)
  | .cmdReserved => some (bitsOf 32 3)
  -- R104
  | .idle => some (bitsOf 4 0x0)
  | .count => some (bitsOf 4 0x1)
  | .build => some (bitsOf 4 0x2)
  | .gencodes => some (bitsOf 4 0x3)
  | .wrmagic => some (bitsOf 4 0x4)
  | .wrhdr => some (bitsOf 4 0x5)
  | .rewind => some (bitsOf 4 0x6)
  | .encode => some (bitsOf 4 0x7)
  | .close => some (bitsOf 4 0x8)
  | .chkmagic => some (bitsOf 4 0x9)
  | .rdhdr => some (bitsOf 4 0xA)
  | .decode => some (bitsOf 4 0xB)
  | .phaseC => some (bitsOf 4 0xC)
  | .phaseD => some (bitsOf 4 0xD)
  | .done => some (bitsOf 4 0xE)
  | .fault => some (bitsOf 4 0xF)
  -- R106, R108, R109
  | .wireMagic => some (bitsOf 32 c.magic.toNat)
  | .wireNodeInternal => some [false]
  | .wireNodeLeaf s => some (encodeLeaf s)
  -- R111, R112
  | .wireCode b => c.tree.bind fun t => if t.isLeaf then none else t.path (b.setWidth 9)
  | .wireEosCode => c.tree.bind fun t => t.path Config.eos
  -- R113
  | .wirePadding => some (List.replicate (padLength c.written) false)
  | .pqInsert _ | .pqRemoveMin | .srcRead _ | .srcReset | .snkWrite _ _ | .snkClose => none

end Sys2Proof
end

