-- ==== Sys2Proof/Machine/State.lean ====
section
/-! DEFINITION. The state of the block (10_state.md R20 to R43), the streams behind its ports (R40, R41), the inputs of the
outside world, and the state after reset. Plain data. -/

namespace Sys2Proof.Machine

/-- R40, R60: the source stream. -/
structure Source where
  bits : List Bool
  /-- 0 to the number of bits -/
  pos  : Nat
deriving DecidableEq, Repr

/-- R40, R60: the sink stream; `bits` holds the partial byte too (R41). -/
structure Sink where
  bits   : List Bool
  closed : Bool
deriving DecidableEq, Repr

/-- R60: the block's two address spaces. -/
structure Memory where
  src : Source
  snk : Sink
  /-- R83: the host attached one stream to both ports (a configuration the spec refuses); `snk` got that stream's bits when it
  was attached (log entry 33). -/
  shared : Bool
deriving DecidableEq, Repr

/-- The form every memory has: the position lies in the source (R40), and a closed sink holds whole bytes (R65). -/
def Memory.wf (m : Memory) : Bool :=
  decide (m.src.pos ≤ m.src.bits.length) && (!m.snk.closed || m.snk.bits.length % 8 == 0)

/-- R20: the working stores and the hidden control state of the tree walks. -/
structure Work where
  /-- R21: the frequency counters, 0 to 255 the literals, 256 the end-of-stream slot. -/
  freq   : Vector Nat 257
  /-- R22 -/
  nbytes : Nat
  /-- R23: the tree, `none` for NONE. -/
  tree   : Option Tree
  /-- R25: the nodes allocated in this command. -/
  nnodes : Nat
  /-- R26: the priority queue, its entries in the order they were inserted (log entry 15). -/
  pq     : List PqEntry
  /-- R27 -/
  seq    : BitVec 10
  /-- R151 "return e.tree": the tree a micro-operation returned last (the model's own latch, log entry 17). -/
  ret    : Option Tree
  /-- R29: the code table. -/
  code   : Vector CodeEntry 257
  /-- What a write to CODE[257] to CODE[511] leaves, entries R29 does not have: the model's own field for a free value
  (log entry 18). Nothing reads it. -/
  codeBeyond : CodeEntry
  /-- R32: the decoder's cursor. -/
  cur    : Option Tree
  /-- R33: the traversal stack, its top first; what is on it when a walk begins is log entry 38. -/
  stk    : List Frame
  /-- R33: the path register. -/
  path   : List Bool
deriving DecidableEq, Repr

/-- How the environment answers one port transaction (R81, R82; log entries 5, 6, 7). -/
inductive PortAnswer where
  /-- the normal result -/
  | ok
  /-- `io_fail`, the collaborator's own failure (R81) -/
  | ioFail
  /-- the transaction never completes (R82) -/
  | never
  /-- hardware reset is applied while the transaction is pending (R270) -/
  | reset
deriving DecidableEq, Repr

/-- What the host does between two steps of the block (R272, R285; log entry 8). -/
inductive HostEvent where
  /-- nothing: the block runs -/
  | tick
  /-- a 32-bit write to the register at a byte offset (R39) -/
  | write (offset : Nat) (value : Word)
  /-- hardware reset (R270) -/
  | reset
  /-- a source is attached, or its content changed: the bits before its position and those after (R272, R275) -/
  | attachSrc (before after : List Bool)
  /-- an empty open sink is attached (R272), or the very stream that is the source, with its bits (R83) -/
  | attachSnk (shared : Bool)
deriving DecidableEq, Repr

/-- R62: the answer of a read. -/
inductive ReadAnswer where
  | value (v : Nat)
  | eod
  | ioFail
deriving DecidableEq, Repr

/-- R19, R76: a port transaction with its answer; for the three that return nothing, whether it was done (true) or
answered `io_fail` (false). -/
inductive Txn where
  | srcRead (n : Nat) (a : ReadAnswer)
  | srcReset (done : Bool)
  | snkWrite (n v : Nat) (done : Bool)
  | snkClose (done : Bool)
deriving DecidableEq, Repr

/-- The whole state. STATUS is a function of PHASE (R34), CMD stores nothing (R37), MAGICREG is the parameter (R38). -/
structure State where
  work      : Work
  /-- R31: the sequencer register. -/
  phase     : BitVec 4
  /-- R35: CAUSE.KIND -/
  causeKind : BitVec 3
  /-- R35: CAUSE.SUB -/
  causeSub  : BitVec 4
  /-- R36 -/
  info      : Word
  mem       : Memory
  /-- R45: the configuration, which no step changes (log entry 3). -/
  cfg       : Params
  /-- The answers to the port transactions to come; where the list ends, transactions answer normally (log entry 5). -/
  answers   : List PortAnswer
  /-- What the host does next; where the list ends, nothing (log entry 8). -/
  inputs    : List HostEvent
  /-- R19: the port transactions so far, newest first (log entry 25). -/
  trace     : List Txn
  /-- Which free value is drawn next (log entry 11). -/
  freeIx    : Nat
deriving DecidableEq, Repr

/-- Why the machine stops. -/
inductive Fault where
  /-- R82, R283, O16: a port transaction never completes, and the command stays BUSY for ever. Raised by every port
  primitive on the answer `never`. Safe: the hardware too goes no further. -/
  | portNeverAnswers
deriving DecidableEq, Repr

/-- Why the model gives no meaning. -/
inductive Refusal where
  /-- an instruction not modelled yet, by mnemonic; raised by no arm of exec now. Safe. -/
  | notModelled (mnemonic : String)
  /-- R104: PHASE holds 0xC or 0xD, codes that are never produced. Raised by PHASE_0xC and PHASE_0xD. Safe. -/
  | phaseNeverProduced
  /-- R83, D16, X3: a command starts, or a port transaction is made, while SRC and SNK are one stream. Raised by COMPRESS and
  DECOMPRESS and by every port primitive. Safe. -/
  | sharedStream
  /-- R276, X4: a command starts on a sink that is not empty and open. Raised by COMPRESS and DECOMPRESS. Safe. -/
  | sinkNotFresh
  /-- R272, R276: the host attaches a sink while a command runs. Raised by the host event. Safe. -/
  | sinkAttachedWhileBusy
  /-- R39 maps no register there: an offset below 0x14 that is no multiple of 4. Raised by a host write. Safe. -/
  | offsetBetweenRegisters
  /-- R64 "Precondition: SNK.closed = 0". Raised by SnkWrite. Safe. -/
  | sinkClosed
  /-- R64 "1 <= N <= 32". Raised by SnkWrite with another width, which is not well formed. Safe. -/
  | widthOutOfRange
  /-- R151 "Precondition: PQ is not empty". Raised by PQ_REMOVE_MIN, and by BUILD when no counter is positive. Safe. -/
  | emptyQueue
  /-- R44: TREE is NONE where an operation reads the tree that the operations before it always make. Raised by GENCODES,
  WRHDR, DECODE and the reading of a code word. Safe. -/
  | noTree
  /-- The record at the source's position is not the record the instruction names. Raised by WIRE_NODE_INTERNAL,
  WIRE_NODE_LEAF, WIRE_CODE, WIRE_EOS_CODE when they read (log entry 16). Safe. -/
  | recordMismatch
deriving DecidableEq, Repr

/-- The working stores after reset. DESIGN CHOICE (log entry 9): R43 leaves them unspecified. -/
def Work.reset : Work where
  freq := Vector.replicate 257 0
  nbytes := 0
  tree := none
  nnodes := 0
  pq := []
  seq := 0#10
  ret := none
  code := Vector.replicate 257 ⟨false, []⟩
  codeBeyond := ⟨false, []⟩
  cur := none
  stk := []
  path := []

/-- R43, R270: the state after hardware reset; the streams and the model's own fields by log entries 1, 2, 5, 8, 10, 11,
25. -/
def State.reset : State where
  work := Work.reset
  phase := Phase.idle
  causeKind := 0#3
  causeSub := 0#4
  info := 0#32
  mem := { src := ⟨[], 0⟩, snk := ⟨[], false⟩, shared := false }
  cfg := { magic := Config.magic, cntW := some Config.cntW, nodeCap := some Config.nodeCap }
  answers := []
  inputs := []
  trace := []
  freeIx := 0

end Sys2Proof.Machine
end

