-- ==== Sys2Proof/Machine/Flags.lean ====
section
/-! DEFINITION. Every flag and comparison the spec gives: BUSY, DONE, ERR and the STATUS and CAUSE words (R34, R35), the
queue's order (R28), the two capacity tests (R143, R183). -/

namespace Sys2Proof.Machine

/-- R34: the resting phases IDLE, DONE and FAULT. -/
def restingPhase (p : BitVec 4) : Bool := p == Phase.idle || p == Phase.done || p == Phase.fault

/-- R34: STATUS.BUSY. -/
def State.busy (s : State) : Bool := !restingPhase s.phase

/-- R34: the STATUS word: bit 0 BUSY, bit 1 DONE, bit 2 ERR, bit 3 zero, bits 7:4 PHASE, bits 31:8 zero. -/
def State.status (s : State) : Word :=
  0#24 ++ s.phase ++ 0#1 ++ BitVec.ofBool (s.phase == Phase.fault) ++ BitVec.ofBool (s.phase == Phase.done)
    ++ BitVec.ofBool s.busy

/-- R35: the CAUSE word: bits 2:0 KIND, bit 3 zero, bits 7:4 SUB, bits 31:8 zero. -/
def State.cause (s : State) : Word :=
  0#24 ++ s.causeSub ++ 0#1 ++ s.causeKind

/-- R28: `a` is before `b`: less weight, or equal weight and a smaller sequence number; unsigned. -/
def entryBefore (a b : PqEntry) : Bool :=
  decide (a.weight < b.weight) || (a.weight == b.weight && decide (a.seq.toNat < b.seq.toNat))

/-- R140, R143: NBYTES = 2^CNT_W - 2; never with CNT_W = ∞. -/
def countFull (p : Params) (nbytes : Nat) : Bool :=
  match p.cntW with
  | none => false
  | some w => nbytes + 2 == 2 ^ w

/-- R181, R183: NNODES = NODE_CAP; never with NODE_CAP = ∞. -/
def nodesFull (p : Params) (nnodes : Nat) : Bool :=
  match p.nodeCap with
  | none => false
  | some n => nnodes == n

end Sys2Proof.Machine
end

