-- ==== Sys2Proof/Machine/Ops.lean ====
section
/-! DEFINITION. The named operations over state: field updates, the results of an operation, fault entry (R246), hardware
reset (R270), completion (R227), the four port primitives (R61 to R65) with the environment's answers (R81, R82), the
priority queue (R150, R151), the traversal stack (R33), command acceptance (R226), the host's attachments (R272). -/

namespace Sys2Proof.Machine

/-! ## Updates -/

def State.setWork (s : State) (w : Work) : State := { s with work := w }
def State.setPhase (s : State) (p : BitVec 4) : State := { s with phase := p }
def State.setSrc (s : State) (x : Source) : State := { s with mem := { s.mem with src := x } }
def State.setSnk (s : State) (x : Sink) : State := { s with mem := { s.mem with snk := x } }
def State.setInputs (s : State) (l : List HostEvent) : State := { s with inputs := l }
/-- CAUSE.KIND, CAUSE.SUB and INFO together (R35, R36). -/
def State.setCause (s : State) (k : BitVec 3) (sub : BitVec 4) (info : Word) : State :=
  { s with causeKind := k, causeSub := sub, info := info }
/-- The environment's next answer is used up. -/
def State.answered (s : State) : State := { s with answers := s.answers.tail }
/-- A port transaction is recorded (R19). -/
def State.log (s : State) (t : Txn) : State := { s with trace := t :: s.trace }

/-! ## Results -/

/-- R240: what a fault records. -/
structure Raise where
  kind : BitVec 3
  sub  : BitVec 4
  info : Word
deriving DecidableEq, Repr

/-- R240, the kinds. -/
abbrev Kind.formatError : BitVec 3 := 1#3
abbrev Kind.corruptHeader : BitVec 3 := 2#3
abbrev Kind.truncatedStream : BitVec 3 := 3#3
abbrev Kind.ioFault : BitVec 3 := 4#3
abbrev Kind.capacityFault : BitVec 3 := 5#3

/-- How a part of an operation ends: with a value and a state; by raising a fault (R17 `raise`), in the state in which it
is raised; cut off by hardware reset; stuck; without a meaning. -/
inductive Res (α : Type) where
  | ok (a : α) (s : State)
  | raise (r : Raise) (s : State)
  | cut (s : State)
  | stop (f : Fault)
  | refuse (r : Refusal)
deriving Repr

/-- The next part of an operation runs where the one before ended with a value. -/
def Res.bind {α β : Type} (x : Res α) (f : α → State → Res β) : Res β :=
  match x with
  | .ok a s => f a s
  | .raise r s => .raise r s
  | .cut s => .cut s
  | .stop e => .stop e
  | .refuse r => .refuse r

/-! ## Fault entry, reset, completion -/

/-- The working stores where the spec calls them unspecified: free values (log entries 11, 12). -/
def Work.free (n : Nat) : Work where
  freq := Config.freeFreq n
  nbytes := Config.freeNbytes n
  tree := Config.freeTree n
  nnodes := Config.freeNnodes n
  pq := Config.freePq n
  seq := Config.freeSeq n
  ret := Config.freeRet n
  code := Config.freeCode n
  codeBeyond := Config.freeCodeBeyond n
  cur := Config.freeCur n
  stk := Config.freeStk n
  path := Config.freePath n

/-- R42, R247: the content of the working stores is unspecified from here on. -/
def State.discard (s : State) : State :=
  { s with work := Work.free s.freeIx, freeIx := s.freeIx + 1 }

/-- R246, fault entry: KIND, SUB, INFO and PHASE in one step, nothing else saved; R247: the working stores are then
unspecified. -/
def State.enterFault (s : State) (r : Raise) : State :=
  ((s.setCause r.kind r.sub r.info).setPhase Phase.fault).discard

/-- R270, R43: hardware reset; the streams, the configuration and the outside world's own fields stay, and it makes no
port transaction. -/
def State.hardReset (s : State) : State :=
  { State.reset with
    mem := s.mem, cfg := s.cfg, answers := s.answers, inputs := s.inputs, trace := s.trace, freeIx := s.freeIx }

/-- R227, completion: PHASE is DONE, CAUSE and INFO are 0; R42: the working stores are discarded. -/
def State.complete (s : State) : State :=
  ((s.setCause 0#3 0#4 0#32).setPhase Phase.done).discard

/-- The outcome of a whole operation: a fault is a next state (R246), so is a reset (R270). -/
def Res.outcome (x : Res Unit) : Host.Outcome State Fault Refusal :=
  match x with
  | .ok _ s => .next s
  | .raise r s => .next (s.enterFault r)
  | .cut s => .next s.hardReset
  | .stop e => .fault e
  | .refuse r => .refused r

/-- The operation is done and hands over to the next one (R31: PHASE <- p). -/
def Res.thenPhase (x : Res Unit) (p : BitVec 4) : Host.Outcome State Fault Refusal :=
  (x.bind fun _ s => .ok () (s.setPhase p)).outcome

/-- R170, R29: a write to an entry CODE does not have leaves an unstated value there, a free one (log entry 18). -/
def State.writeBeyondCode (s : State) : State :=
  { s with work := { s.work with codeBeyond := Config.freeCodeBeyond s.freeIx }, freeIx := s.freeIx + 1 }

/-! ## Port primitives -/

/-- How the environment answers the next transaction; where it says nothing, normally (log entry 5). -/
def State.answer (s : State) : PortAnswer := s.answers.headD .ok

/-- R72, R81, R82: one transaction. On one stream at both ports it has no meaning (R83, D16). `failed` is its record when it
answers `io_fail`, which raises IoFault with `sub` (R17, R244) and has no other effect (R247); otherwise `go` is its normal
effect. -/
def transact {α : Type} (failed : Txn) (sub : BitVec 4) (go : State → Res α) (s : State) : Res α :=
  if s.mem.shared then .refuse .sharedStream
  else
    match s.answer with
    | .ok => go s.answered
    | .ioFail => .raise ⟨Kind.ioFault, sub, 0#32⟩ (s.answered.log failed)
    | .never => .stop .portNeverAnswers
    | .reset => .cut s.answered

/-- R61: the bits of the source from its position on. -/
def Source.rest (x : Source) : List Bool := x.bits.drop x.pos

/-- R61, R62, R71: `SrcRead(N)`: the next `n` bits as a number, or `none` for EOD, which leaves the position. -/
def srcRead (n : Nat) (s : State) : Res (Option Nat) :=
  transact (.srcRead n .ioFail) 0#4
    (fun s =>
      if s.mem.src.bits.length - s.mem.src.pos < n then .ok none (s.log (.srcRead n .eod))
      else
        .ok (some (valOf (s.mem.src.rest.take n)))
          ((s.setSrc { s.mem.src with pos := s.mem.src.pos + n }).log
            (.srcRead n (.value (valOf (s.mem.src.rest.take n))))))
    s

/-- R63: `SrcReset()`. -/
def srcReset (s : State) : Res Unit :=
  transact (.srcReset false) 1#4
    (fun s => .ok () ((s.setSrc { s.mem.src with pos := 0 }).log (.srcReset true))) s

/-- R64: `SnkWrite(N, v)` appends the low `n` bits of `v`, most significant first; on a closed sink it has no meaning. -/
def snkWrite (n v : Nat) (s : State) : Res Unit :=
  transact (.snkWrite n v false) 2#4
    (fun s =>
      if s.mem.snk.closed then .refuse .sinkClosed
      else .ok () ((s.setSnk { s.mem.snk with bits := s.mem.snk.bits ++ bitsOf n v }).log (.snkWrite n v true)))
    s

/-- R65: `SnkClose()` pads with zero bits to a byte boundary and closes. -/
def snkClose (s : State) : Res Unit :=
  transact (.snkClose false) 3#4
    (fun s =>
      .ok () ((s.setSnk ⟨s.mem.snk.bits ++ List.replicate (padLength s.mem.snk.bits.length) false, true⟩).log
        (.snkClose true)))
    s

/-- R41, R278: the whole bytes that have reached the sink's backing store: all of it once closed, and before that not the
final partial byte. -/
def Sink.delivered (x : Sink) : List Byte := bytesOfBits x.bits

/-! ## The priority queue -/

/-- R150: `PQ_INSERT(t)`. DESIGN CHOICE (log entry 35): the queue takes any number of entries, and SEQ, 10 bits, wraps from
1023 to 0; in a command neither goes past the bounds of R13. -/
def pqInsert (t : Tree) (w : Work) : Work :=
  { w with pq := w.pq ++ [⟨t.weight, w.seq, t⟩], seq := w.seq + 1#10 }

/-- R151: the entry that no other is before, and the others. -/
def popMin : List PqEntry → Option (PqEntry × List PqEntry)
  | [] => none
  | e :: es =>
    match popMin es with
    | none => some (e, [])
    | some (m, rest) => if entryBefore e m then some (e, es) else some (m, e :: rest)

/-- R151: `PQ_REMOVE_MIN()`, the tree it returns and the stores after; none where the queue is empty. -/
def pqRemoveMin (w : Work) : Option (Tree × Work) :=
  match popMin w.pq with
  | none => none
  | some (e, rest) => some (e.tree, { w with pq := rest, ret := some e.tree })

/-! ## The traversal stack (R33) -/

/-- A node is entered, its left child first. DESIGN CHOICE (log entry 38): a walk stacks its frames on what STK holds when it
begins, and takes off no others. -/
def Work.push (w : Work) (node : Option Tree) : Work := { w with stk := ⟨node, .left⟩ :: w.stk }

/-- The node's right child is next. -/
def Work.turn (w : Work) (node : Option Tree) : Work := { w with stk := ⟨node, .right⟩ :: w.stk.tail }

/-- The node is left. -/
def Work.pop (w : Work) : Work := { w with stk := w.stk.tail }

/-! ## The host's actions -/

/-- R226, command acceptance: ignored while BUSY; refused on a shared or unfresh sink (R83, R276); otherwise CAUSE and INFO
are cleared and PHASE names the command's first operation. -/
def acceptCommand (first : BitVec 4) (s : State) : Host.Outcome State Fault Refusal :=
  if s.busy then .next s
  else if s.mem.shared then .refused .sharedStream
  else if s.mem.snk.bits ≠ [] ∨ s.mem.snk.closed then .refused .sinkNotFresh
  else .next ((s.setCause 0#3 0#4 0#32).setPhase first)

/-- R272, R275: a source stands at the ports, its position between `before` and `after`. DESIGN CHOICE (log entry 33): it is
another stream than the one at SNK, so a sharing (R83) ends, and SNK keeps its stream with the bits it holds (R276). -/
def attachSrc (before after : List Bool) (s : State) : Host.Outcome State Fault Refusal :=
  .next { s with mem := { s.mem with src := ⟨before ++ after, before.length⟩, shared := false } }

/-- R272: an empty open sink stands at the ports, or the source's own stream with the bits it holds (R83); not while a
command runs (R276). DESIGN CHOICE (log entry 33): that stream is open. -/
def attachSnk (shared : Bool) (s : State) : Host.Outcome State Fault Refusal :=
  if s.busy then .refused .sinkAttachedWhileBusy
  else .next { s with mem := { s.mem with snk := ⟨if shared then s.mem.src.bits else [], false⟩, shared := shared } }

end Sys2Proof.Machine
end

