-- ==== Sys2Proof/Machine/Operands.lean ====
section
/-! DEFINITION. The operand forms: a host register by its offset and what reading it gives (R34 to R39), a symbol or a byte
as an index, the node records and the code bits of the compressed stream as a reader takes them (R109, R110, R181, R202),
a code as a writer puts it (R200). -/

namespace Sys2Proof.Machine

/-! ## Host registers -/

/-- R39: the register map; `reserved` is any offset from 0x14 up. -/
inductive Reg where
  | cmd
  | status
  | cause
  | info
  | magicReg
  | reserved
deriving DecidableEq, Repr

/-- R39: the register at a byte offset, none for an offset below 0x14 that is no multiple of 4 (log entry 22). -/
def Reg.ofOffset (offset : Nat) : Option Reg :=
  match offset with
  | 0x00 => some .cmd
  | 0x04 => some .status
  | 0x08 => some .cause
  | 0x0C => some .info
  | 0x10 => some .magicReg
  | n => if 0x14 ≤ n then some .reserved else none

/-- R34 to R39: what a host read of a register gives. Reading changes nothing. -/
def State.readReg (s : State) (r : Reg) : Word :=
  match r with
  | .cmd => 0#32
  | .status => s.status
  | .cause => s.cause
  | .info => s.info
  | .magicReg => s.cfg.magic
  | .reserved => 0#32

/-- R39, R46: what a host read at an offset gives. -/
def State.readOffset (s : State) (offset : Nat) : Option Word := (Reg.ofOffset offset).map s.readReg

/-! ## Indices -/

/-- The counter and code-table index of a literal (R21, R29). -/
def byteIndex (b : Byte) : Fin 257 := ⟨b.toNat, Nat.lt_succ_of_lt b.isLt⟩

/-- The index of a symbol, where the tables have it (R21, R29). -/
def symIndex (s : Sym) : Option (Fin 257) := if h : s.toNat < 257 then some ⟨s.toNat, h⟩ else none

/-- The end-of-stream slot (R21). -/
def eosIndex : Fin 257 := ⟨256, by decide⟩

/-- A read of 8 bits as a literal (R141: 0 to 255). -/
def literal (v : Nat) : Byte := BitVec.ofNat 8 v

/-! ## Node records, read (R181) -/

/-- R181, R182, R183: the flag of the next node (true: a leaf); EOD is CorruptHeaderError SUB 0, and only then a full node
store CapacityFault SUB 1 (R248); the node is counted. -/
def readFlag (s : State) : Res Bool :=
  (srcRead 1 s).bind fun f s =>
    match f with
    | none => .raise ⟨Kind.corruptHeader, 0#4, 0#32⟩ s
    | some v =>
      if nodesFull s.cfg s.work.nnodes then .raise ⟨Kind.capacityFault, 1#4, 0#32⟩ s
      else .ok (v != 0) (s.setWork { s.work with nnodes := s.work.nnodes + 1 })

/-- R110, R181, R182: the nine symbol bits of a leaf record, not checked; EOD is CorruptHeaderError SUB 1. -/
def readSym (s : State) : Res Sym :=
  (srcRead 9 s).bind fun v s =>
    match v with
    | none => .raise ⟨Kind.corruptHeader, 1#4, 0#32⟩ s
    | some v => .ok (BitVec.ofNat 9 v) s

/-! ## Node records, written (R180) -/

/-- R108: an internal-node record. -/
def writeInternal (s : State) : Res Unit := snkWrite 1 0 s

/-- R109: a leaf record. -/
def writeLeaf (sym : Sym) (s : State) : Res Unit :=
  (snkWrite 1 1 s).bind fun _ s => snkWrite 9 sym.toNat s

/-! ## Code bits -/

/-- R200 `put`: the bits of a code, first bit first, one write each. -/
def putCode : List Bool → State → Res Unit
  | [], s => .ok () s
  | b :: bs, s => (snkWrite 1 b.toNat s).bind fun _ s => putCode bs s

/-- R202: the child a body bit selects, 0 left and 1 right; a leaf has none, and the walk never asks it for one. -/
def childOf : Tree → Bool → Tree
  | .leaf s w, _ => .leaf s w
  | .internal _ l r, b => if b then r else l

/-- R207: what one body bit leads to; the fourth outcome, truncated, is a fault. -/
inductive BitOutcome where
  /-- still inside the tree -/
  | inside
  /-- a symbol other than EOS is decoded -/
  | symbol (s : Sym)
  /-- the EOS leaf is reached -/
  | eos
deriving DecidableEq, Repr

/-- What standing at a node of the tree means (R202). -/
def outcomeAt : Tree → BitOutcome
  | .internal _ _ _ => .inside
  | .leaf s _ => if s = Config.eos then .eos else .symbol s

/-- R202, R204: one pass of the decoder's loop up to the new cursor; EOD is TruncatedStreamError. -/
def decodeBit (root : Tree) (s : State) : Res BitOutcome :=
  (srcRead 1 s).bind fun b s =>
    match b with
    | none => .raise ⟨Kind.truncatedStream, 0#4, 0#32⟩ s
    | some v =>
      .ok (outcomeAt (childOf (s.work.cur.getD root) (v != 0)))
        (s.setWork { s.work with cur := some (childOf (s.work.cur.getD root) (v != 0)) })

/-- R205, R119: a decoded literal is written, its low eight bits, and the cursor is back at the root. -/
def putLiteral (root : Tree) (sym : Sym) (s : State) : Res Unit :=
  (snkWrite 8 sym.toNat s).bind fun _ s => .ok () (s.setWork { s.work with cur := some root })

end Sys2Proof.Machine
end

