-- ==== Sys2Proof/Machine/CodeTable.lean ====
section
/-! DEFINITION. CodeTableGenerator: GENCODES (42_code_table.md R170 to R174). -/

namespace Sys2Proof.Machine

/-- R170: all 257 valid bits are cleared when GENCODES begins; the walk starts with an empty path. -/
def Work.clearCodes (w : Work) : Work :=
  { w with code := w.code.map fun c => { c with valid := false }, path := [] }

/-- R170: at a leaf the path is recorded as its symbol's code; where the table has no entry for the symbol none of its entries
changes (log entry 18). -/
def Work.recordCode (w : Work) (s : Sym) : Work :=
  match symIndex s with
  | some i => { w with code := w.code.set i ⟨true, w.path⟩ }
  | none => w

/-- One more bit on the path. -/
def Work.down (w : Work) (b : Bool) : Work := { w with path := w.path ++ [b] }

/-- The last bit off the path. -/
def Work.up (w : Work) : Work := { w with path := w.path.dropLast }

/-- R170, the walk: left with 0, then right with 1; R33: STK holds the nodes above and PATH the path so far. -/
def walkCodes : Tree → Work → Work
  | .leaf s _, w => w.recordCode s
  | .internal n l r, w =>
    let node := some (Tree.internal n l r)
    let w := (walkCodes l ((w.push node).down false)).up
    let w := (walkCodes r ((w.turn node).down true)).up
    w.pop

/-- R170: `GENCODES`. DESIGN CHOICE (log entry 18): where a symbol of the tree has no entry in CODE (257 to 511, R115), what
the write to it leaves is a free value; everything else is done all the same. -/
def execGencodes (s : State) : Host.Outcome State Fault Refusal :=
  match s.work.tree with
  | none => .refused .noTree
  | some t =>
    let s := s.setWork (walkCodes t s.work.clearCodes)
    let s := if t.symsInTable then s else s.writeBeyondCode
    .next (s.setPhase Phase.wrmagic)

end Sys2Proof.Machine
end

