-- ==== Sys2Proof/Machine/Commands.lean ====
section
/-! DEFINITION. The four values of a CMD write (R102, R103, R226). -/

namespace Sys2Proof.Machine

/-- R102: OP = 00, the write has no effect. -/
def execCmdNop (s : State) : Host.Outcome State Fault Refusal := .next s

/-- R224, R226: `COMPRESS` starts at COUNT. -/
def execCompress (s : State) : Host.Outcome State Fault Refusal := acceptCommand Phase.count s

/-- R225, R226: `DECOMPRESS` starts at CHKMAGIC. -/
def execDecompress (s : State) : Host.Outcome State Fault Refusal := acceptCommand Phase.chkmagic s

/-- R103: OP = 11 is reserved and has no effect, exactly as OP = 00. -/
def execCmdReserved (s : State) : Host.Outcome State Fault Refusal := .next s

end Sys2Proof.Machine
end

