-- ==== Sys2Proof/Machine/FrequencyCounter.lean ====
section
/-! DEFINITION. FrequencyCounter: COUNT (40_frequency_counter.md R140 to R145). -/

namespace Sys2Proof.Machine

/-- R140: all counters and NBYTES are 0 when COUNT begins. -/
def Work.clearCounts (w : Work) : Work := { w with freq := Vector.replicate 257 0, nbytes := 0 }

/-- R140: one more literal: its counter and NBYTES are incremented. -/
def Work.countByte (w : Work) (b : Byte) : Work :=
  { w with nbytes := w.nbytes + 1, freq := w.freq.set (byteIndex b) (w.freq[byteIndex b] + 1) }

/-- R141: the end-of-stream slot is 1 after the scan. -/
def Work.markEos (w : Work) : Work := { w with freq := w.freq.set eosIndex 1 }

/-- R140, the loop: read 8 bits until EOD; R143, the capacity test comes before anything is counted. The bound is the
number of whole bytes left, so the last read answers EOD. -/
def countLoop : Nat → State → Res Unit
  | 0, s => (srcRead 8 s).bind fun _ s => .ok () s
  | n + 1, s =>
    (srcRead 8 s).bind fun r s =>
      match r with
      | none => .ok () s
      | some v =>
        if countFull s.cfg s.work.nbytes then .raise ⟨Kind.capacityFault, 0#4, 0#32⟩ s
        else countLoop n (s.setWork (s.work.countByte (literal v)))

/-- R140: `COUNT`. -/
def execCount (s : State) : Host.Outcome State Fault Refusal :=
  ((countLoop (s.mem.src.rest.length / 8) (s.setWork s.work.clearCounts)).bind fun _ s =>
    .ok () (s.setWork s.work.markEos)).thenPhase Phase.build

end Sys2Proof.Machine
end

