-- ==== Sys2Proof/Machine/Ports.lean ====
section
/-! DEFINITION. The port transactions as instructions of their own (20_memory.md R61 to R65); what a read answered is in
the trace (R19), EOD among it (R62). -/

namespace Sys2Proof.Machine

/-- R61: `SrcRead(N)`; the collaborator's contract is for any N. -/
def execSrcRead (n : Nat) (s : State) : Host.Outcome State Fault Refusal :=
  ((srcRead n s).bind fun _ s => .ok () s).outcome

/-- R63: `SrcReset()`. -/
def execSrcReset (s : State) : Host.Outcome State Fault Refusal := (srcReset s).outcome

/-- R64: `SnkWrite(N, v)`, 1 ≤ N ≤ 32. -/
def execSnkWrite (n : Nat) (v : Word) (s : State) : Host.Outcome State Fault Refusal :=
  if writeWidthOk n then (snkWrite n v.toNat s).outcome else .refused .widthOutOfRange

/-- R65: `SnkClose()`. -/
def execSnkClose (s : State) : Host.Outcome State Fault Refusal := (snkClose s).outcome

end Sys2Proof.Machine
end

