-- ==== Sys2Proof/Machine/Resting.lean ====
section
/-! DEFINITION. The phases in which the block rests (R31, R227, R246) and the two codes that are never produced (R104). -/

namespace Sys2Proof.Machine

/-- R31, R271: in IDLE the block waits for a CMD write. -/
def execIdle (s : State) : Host.Outcome State Fault Refusal := .next s

/-- R227: in DONE the block makes no port transaction until the next command. -/
def execDone (s : State) : Host.Outcome State Fault Refusal := .next s

/-- R246, R249: in FAULT the block does nothing; only a new command or reset leaves it. -/
def execFault (s : State) : Host.Outcome State Fault Refusal := .next s

/-- R104: the code 0xC is never produced; the spec gives it no operation (log entry 19). -/
def execPhaseC (_ : State) : Host.Outcome State Fault Refusal := .refused .phaseNeverProduced

/-- R104: the code 0xD is never produced; the spec gives it no operation (log entry 19). -/
def execPhaseD (_ : State) : Host.Outcome State Fault Refusal := .refused .phaseNeverProduced

end Sys2Proof.Machine
end

