-- ==== Sys2Proof/Machine/TreeBuilder.lean ====
section
/-! DEFINITION. TreeBuilder: PQ_INSERT, PQ_REMOVE_MIN, BUILD (41_tree_builder.md R150 to R158). -/

namespace Sys2Proof.Machine

/-- R150: `PQ_INSERT(t)` as an instruction of its own. -/
def execPqInsert (t : Tree) (s : State) : Host.Outcome State Fault Refusal :=
  .next (s.setWork (pqInsert t s.work))

/-- R151: `PQ_REMOVE_MIN()` as an instruction of its own; the tree it returns is in `ret` (log entry 17). -/
def execPqRemoveMin (s : State) : Host.Outcome State Fault Refusal :=
  match pqRemoveMin s.work with
  | none => .refused .emptyQueue
  | some (_, w) => .next (s.setWork w)

/-- R152: PQ, SEQ, NNODES and TREE when BUILD begins. -/
def Work.clearBuild (w : Work) : Work := { w with pq := [], seq := 0#10, nnodes := 0, tree := none }

/-- R152, step 1: a leaf for every symbol, from `sym` up, whose count is positive, in ascending order. -/
def insertLeaves : Nat → List Nat → Work → Work
  | _, [], w => w
  | sym, c :: cs, w =>
    if 0 < c then
      insertLeaves (sym + 1) cs
        { pqInsert (.leaf (BitVec.ofNat 9 sym) c) w with nnodes := w.nnodes + 1 }
    else insertLeaves (sym + 1) cs w

/-- R153, step 2: while more than one entry is queued, the two least are merged, the first removed the left child. The
bound is the queue's length, which every pass lowers by one. -/
def merge : Nat → Work → Work
  | 0, w => w
  | n + 1, w =>
    if w.pq.length ≤ 1 then w
    else
      match pqRemoveMin w with
      | none => w
      | some (a, w1) =>
        match pqRemoveMin w1 with
        | none => w
        | some (b, w2) =>
          merge n (pqInsert (.internal (a.weight + b.weight) a b) { w2 with nnodes := w2.nnodes + 1 })

/-- R152, R153: the queue before step 3. -/
def Work.merged (w : Work) : Work :=
  let leaves := insertLeaves 0 w.freq.toList w.clearBuild
  merge leaves.pq.length leaves

/-- R152 to R154: `BUILD`; the one entry left is the root. -/
def execBuild (s : State) : Host.Outcome State Fault Refusal :=
  match pqRemoveMin s.work.merged with
  | none => .refused .emptyQueue
  | some (t, w) => .next ((s.setWork { w with tree := some t }).setPhase Phase.gencodes)

end Sys2Proof.Machine
end

