-- ==== Sys2Proof/Machine/HeaderCodec.lean ====
section
/-! DEFINITION. HeaderCodec: WRHDR and RDHDR (43_header_codec.md R180 to R185). -/

namespace Sys2Proof.Machine

/-- R180, `emit`: pre-order, left before right; R33: STK holds the nodes above. -/
def emitTree : Tree → State → Res Unit
  | .leaf sym _, s => writeLeaf sym s
  | .internal n l r, s =>
    let node := some (Tree.internal n l r)
    (writeInternal s).bind fun _ s =>
      (emitTree l (s.setWork (s.work.push node))).bind fun _ s =>
        (emitTree r (s.setWork (s.work.turn node))).bind fun _ s => .ok () (s.setWork s.work.pop)

/-- R180: `WRHDR`. -/
def execWrhdr (s : State) : Host.Outcome State Fault Refusal :=
  match s.work.tree with
  | none => .refused .noTree
  | some t => (emitTree t s).thenPhase Phase.rewind

/-- R181, `parse`: a flag, then two subtrees or a symbol; every weight is 0 (R185). The bound is the number of bits left,
so where it is used up the read of the flag answers EOD. -/
def parseTree : Nat → State → Res Tree
  | 0, s => (readFlag s).bind fun _ s => .raise ⟨Kind.corruptHeader, 0#4, 0#32⟩ s
  | n + 1, s =>
    (readFlag s).bind fun leaf s =>
      if leaf then (readSym s).bind fun sym s => .ok (.leaf sym 0) s
      else
        (parseTree n (s.setWork (s.work.push none))).bind fun l s =>
          (parseTree n (s.setWork (s.work.turn (some l)))).bind fun r s =>
            .ok (.internal 0 l r) (s.setWork s.work.pop)

/-- R181: NNODES and TREE when RDHDR begins. -/
def Work.clearTree (w : Work) : Work := { w with nnodes := 0, tree := none }

/-- R181: `RDHDR`. -/
def execRdhdr (s : State) : Host.Outcome State Fault Refusal :=
  ((parseTree s.mem.src.rest.length (s.setWork s.work.clearTree)).bind fun t s =>
    .ok () (s.setWork { s.work with tree := some t })).thenPhase Phase.decode

end Sys2Proof.Machine
end

