-- ==== Sys2Proof/Machine/Preamble.lean ====
section
/-! DEFINITION. The operations that frame the codec: WRMAGIC, CHKMAGIC, REWIND, CLOSE (45_commands.md R220 to R223, R227). -/

namespace Sys2Proof.Machine

/-- R220, R106: the preamble is written. -/
def writeMagic (s : State) : Res Unit := snkWrite 32 s.cfg.magic.toNat s

/-- R221, R241: the preamble is read and compared, on all 32 bits. -/
def checkMagic (s : State) : Res Unit :=
  (srcRead 32 s).bind fun m s =>
    match m with
    | none => .raise ⟨Kind.formatError, 1#4, 0#32⟩ s
    | some v =>
      if BitVec.ofNat 32 v = s.cfg.magic then .ok () s
      else .raise ⟨Kind.formatError, 0#4, BitVec.ofNat 32 v⟩ s

/-- R220: `WRMAGIC`. -/
def execWrmagic (s : State) : Host.Outcome State Fault Refusal := (writeMagic s).thenPhase Phase.wrhdr

/-- R221: `CHKMAGIC`. -/
def execChkmagic (s : State) : Host.Outcome State Fault Refusal := (checkMagic s).thenPhase Phase.rdhdr

/-- R222: `REWIND`. -/
def execRewind (s : State) : Host.Outcome State Fault Refusal := (srcReset s).thenPhase Phase.encode

/-- R223, R227: `CLOSE` finalises the sink and ends the command. -/
def execClose (s : State) : Host.Outcome State Fault Refusal :=
  ((snkClose s).bind fun _ s => .ok () s.complete).outcome

end Sys2Proof.Machine
end

