-- ==== Sys2Proof/Machine/StreamCodec.lean ====
section
/-! DEFINITION. StreamCodec: ENCODE and DECODE (44_stream_codec.md R200 to R208). -/

namespace Sys2Proof.Machine

/-- R200, R201: a literal's code is written; a literal with no valid code is IoFault SUB 4 before anything is written. -/
def putByte (b : Byte) (s : State) : Res Unit :=
  if s.work.code[byteIndex b].valid then putCode s.work.code[byteIndex b].bits s
  else .raise ⟨Kind.ioFault, 4#4, 0#32⟩ s

/-- R200, R112: the terminator. -/
def putEos (s : State) : Res Unit := putCode s.work.code[eosIndex].bits s

/-- R200, the loop: a byte, then its code, until EOD. The bound is the number of whole bytes left, so the last read
answers EOD. -/
def encodeLoop : Nat → State → Res Unit
  | 0, s => (srcRead 8 s).bind fun _ s => .ok () s
  | n + 1, s =>
    (srcRead 8 s).bind fun r s =>
      match r with
      | none => .ok () s
      | some v => (putByte (literal v) s).bind fun _ s => encodeLoop n s

/-- R200: `ENCODE`. DESIGN CHOICE (log entry 34): where its precondition SRC.pos = 0 does not hold it runs from the position
the source has. -/
def execEncode (s : State) : Host.Outcome State Fault Refusal :=
  ((encodeLoop (s.mem.src.rest.length / 8) s).bind fun _ s => putEos s).thenPhase Phase.close

/-- R202, the loop, on a root with two children. The bound is the number of bits left, so where it is used up the read
answers EOD. -/
def decodeLoop (root : Tree) : Nat → State → Res Unit
  | 0, s => (decodeBit root s).bind fun _ s => .raise ⟨Kind.truncatedStream, 0#4, 0#32⟩ s
  | n + 1, s =>
    (decodeBit root s).bind fun o s =>
      match o with
      | .inside => decodeLoop root n s
      | .eos => .ok () s
      | .symbol x => (putLiteral root x s).bind fun _ s => decodeLoop root n s

/-- R202, R203: `DECODE`; a root that is a leaf is tested once, before the first read. -/
def execDecode (s : State) : Host.Outcome State Fault Refusal :=
  match s.work.tree with
  | none => .refused .noTree
  | some (.leaf x _) =>
    if x = Config.eos then .next (s.setPhase Phase.close)
    else .next (s.enterFault ⟨Kind.corruptHeader, 2#4, x.setWidth 32⟩)
  | some (.internal w l r) =>
    (decodeLoop (.internal w l r) s.mem.src.rest.length
      (s.setWork { s.work with cur := some (.internal w l r) })).thenPhase Phase.close

end Sys2Proof.Machine
end

