-- ==== Sys2Proof/Machine/Wire.lean ====
section
/-! DEFINITION. The records of the compressed stream as instructions (30_encoding.md R105 to R114): a record is read from
SRC in the phase that reads it (R69: CHKMAGIC, RDHDR, DECODE) and written to SNK in every other (log entry 16). None of
them moves PHASE. -/

namespace Sys2Proof.Machine

/-- R106: the magic record: checked in CHKMAGIC, else written. -/
def execWireMagic (s : State) : Host.Outcome State Fault Refusal :=
  if s.phase = Phase.chkmagic then (checkMagic s).outcome else (writeMagic s).outcome

/-- R108, R181: an internal-node record is read: the flag 0, and the node waits on STK for its left child. -/
def readInternal (s : State) : Res Unit :=
  (readFlag s).bind fun leaf s => if leaf then .refuse .recordMismatch else .ok () (s.setWork (s.work.push none))

/-- R108: the internal-node record: read in RDHDR, else written. -/
def execWireNodeInternal (s : State) : Host.Outcome State Fault Refusal :=
  if s.phase = Phase.rdhdr then (readInternal s).outcome else (writeInternal s).outcome

/-- R109, R110, R181: a leaf record is read: the flag 1 and the symbol; the leaf it makes is in `ret` (log entry 17). -/
def readLeaf (sym : Sym) (s : State) : Res Unit :=
  (readFlag s).bind fun leaf s =>
    if leaf then
      (readSym s).bind fun x s =>
        if x = sym then .ok () (s.setWork { s.work with ret := some (.leaf sym 0) }) else .refuse .recordMismatch
    else .refuse .recordMismatch

/-- R109: the leaf record: read in RDHDR, else written. -/
def execWireNodeLeaf (sym : Sym) (s : State) : Host.Outcome State Fault Refusal :=
  if s.phase = Phase.rdhdr then (readLeaf sym s).outcome else (writeLeaf sym s).outcome

/-- R114 (d): the walk along one code word, from the root to a leaf. The bound is the number of bits left. -/
def walkCode (root : Tree) : Nat → State → Res BitOutcome
  | 0, s => (decodeBit root s).bind fun _ s => .raise ⟨Kind.truncatedStream, 0#4, 0#32⟩ s
  | n + 1, s =>
    (decodeBit root s).bind fun o s =>
      match o with
      | .inside => walkCode root n s
      | .eos => .ok .eos s
      | .symbol x => .ok (.symbol x) s

/-- R111, R112, R203: one code word of the tree in force is read; a leaf root is tested before the first bit. -/
def readCode (s : State) : Res BitOutcome :=
  match s.work.tree with
  | none => .refuse .noTree
  | some (.leaf x _) =>
    if x = Config.eos then .ok .eos s else .raise ⟨Kind.corruptHeader, 2#4, x.setWidth 32⟩ s
  | some (.internal w l r) =>
    walkCode (.internal w l r) s.mem.src.rest.length (s.setWork { s.work with cur := some (.internal w l r) })

/-- R202, R119: a literal's code word is read, and the literal is written to the sink. -/
def readByte (b : Byte) (s : State) : Res Unit :=
  (readCode s).bind fun o s =>
    match o with
    | .symbol x =>
      if x.setWidth 8 = b then putLiteral (s.work.tree.getD (.leaf x 0)) x s else .refuse .recordMismatch
    | .eos => .refuse .recordMismatch
    | .inside => .refuse .recordMismatch

/-- R111: the code word of a literal: read in DECODE, else written. -/
def execWireCode (b : Byte) (s : State) : Host.Outcome State Fault Refusal :=
  if s.phase = Phase.decode then (readByte b s).outcome else (putByte b s).outcome

/-- R112, R202: the terminator is read. -/
def readEos (s : State) : Res Unit :=
  (readCode s).bind fun o s =>
    match o with
    | .eos => .ok () s
    | .symbol _ => .refuse .recordMismatch
    | .inside => .refuse .recordMismatch

/-- R112: the terminator: read in DECODE, else written. -/
def execWireEosCode (s : State) : Host.Outcome State Fault Refusal :=
  if s.phase = Phase.decode then (readEos s).outcome else (putEos s).outcome

/-- R113, R75: the padding: the decoder never reads it, so in DECODE it has no effect; SnkClose alone writes it. -/
def execWirePadding (s : State) : Host.Outcome State Fault Refusal :=
  if s.phase = Phase.decode then .next s else (snkClose s).outcome

end Sys2Proof.Machine
end

