-- ==== Sys2Proof/Machine/Dispatch.lean ====
section
/-! DEFINITION. One arm per instruction, each a direct call of its meaning. -/

namespace Sys2Proof.Machine

def exec (i : Instr) (s : State) : Host.Outcome State Fault Refusal :=
  match i with
  -- CMD
  | .cmdNop => Sys2Proof.Machine.execCmdNop s
  | .compress => Sys2Proof.Machine.execCompress s
  | .decompress => Sys2Proof.Machine.execDecompress s
  | .cmdReserved => Sys2Proof.Machine.execCmdReserved s
  -- PHASE
  | .idle => Sys2Proof.Machine.execIdle s
  | .count => Sys2Proof.Machine.execCount s
  | .build => Sys2Proof.Machine.execBuild s
  | .gencodes => Sys2Proof.Machine.execGencodes s
  | .wrmagic => Sys2Proof.Machine.execWrmagic s
  | .wrhdr => Sys2Proof.Machine.execWrhdr s
  | .rewind => Sys2Proof.Machine.execRewind s
  | .encode => Sys2Proof.Machine.execEncode s
  | .close => Sys2Proof.Machine.execClose s
  | .chkmagic => Sys2Proof.Machine.execChkmagic s
  | .rdhdr => Sys2Proof.Machine.execRdhdr s
  | .decode => Sys2Proof.Machine.execDecode s
  | .phaseC => Sys2Proof.Machine.execPhaseC s
  | .phaseD => Sys2Proof.Machine.execPhaseD s
  | .done => Sys2Proof.Machine.execDone s
  | .fault => Sys2Proof.Machine.execFault s
  -- MICRO
  | .pqInsert t => Sys2Proof.Machine.execPqInsert t s
  | .pqRemoveMin => Sys2Proof.Machine.execPqRemoveMin s
  -- WIRE
  | .wireMagic => Sys2Proof.Machine.execWireMagic s
  | .wireNodeInternal => Sys2Proof.Machine.execWireNodeInternal s
  | .wireNodeLeaf sym => Sys2Proof.Machine.execWireNodeLeaf sym s
  | .wireCode b => Sys2Proof.Machine.execWireCode b s
  | .wireEosCode => Sys2Proof.Machine.execWireEosCode s
  | .wirePadding => Sys2Proof.Machine.execWirePadding s
  -- PORT
  | .srcRead n => Sys2Proof.Machine.execSrcRead n s
  | .srcReset => Sys2Proof.Machine.execSrcReset s
  | .snkWrite n v => Sys2Proof.Machine.execSnkWrite n v s
  | .snkClose => Sys2Proof.Machine.execSnkClose s

end Sys2Proof.Machine
end

