-- ==== Sys2Proof/Machine/Fetch.lean ====
section
/-! DEFINITION. What the block runs next (log entry 20): the host's next action, if it has one, decides; otherwise, and on
the action `tick`, the operation PHASE names runs (R31). Also where a word of the opcode table is put so that the next step
runs it. -/

namespace Sys2Proof.Machine

/-- What a step does: an instruction in a state, or an action of the host that is no instruction. -/
inductive Fetched where
  | run (i : Instr) (s : State)
  | host (o : Host.Outcome State Fault Refusal)

/-- R37, R39: a host write: to CMD it is a command (R226), to any other register it is ignored; an offset between
registers has no meaning. -/
def hostWrite (offset : Nat) (value : Word) (s : State) : Fetched :=
  match Reg.ofOffset offset with
  | none => .host (.refused .offsetBetweenRegisters)
  | some .cmd => .run (decodeCmd value) s
  | some .status => .host (.next s)
  | some .cause => .host (.next s)
  | some .info => .host (.next s)
  | some .magicReg => .host (.next s)
  | some .reserved => .host (.next s)

/-- The host's next action is used up; where there is none, the block runs. -/
def fetch (s : State) : Fetched :=
  match s.inputs with
  | [] => .run (decodePhase s.phase) s
  | .tick :: rest => .run (decodePhase s.phase) (s.setInputs rest)
  | .write offset value :: rest => hostWrite offset value (s.setInputs rest)
  | .reset :: rest => .host (.next (s.setInputs rest).hardReset)
  | .attachSrc before after :: rest => .host (attachSrc before after (s.setInputs rest))
  | .attachSnk shared :: rest => .host (attachSnk shared (s.setInputs rest))

/-- The stores an operation reads, where the operations before it in its command have not run: the end-of-stream slot for
BUILD (R141), a tree for GENCODES, WRHDR and DECODE (R155's one leaf, if there is none) (log entry 20). -/
def Work.readyFor (w : Work) (p : BitVec 4) : Work :=
  if p = Phase.build then w.markEos
  else if p = Phase.gencodes ∨ p = Phase.wrhdr ∨ p = Phase.decode then
    { w with tree := some (w.tree.getD (.leaf Config.eos 1)) }
  else w

/-- A word of the opcode table put where the next step takes it from: a CMD word is the host's next write, a PHASE code
is in PHASE, a node record is the source, read by RDHDR. -/
def placeWord (s : State) (nbits w : Nat) : State :=
  if nbits = 32 then s.setInputs (.write 0 (BitVec.ofNat 32 w) :: s.inputs)
  else if nbits = 4 ∨ nbits = 8 then
    ((s.setWork (s.work.readyFor (BitVec.ofNat 4 w))).setPhase (BitVec.ofNat 4 w)).setInputs (.tick :: s.inputs)
  else if nbits = 10 ∨ nbits = 16 then
    ((s.setSrc ⟨bitsOf 10 w, 0⟩).setPhase Phase.rdhdr).setInputs (.tick :: s.inputs)
  else if nbits = 1 then
    ((s.setSrc ⟨bitsOf 1 w, 0⟩).setPhase Phase.rdhdr).setInputs (.tick :: s.inputs)
  else s

end Sys2Proof.Machine
end

