-- ==== Sys2Proof/Machine/Step.lean ====
section
/-! DEFINITION. One step: what `fetch` gives is run. -/

namespace Sys2Proof.Machine

/-- One step of the machine: one action of the host, or one whole operation of the block (D10, log entry 4). -/
def step (s : State) : Host.Outcome State Fault Refusal :=
  match fetch s with
  | .run i s' => exec i s'
  | .host o => o

/-- The state with a word of the opcode table placed so that the very next step runs it (log entry 20). -/
def State.withFetchWord (s : State) (nbits w : Nat) : State := placeWord s nbits w

end Sys2Proof.Machine
end

