-- ==== Sys2Proof/Safety.lean ====
section
/-! DEFINITION. The words the claims are stated in: what a run of port transactions leaves behind, ports that work, capacity
that suffices, trees and codes as the spec speaks of them, and the invariant of the machine. -/

namespace Sys2Proof

/-! ## Trees -/

/-- The leaves, left to right, with their weights. -/
def Tree.leaves : Tree → List (Sym × Nat)
  | .leaf s w => [(s, w)]
  | .internal _ l r => l.leaves ++ r.leaves

/-- The nodes of a tree, leaves and internal nodes. -/
def Tree.size : Tree → Nat
  | .leaf _ _ => 1
  | .internal _ l r => l.size + r.size + 1

/-- R107, R182: how many node flags lie in the first `n` bits of a tree's header. -/
def Tree.flagsWithin : Tree → Nat → Nat
  | _, 0 => 0
  | .leaf _ _, _ + 1 => 1
  | .internal _ l r, n + 1 => l.flagsWithin n + r.flagsWithin (n - (encodeTree l).length) + 1

/-- R185: the tree as a header gives it back: every weight 0. -/
def Tree.parsed : Tree → Tree
  | .leaf s _ => .leaf s 0
  | .internal _ l r => .internal 0 l.parsed r.parsed

/-- The subtree a bit sequence leads to, 0 left and 1 right (R105, R202); none where it passes a leaf. -/
def Tree.follow : Tree → List Bool → Option Tree
  | t, [] => some t
  | .leaf _ _, _ :: _ => none
  | .internal _ l r, b :: bs => if b then r.follow bs else l.follow bs

/-- The symbol of the leaf a bit sequence leads to. -/
def Tree.leafAt (t : Tree) (bits : List Bool) : Option Sym :=
  match t.follow bits with
  | some (.leaf s _) => some s
  | _ => none

/-- Whether a bit sequence stops at an internal node, so that a code word is not complete. -/
def Tree.insideAt (t : Tree) (bits : List Bool) : Bool :=
  match t.follow bits with
  | some (.internal _ _ _) => true
  | _ => false

/-- R170: the path to the leaf that GENCODES visits last among those that carry `x`; where no symbol occurs twice
(R24 (e)) it is the only one. -/
def Tree.lastPath : Tree → Sym → Option (List Bool)
  | .leaf s _, x => if s = x then some [] else none
  | .internal _ l r, x =>
    match r.lastPath x with
    | some p => some (true :: p)
    | none => (l.lastPath x).map (false :: ·)

namespace Safety

open Machine

/-! ## Ports -/

/-- Every port transaction to come gets its normal answer. -/
def PortsAnswer (s : State) : Prop := ∀ a ∈ s.answers, a = PortAnswer.ok

/-- The ports work: two streams stand at them (R83), and every transaction to come gets its normal answer. -/
def PortsWork (s : State) : Prop := PortsAnswer s ∧ s.mem.shared = false

/-- Two streams stand at the ports (R83), and the next transaction is answered so. -/
abbrev NextAnswer (s : State) (a : PortAnswer) : Prop := s.mem.shared = false ∧ s.answer = a

/-- The whole bytes of the source from its position on (R67, R68). -/
def bytesLeft (s : State) : List Byte := bytesOfBits s.mem.src.rest

/-- R143: a source of `n` bytes does not exceed the counters. -/
def CountFits (p : Params) (n : Nat) : Prop := ∀ w, p.cntW = some w → n + 2 ≤ 2 ^ w

/-- R183: a header of `n` nodes does not exceed the node store. -/
def NodesFit (p : Params) (n : Nat) : Prop := ∀ c, p.nodeCap = some c → n ≤ c

end Safety

/-- The state after transactions that were all answered normally: the stores are `w`, the source stands at `pos`, the sink
has got `out`, and `txns`, oldest first, are the transactions made. Everything else is as it was. -/
def Machine.State.ran (s : Machine.State) (w : Machine.Work) (pos : Nat) (out : List Bool) (txns : List Machine.Txn) :
    Machine.State :=
  { s with
    work := w
    mem := { s.mem with src := { s.mem.src with pos := pos }, snk := { s.mem.snk with bits := s.mem.snk.bits ++ out } }
    answers := s.answers.drop txns.length
    trace := txns.reverse ++ s.trace }

namespace Safety

open Machine

/-- COUNT's and ENCODE's reads of literals. -/
def readBytes (bs : List Byte) : List Txn := bs.map fun b => .srcRead 8 (.value b.toNat)

/-- The decoder's reads of body bits. -/
def readBits (bits : List Bool) : List Txn := bits.map fun b => .srcRead 1 (.value b.toNat)

/-- The writes of a code, bit by bit (R200). -/
def putBits (bits : List Bool) : List Txn := bits.map fun b => .snkWrite 1 b.toNat true

/-- R180: the writes of WRHDR. -/
def headerWrites : Tree → List Txn
  | .internal _ l r => .snkWrite 1 0 true :: (headerWrites l ++ headerWrites r)
  | .leaf s _ => [.snkWrite 1 1 true, .snkWrite 9 s.toNat true]

/-- R181: the reads of RDHDR on a whole header. -/
def headerReads : Tree → List Txn
  | .internal _ l r => .srcRead 1 (.value 0) :: (headerReads l ++ headerReads r)
  | .leaf s _ => [.srcRead 1 (.value 1), .srcRead 9 (.value s.toNat)]

/-! ## COUNT and ENCODE -/

/-- R140, R141, R144: how often each literal occurs, and 1 for the end-of-stream symbol. -/
def tally (bs : List Byte) : Vector Nat 257 :=
  Vector.ofFn fun i => if i.val = 256 then 1 else bs.countP fun b => b.toNat == i.val

/-- R29: the code-table entry of a literal. -/
def codeOf (code : Vector CodeEntry 257) (b : Byte) : CodeEntry := code[byteIndex b]

/-- R105: the path to a symbol in a tree, empty where there is none. -/
def pathOf (t : Tree) (x : Sym) : List Bool := (t.path x).getD []

/-- R112, R224: the body of a byte string under a tree. -/
def bodyOf (t : Tree) (bs : List Byte) : List Bool :=
  (bs.flatMap fun b => pathOf t (b.setWidth 9)) ++ pathOf t Config.eos

/-- R200: the codes of a byte string. -/
def codesOf (code : Vector CodeEntry 257) (bs : List Byte) : List Bool := bs.flatMap fun b => (codeOf code b).bits

/-- R77, R200: ENCODE's transactions for a byte string: a read, then the writes of its code, byte by byte. -/
def encodeTxns (code : Vector CodeEntry 257) (bs : List Byte) : List Txn :=
  bs.flatMap fun b => .srcRead 8 (.value b.toNat) :: putBits (codeOf code b).bits

/-! ## BUILD -/

/-- R152: the symbols with a positive count and their counts, in ascending order. -/
def presentSymbols (freq : Vector Nat 257) : List (Sym × Nat) :=
  (freq.toList.zipIdx.filter fun c => decide (0 < c.1)).map fun c => (BitVec.ofNat 9 c.2, c.1)

/-- R152: the entries of the leaves: the present symbols in ascending order, numbered from 0. -/
def leafEntries (freq : Vector Nat 257) : List PqEntry :=
  (presentSymbols freq).zipIdx.map fun x => ⟨x.1.2, BitVec.ofNat 10 x.2, .leaf x.1.1 x.1.2⟩

/-- R28, R151: `m` is taken from the queue `l` and leaves `rest`: no other entry is lighter, and none as light was
inserted earlier. -/
def TakesLeast (l : List PqEntry) (m : PqEntry) (rest : List PqEntry) : Prop :=
  (m :: rest).Perm l ∧ rest.Sublist l ∧
    ∀ e ∈ rest, ¬ (e.weight < m.weight ∨ (e.weight = m.weight ∧ e.seq.toNat < m.seq.toNat))

/-- R153, R154: a queue and the next sequence number lead to a root: one entry is the root; otherwise the two least are
taken, the first removed becomes the left child and the second the right, their weights are added, and the new node is
queued with the next number. -/
inductive GreedyMerge : List PqEntry → BitVec 10 → Tree → Prop where
  | root (e : PqEntry) (n : BitVec 10) : GreedyMerge [e] n e.tree
  | pass (l l1 l2 : List PqEntry) (n : BitVec 10) (a b : PqEntry) (t : Tree) :
      TakesLeast l a l1 → TakesLeast l1 b l2 →
      GreedyMerge (l2 ++ [⟨a.tree.weight + b.tree.weight, n,
        .internal (a.tree.weight + b.tree.weight) a.tree b.tree⟩]) (n + 1#10) t →
      GreedyMerge l n t

/-! ## DECODE -/

/-- R77, R202: DECODE's transactions for code words, each with its symbol: the reads of its bits, then the write. -/
def decodeTxns (xs : List (List Bool × Sym)) : List Txn :=
  xs.flatMap fun x => readBits x.1 ++ [.snkWrite 8 x.2.toNat true]

/-- R119: the literals of symbols, eight bits each. -/
def literalsOf (xs : List (List Bool × Sym)) : List Bool := xs.flatMap fun x => bitsOf 8 x.2.toNat

/-- The bits of code words. -/
def codeBits (xs : List (List Bool × Sym)) : List Bool := xs.flatMap fun x => x.1

/-- Code words of a tree with the literals they lead to. -/
def CodeWords (t : Tree) (xs : List (List Bool × Sym)) : Prop :=
  ∀ x ∈ xs, t.leafAt x.1 = some x.2 ∧ x.2 ≠ Config.eos

/-! ## The machine -/

/-- R240: the KIND and SUB values that occur. -/
def legalCause (kind : BitVec 3) (sub : BitVec 4) : Bool :=
  match kind.toNat with
  | 1 => decide (sub.toNat ≤ 1)
  | 2 => decide (sub.toNat ≤ 2)
  | 3 => sub == 0#4
  | 4 => decide (sub.toNat ≤ 4)
  | 5 => decide (sub.toNat ≤ 1)
  | _ => false

/-- The invariant of the machine: PHASE is a code that is produced (R104); CAUSE and INFO are 0 outside FAULT (R35, R36)
and a cause of the table of R240 in it; the streams have their form (R40, R65); a command runs on two streams with an open
sink (R64, R83); each operation finds the stores the operations before it leave (R44): BUILD the end-of-stream count
(R141), GENCODES, WRMAGIC and WRHDR a tree of table symbols (R24 (e)), DECODE a tree. -/
structure Inv (s : State) : Prop where
  phase_produced : s.phase ≠ Phase.phaseC ∧ s.phase ≠ Phase.phaseD
  no_cause : s.phase ≠ Phase.fault → s.causeKind = 0#3 ∧ s.causeSub = 0#4 ∧ s.info = 0#32
  legal_cause : s.phase = Phase.fault → legalCause s.causeKind s.causeSub = true
  memory : s.mem.wf = true
  busy_streams : s.busy = true → s.mem.shared = false ∧ s.mem.snk.closed = false
  build_counts : s.phase = Phase.build → s.work.freq[eosIndex] = 1
  built_tree : s.phase = Phase.gencodes ∨ s.phase = Phase.wrmagic ∨ s.phase = Phase.wrhdr →
    ∃ t, s.work.tree = some t ∧ t.symsInTable = true
  decode_tree : s.phase = Phase.decode → ∃ t, s.work.tree = some t

/-- R31, R224, R225, R227: the operation that follows when the one PHASE names completes; a resting phase stays. -/
def successor (p : BitVec 4) : BitVec 4 :=
  match p.toNat with
  | 1 => Phase.build
  | 2 => Phase.gencodes
  | 3 => Phase.wrmagic
  | 4 => Phase.wrhdr
  | 5 => Phase.rewind
  | 6 => Phase.encode
  | 7 => Phase.close
  | 8 => Phase.done
  | 9 => Phase.rdhdr
  | 10 => Phase.decode
  | 11 => Phase.close
  | _ => p

/-- R240: the KIND and SUB values an instruction can raise. -/
def causesOf : Instr → List (BitVec 3 × BitVec 4)
  | .count => [(4#3, 0#4), (5#3, 0#4)]
  | .wrmagic => [(4#3, 2#4)]
  | .wrhdr => [(4#3, 2#4)]
  | .rewind => [(4#3, 1#4)]
  | .encode => [(4#3, 0#4), (4#3, 2#4), (4#3, 4#4)]
  | .close => [(4#3, 3#4)]
  | .chkmagic => [(1#3, 0#4), (1#3, 1#4), (4#3, 0#4)]
  | .rdhdr => [(2#3, 0#4), (2#3, 1#4), (4#3, 0#4), (5#3, 1#4)]
  | .decode => [(2#3, 2#4), (3#3, 0#4), (4#3, 0#4), (4#3, 2#4)]
  | .wireMagic => [(1#3, 0#4), (1#3, 1#4), (4#3, 0#4), (4#3, 2#4)]
  | .wireNodeInternal => [(2#3, 0#4), (4#3, 0#4), (4#3, 2#4), (5#3, 1#4)]
  | .wireNodeLeaf _ => [(2#3, 0#4), (2#3, 1#4), (4#3, 0#4), (4#3, 2#4), (5#3, 1#4)]
  | .wireCode _ => [(2#3, 2#4), (3#3, 0#4), (4#3, 0#4), (4#3, 2#4), (4#3, 4#4)]
  | .wireEosCode => [(2#3, 2#4), (3#3, 0#4), (4#3, 0#4), (4#3, 2#4)]
  | .wirePadding => [(4#3, 3#4)]
  | .srcRead _ => [(4#3, 0#4)]
  | .srcReset => [(4#3, 1#4)]
  | .snkWrite _ _ => [(4#3, 2#4)]
  | .snkClose => [(4#3, 3#4)]
  | .cmdNop | .compress | .decompress | .cmdReserved | .idle | .build | .gencodes | .phaseC | .phaseD | .done
  | .fault | .pqInsert _ | .pqRemoveMin => []

/-- R69: the instructions that make no port transaction. -/
def usesNoPort : Instr → Bool
  | .cmdNop | .compress | .decompress | .cmdReserved | .idle | .build | .gencodes | .phaseC | .phaseD | .done | .fault
  | .pqInsert _ | .pqRemoveMin => true
  | .count | .wrmagic | .wrhdr | .rewind | .encode | .close | .chkmagic | .rdhdr | .decode | .wireMagic
  | .wireNodeInternal | .wireNodeLeaf _ | .wireCode _ | .wireEosCode | .wirePadding | .srcRead _ | .srcReset
  | .snkWrite _ _ | .snkClose => false

/-- R69: the instructions that reach the source alone. -/
def usesSourceOnly : Instr → Bool
  | .count | .rewind | .chkmagic | .rdhdr | .srcRead _ | .srcReset => true
  | .cmdNop | .compress | .decompress | .cmdReserved | .idle | .build | .gencodes | .phaseC | .phaseD | .done | .fault
  | .pqInsert _ | .pqRemoveMin | .wrmagic | .wrhdr | .encode | .close | .decode | .wireMagic | .wireNodeInternal
  | .wireNodeLeaf _ | .wireCode _ | .wireEosCode | .wirePadding | .snkWrite _ _ | .snkClose => false

/-- R69: the instructions that reach the sink alone. -/
def usesSinkOnly : Instr → Bool
  | .wrmagic | .wrhdr | .close | .snkWrite _ _ | .snkClose => true
  | .cmdNop | .compress | .decompress | .cmdReserved | .idle | .build | .gencodes | .phaseC | .phaseD | .done | .fault
  | .pqInsert _ | .pqRemoveMin | .count | .rewind | .chkmagic | .rdhdr | .encode | .decode | .wireMagic
  | .wireNodeInternal | .wireNodeLeaf _ | .wireCode _ | .wireEosCode | .wirePadding | .srcRead _ | .srcReset => false

/-- The answers an operation has used, begun in `s` and ended in `t`. -/
def answersUsed (s t : State) : List PortAnswer := s.answers.take (s.answers.length - t.answers.length)

/-- The sub-cause a failed transaction is recorded with (R240, KIND 4). -/
def failedSub : Txn → Option (BitVec 4)
  | .srcRead _ .ioFail => some 0#4
  | .srcReset false => some 1#4
  | .snkWrite _ _ false => some 2#4
  | .snkClose false => some 3#4
  | _ => none

/-- Everything but the working stores and the number of the next free value is the same (R44). -/
def SameButStores (s t : State) : Prop :=
  t.phase = s.phase ∧ t.causeKind = s.causeKind ∧ t.causeSub = s.causeSub ∧ t.info = s.info ∧ t.mem = s.mem ∧
    t.cfg = s.cfg ∧ t.answers = s.answers ∧ t.inputs = s.inputs ∧ t.trace = s.trace

/-- Two outcomes are the same but for the stores of the next state. -/
def SameOutcome : Host.Outcome State Fault Refusal → Host.Outcome State Fault Refusal → Prop
  | .next s, .next t => SameButStores s t
  | .fault e, .fault f => e = f
  | .refused q, .refused r => q = r
  | _, _ => False

/-- R272: a command can start: the block rests, and two streams are attached, the sink empty and open. -/
def Startable (s : State) : Prop :=
  s.busy = false ∧ s.mem.shared = false ∧ s.mem.snk = ⟨[], false⟩

/-- The refusals that a host brings about by breaking its duties (R39, R83, R276). -/
def hostBreach (r : Refusal) : Prop :=
  r = .sharedStream ∨ r = .sinkNotFresh ∨ r = .sinkAttachedWhileBusy ∨ r = .offsetBetweenRegisters

end Safety

end Sys2Proof
end

