-- ==== Sys2Proof/Certificates/Slice0/Obligations.lean ====
section
/-! DEFINITION. The statements for the provers, each from the numbered rules of spec/. `State.ran` of Safety.lean is the
state after port transactions that were answered normally, `PortsWork` says that all of them are and that two streams stand at
the ports, `NextAnswer` how the next one is answered on two streams. On one shared stream none has a meaning:
BrokenPreconditionsAreRefused. -/

section

open Sys2Proof Sys2Proof.Machine Sys2Proof.Safety

/-! ## Encodings -/

/-- Words written out from 30_encoding.md and the vectors H1, H4, E4 of 95_test_vectors.md decode to what they stand for. -/
def Obligations.SampleWordsDecode : Prop :=
  decodeTableWord 32 0x00000001 = some .compress ∧
  decodeTableWord 32 0xFFFFFFFE = some .decompress ∧
  decodeTableWord 4 0x1 = some .count ∧
  decodeTableWord 4 0x2 = some .build ∧
  decodeTableWord 4 0x7 = some .encode ∧
  decodeTableWord 4 0xA = some .rdhdr ∧
  decodeTableWord 4 0xF = some .fault ∧
  decodeTableWord 1 0 = some .wireNodeInternal ∧
  decodeTableWord 10 0b1100000000 = some (.wireNodeLeaf 256#9) ∧
  decodeTableWord 10 0b1001000001 = some (.wireNodeLeaf 65#9) ∧
  decode ⟨0xFACE8201#32, none, 0⟩ .wireMagic (bitsOf 32 0xFACE8201) = .ok (.wireMagic, []) ∧
  decode ⟨0#32, some (.internal 5 (.internal 2 (.leaf 66#9 1) (.leaf 256#9 1)) (.leaf 65#9 3)), 0⟩ .wireBody
    [true, false, false, false, true] = .ok (.wireCode 65#8, [false, false, false, true]) ∧
  decode ⟨0#32, some (.internal 5 (.internal 2 (.leaf 66#9 1) (.leaf 256#9 1)) (.leaf 65#9 3)), 0⟩ .wireBody
    [false, true, false] = .ok (.wireEosCode, [false]) ∧
  decode ⟨0#32, none, 71⟩ .wirePad [false] = .ok (.wirePadding, [])

/-- R101: bits 31:2 of a CMD word are ignored, bits 1:0 are OP. -/
def Obligations.CommandWordReadsOnlyItsLowBits : Prop :=
  ∀ (c : Ctx) (hi : BitVec 30) (rest : List Bool),
    decode c .cmd (bitsOf 32 (hi ++ 0#2).toNat ++ rest) = .ok (.cmdNop, rest) ∧
    decode c .cmd (bitsOf 32 (hi ++ 1#2).toNat ++ rest) = .ok (.compress, rest) ∧
    decode c .cmd (bitsOf 32 (hi ++ 2#2).toNat ++ rest) = .ok (.decompress, rest) ∧
    decode c .cmd (bitsOf 32 (hi ++ 3#2).toNat ++ rest) = .ok (.cmdReserved, rest)

/-- R105, R114: decoding what an instruction was encoded as gives it back, and nothing more is taken; for every
well-formed instruction that has a format, in every context in which it has an encoding. Where several leaves of the tree in
force carry a symbol, which of them it is encoded by is the model's choice (log entry 36). -/
def Obligations.DecodeInvertsEncode : Prop :=
  ∀ (c : Ctx) (i : Instr) (f : Format) (bits rest : List Bool),
    i.WellFormed = true → i.format = some f → encode c i = some bits → decode c f (bits ++ rest) = .ok (i, rest)

/-- R104, R106, R108, R109, R113: in the formats where each word has one meaning, bits that decode are the encoding of
what they decode to. -/
def Obligations.DecodedBitsAreTheEncoding : Prop :=
  ∀ (c : Ctx) (f : Format) (bits rest : List Bool) (i : Instr),
    f ≠ .cmd → f ≠ .wireBody → decode c f bits = .ok (i, rest) →
      i.format = some f ∧ ∃ pre, encode c i = some pre ∧ bits = pre ++ rest

/-- R114 (d), R115, R119: a code word ends at the first leaf of its walk; its symbol's low eight bits are the literal. -/
def Obligations.CodeWordsEndAtTheirLeaf : Prop :=
  ∀ (c : Ctx) (w : Nat) (l r : Tree) (p rest : List Bool) (x : Sym),
    c.tree = some (.internal w l r) → (Tree.internal w l r).leafAt p = some x →
      decode c .wireBody (p ++ rest) =
        .ok (if x = Config.eos then .wireEosCode else .wireCode (x.setWidth 8), rest)

/-! ## Stepping, the host and its registers -/

/-- R31, R37, R226: a step with no host action, or with `tick`, is `exec` of the instruction PHASE encodes; a step with a
CMD write is `exec` of the command the word encodes. Around `exec` the step only uses up the host's action. -/
def Obligations.StepRunsTheInstruction : Prop :=
  ∀ (s : State) (v : Word) (rest : List HostEvent),
    (s.inputs = [] → step s = exec (decodePhase s.phase) s) ∧
    (s.inputs = .tick :: rest → step s = exec (decodePhase s.phase) (s.setInputs rest)) ∧
    (s.inputs = .write 0 v :: rest → step s = exec (decodeCmd v) (s.setInputs rest))

/-- R38, R39, whole, with R34 to R37: what a host read gives (STATUS and CAUSE bit by bit, INFO, MAGICREG, CMD and the
reserved offsets), what the registers read as after reset, and that a write to any register but CMD, and to any offset from
0x14 up, is ignored. -/
def Obligations.RegisterMap : Prop :=
  (∀ s : State,
    s.readOffset 0x00 = some 0#32 ∧
    s.readOffset 0x04 = some s.status ∧
    (s.status.getLsbD 0 = true ↔ s.phase ≠ Phase.idle ∧ s.phase ≠ Phase.done ∧ s.phase ≠ Phase.fault) ∧
    (s.status.getLsbD 1 = true ↔ s.phase = Phase.done) ∧
    (s.status.getLsbD 2 = true ↔ s.phase = Phase.fault) ∧
    s.status.getLsbD 3 = false ∧ s.status.extractLsb' 4 4 = s.phase ∧ s.status.extractLsb' 8 24 = 0#24 ∧
    s.readOffset 0x08 = some s.cause ∧
    s.cause.extractLsb' 0 3 = s.causeKind ∧ s.cause.getLsbD 3 = false ∧ s.cause.extractLsb' 4 4 = s.causeSub ∧
    s.cause.extractLsb' 8 24 = 0#24 ∧
    s.readOffset 0x0C = some s.info ∧
    s.readOffset 0x10 = some s.cfg.magic ∧
    (∀ n, 0x14 ≤ n → s.readOffset n = some 0#32)) ∧
  (State.reset.readOffset 0x00 = some 0#32 ∧ State.reset.readOffset 0x04 = some 0#32 ∧
    State.reset.readOffset 0x08 = some 0#32 ∧ State.reset.readOffset 0x0C = some 0#32 ∧
    State.reset.readOffset 0x10 = some State.reset.cfg.magic) ∧
  ∀ (s : State) (n : Nat) (v : Word) (rest : List HostEvent),
    s.inputs = .write n v :: rest → (n = 0x04 ∨ n = 0x08 ∨ n = 0x0C ∨ n = 0x10 ∨ 0x14 ≤ n) →
      step s = .next (s.setInputs rest)

/-- R103: a write of OP = 11 has no effect, exactly as OP = 00: no state changes, no fault is recorded. -/
def Obligations.ReservedCommandHasNoEffect : Prop :=
  ∀ (s : State) (v : Word) (rest : List HostEvent),
    exec .cmdReserved s = .next s ∧ exec .cmdReserved s = exec .cmdNop s ∧
    (s.inputs = .write 0 v :: rest → v.extractLsb' 0 2 = 3#2 → step s = .next (s.setInputs rest))

/-- R226: the whole rule, for the CMD write as the host makes it. The streams must be as R272 and R276 ask. -/
def Obligations.CommandAcceptance : Prop :=
  ∀ (s : State) (v : Word) (rest : List HostEvent), s.inputs = .write 0 v :: rest →
    (s.busy = true → step s = .next (s.setInputs rest)) ∧
    (v.extractLsb' 0 2 = 0#2 ∨ v.extractLsb' 0 2 = 3#2 → step s = .next (s.setInputs rest)) ∧
    (Startable s → v.extractLsb' 0 2 = 1#2 ∨ v.extractLsb' 0 2 = 2#2 →
      ∃ t, step s = .next t ∧
        t = { s with
          inputs := rest, causeKind := 0#3, causeSub := 0#4, info := 0#32,
          phase := if v.extractLsb' 0 2 = 1#2 then Phase.count else Phase.chkmagic } ∧
        t.status.getLsbD 0 = true ∧ t.status.getLsbD 1 = false ∧ t.status.getLsbD 2 = false)

/-- R102, R226: the commands as instructions: where each completes, and what the next state is. -/
def Obligations.CommandsComplete : Prop :=
  ∀ s : State,
    exec .cmdNop s = .next s ∧
    (Startable s →
      exec .compress s =
        .next { s with causeKind := 0#3, causeSub := 0#4, info := 0#32, phase := Phase.count } ∧
      exec .decompress s =
        .next { s with causeKind := 0#3, causeSub := 0#4, info := 0#32, phase := Phase.chkmagic }) ∧
    (s.busy = true → exec .compress s = .next s ∧ exec .decompress s = .next s)

/-- R18: where a precondition is broken the model gives no meaning, by name. R83, R276, D16: a command on one shared stream;
any port transaction on one, so that no instruction that has a next state there makes any; a command on a sink that is not
empty and open (log entry 23), such as a stream with bits that stood at both ports before another source was attached (log
entry 33). The rest are the model's own choices: an offset between registers (log entry 22), a write to a closed sink or of a
width the port lacks (log entries 24, 26), the queue empty where a minimum is taken (log entry 17), no tree where an operation
needs one (log entry 18). -/
def Obligations.BrokenPreconditionsAreRefused : Prop :=
  ∀ s : State,
    (s.busy = false → s.mem.shared = true →
      exec .compress s = .refused .sharedStream ∧ exec .decompress s = .refused .sharedStream) ∧
    (s.busy = false → s.mem.shared = false → s.mem.snk.bits ≠ [] ∨ s.mem.snk.closed = true →
      exec .compress s = .refused .sinkNotFresh ∧ exec .decompress s = .refused .sinkNotFresh) ∧
    (s.mem.shared = true →
      (∀ n, exec (.srcRead n) s = .refused .sharedStream) ∧ exec .srcReset s = .refused .sharedStream ∧
      (∀ n v, writeWidthOk n = true → exec (.snkWrite n v) s = .refused .sharedStream) ∧
      exec .snkClose s = .refused .sharedStream ∧ exec .count s = .refused .sharedStream ∧
      exec .wrmagic s = .refused .sharedStream ∧ exec .rewind s = .refused .sharedStream ∧
      exec .encode s = .refused .sharedStream ∧ exec .close s = .refused .sharedStream ∧
      exec .chkmagic s = .refused .sharedStream ∧ exec .rdhdr s = .refused .sharedStream ∧
      ∀ (i : Instr) (t : State), exec i s = .next t → t.mem = s.mem ∧ t.trace = s.trace ∧ t.answers = s.answers) ∧
    (∀ (n : Nat) (v : Word) (rest : List HostEvent), s.inputs = .write n v :: rest → n < 0x14 → n % 4 ≠ 0 →
      step s = .refused .offsetBetweenRegisters) ∧
    (∀ (n : Nat) (v : Word),
      (NextAnswer s .ok → s.mem.snk.closed = true → writeWidthOk n = true →
        exec (.snkWrite n v) s = .refused .sinkClosed) ∧
      (writeWidthOk n = false → exec (.snkWrite n v) s = .refused .widthOutOfRange)) ∧
    (s.work.pq = [] → exec .pqRemoveMin s = .refused .emptyQueue) ∧
    (presentSymbols s.work.freq = [] → exec .build s = .refused .emptyQueue) ∧
    (s.work.tree = none →
      exec .gencodes s = .refused .noTree ∧ exec .wrhdr s = .refused .noTree ∧ exec .decode s = .refused .noTree) ∧
    (∀ (v : Word) (before after : List Bool), s.busy = false → s.mem.src.bits ≠ [] →
      s.inputs = [.attachSnk true, .attachSrc before after, .write 0 v] →
      v.extractLsb' 0 2 = 1#2 ∨ v.extractLsb' 0 2 = 2#2 → core.run 3 s = .refused .sinkNotFresh)

/-- R227, R246, R271: in IDLE, DONE and FAULT the block does nothing. -/
def Obligations.RestingPhasesWait : Prop :=
  ∀ s : State, exec .idle s = .next s ∧ exec .done s = .next s ∧ exec .fault s = .next s ∧
    (s.inputs = [] → s.busy = false → step s = .next s)

/-- R31, R249: a resting PHASE is left only by a CMD write that starts a command, or by hardware reset. -/
def Obligations.RestingPhaseIsLeftOnlyByCommandOrReset : Prop :=
  ∀ (s t : State), s.busy = false → step s = .next t → t.phase ≠ s.phase →
    ∃ rest, s.inputs = .reset :: rest ∨
      ∃ v : Word, s.inputs = .write 0 v :: rest ∧ (v.extractLsb' 0 2 = 1#2 ∨ v.extractLsb' 0 2 = 2#2)

/-- R104: the codes 0xC and 0xD are never produced; they are given no operation, and no instruction makes PHASE one.
The refusal is the model's form of "never produced" (log entry 19). -/
def Obligations.ReservedPhaseCodesStop : Prop :=
  (∀ s : State, exec .phaseC s = .refused .phaseNeverProduced ∧ exec .phaseD s = .refused .phaseNeverProduced) ∧
  ∀ (i : Instr) (s t : State), exec i s = .next t →
    t.phase = Phase.phaseC ∨ t.phase = Phase.phaseD → t.phase = s.phase

/-- R43: the values the spec gives for reset. -/
def Obligations.ResetValues : Prop :=
  State.reset.phase = Phase.idle ∧ State.reset.status = 0#32 ∧ State.reset.cause = 0#32 ∧ State.reset.info = 0#32 ∧
    State.reset.readReg .cmd = 0#32 ∧ State.reset.readReg .magicReg = State.reset.cfg.magic

/-- R270: hardware reset between two operations: IDLE, no cause, and the streams, the transactions made and the configuration
as they were. The second clause, a reset while a port transaction is pending, is the model's choice (log entry 7): that
transaction has no effect and is not recorded. Nothing is said of the stores (log entry 9). -/
def Obligations.HardwareReset : Prop :=
  (∀ (s : State) (rest : List HostEvent), s.inputs = .reset :: rest →
    ∃ t, step s = .next t ∧ t.phase = Phase.idle ∧ t.status = 0#32 ∧ t.cause = 0#32 ∧ t.info = 0#32 ∧
      t.mem = s.mem ∧ t.trace = s.trace ∧ t.cfg = s.cfg ∧ t.answers = s.answers ∧ t.inputs = rest) ∧
  (∀ (s : State) (n : Nat) (v : Word), NextAnswer s .reset → writeWidthOk n = true →
    ∃ t, exec (.srcRead n) s = .next t ∧ exec .srcReset s = .next t ∧ exec (.snkWrite n v) s = .next t ∧
      exec .snkClose s = .next t ∧ t.phase = Phase.idle ∧ t.status = 0#32 ∧ t.cause = 0#32 ∧ t.info = 0#32 ∧
      t.mem = s.mem ∧ t.trace = s.trace ∧ t.cfg = s.cfg)

/-! ## Port transactions -/

/-- R61, R62, R71: a read gives the next N bits as a number, the first bit the most significant, and advances by N; where
fewer are left it answers EOD and the position stays. -/
def Obligations.SourceRead : Prop :=
  ∀ (s : State) (n : Nat), NextAnswer s .ok →
    (s.mem.src.bits.length - s.mem.src.pos < n →
      exec (.srcRead n) s = .next (s.ran s.work s.mem.src.pos [] [.srcRead n .eod])) ∧
    (∀ bits post : List Bool, s.mem.src.rest = bits ++ post → bits.length = n →
      exec (.srcRead n) s =
        .next (s.ran s.work (s.mem.src.pos + n) [] [.srcRead n (.value (valOf bits))]) ∧ valOf bits < 2 ^ n)

/-- R63: SrcReset sets the position to 0 and changes nothing else. -/
def Obligations.SourceReset : Prop :=
  ∀ s : State, NextAnswer s .ok → exec .srcReset s = .next (s.ran s.work 0 [] [.srcReset true])

/-- R64, R66: SnkWrite appends the low N bits, the most significant first; what is appended depends on those bits alone. -/
def Obligations.SinkWrite : Prop :=
  ∀ (s : State) (n : Nat) (v : Word), NextAnswer s .ok → 1 ≤ n → n ≤ 32 → s.mem.snk.closed = false →
    ∃ bits : List Bool, bits.length = n ∧ valOf bits = v.toNat % 2 ^ n ∧
      exec (.snkWrite n v) s = .next (s.ran s.work s.mem.src.pos bits [.snkWrite n v.toNat true])

/-- R65: SnkClose appends zero bits up to a multiple of eight, fewer than eight of them, and closes; on a
closed sink too (log entry 27). -/
def Obligations.SinkClose : Prop :=
  ∀ s : State, NextAnswer s .ok →
    ∃ p t, p < 8 ∧ (s.mem.snk.bits.length + p) % 8 = 0 ∧
      t = s.ran s.work s.mem.src.pos (List.replicate p false) [.snkClose true] ∧
      exec .snkClose s = .next { t with mem := { t.mem with snk := { t.mem.snk with closed := true } } }

/-- R81, R244, R247, R270: the environment's answers are used in order; every answer used but the last was normal; where
the last one was `io_fail` the instruction ended in IoFault with the sub-cause of the transaction that failed, and where
it was a reset, in the state after reset. -/
def Obligations.AbnormalAnswersEndTheInstruction : Prop :=
  ∀ (i : Instr) (s t : State), exec i s = .next t →
    t.answers = s.answers.drop (answersUsed s t).length ∧
    (∀ a ∈ (answersUsed s t).dropLast, a = .ok) ∧
    (answersUsed s t).getLast? ≠ some .never ∧
    ((answersUsed s t).getLast? = some .ioFail →
      t.phase = Phase.fault ∧ t.causeKind = Kind.ioFault ∧ t.info = 0#32 ∧
        ∃ x l, t.trace = x :: l ∧ failedSub x = some t.causeSub) ∧
    ((answersUsed s t).getLast? = some .reset → t.phase = Phase.idle ∧ t.cause = 0#32 ∧ t.info = 0#32)

/-- R82, R283: the machine stops only where a port transaction never completes, and there it does. The stop is the model's
form of a hung command (log entry 6). -/
def Obligations.OnlyAHungPortStops : Prop :=
  (∀ (i : Instr) (s : State) (e : Fault), exec i s = .fault e → PortAnswer.never ∈ s.answers) ∧
  ∀ (s : State) (n : Nat) (v : Word), NextAnswer s .never → writeWidthOk n = true →
    exec (.srcRead n) s = .fault .portNeverAnswers ∧ exec .srcReset s = .fault .portNeverAnswers ∧
    exec (.snkWrite n v) s = .fault .portNeverAnswers ∧ exec .snkClose s = .fault .portNeverAnswers

/-! ## COUNT -/

/-- R140, R141, R142: COUNT on a source that fits: the counters are the tally of the bytes left, `n + 1` reads are made,
the last answering EOD, and BUILD is next. -/
def Obligations.CountTallies : Prop :=
  ∀ s : State, PortsWork s → CountFits s.cfg (bytesLeft s).length →
    exec .count s =
      .next ((s.ran { s.work with freq := tally (bytesLeft s), nbytes := (bytesLeft s).length }
        (s.mem.src.pos + 8 * (bytesLeft s).length) []
        (readBytes (bytesLeft s) ++ [.srcRead 8 .eod])).setPhase Phase.build)

/-- R144, whole: what holds whenever COUNT completes without fault, whatever the ports did. -/
def Obligations.CountInvariants : Prop :=
  ∀ s t : State, exec .count s = .next t → t.phase = Phase.build →
    t.work.freq[(256 : Fin 257)] = 1 ∧
    t.work.nbytes = (bytesLeft s).length ∧
    ((t.work.freq.toList.take 256).sum = t.work.nbytes) ∧
    ∀ i : Fin 257, 0 < t.work.freq[i] ↔ i.val = 256 ∨ ∃ b ∈ bytesLeft s, b.toNat = i.val

/-- R143: on reading byte number 2^CNT_W - 1 COUNT raises CapacityFault SUB 0, and nothing more is read. -/
def Obligations.CountCapacity : Prop :=
  ∀ (s : State) (w : Nat) (bs : List Byte) (b : Byte) (more : List Byte), PortsWork s →
    s.cfg.cntW = some w → bytesLeft s = bs ++ b :: more → bs.length + 2 = 2 ^ w →
      exec .count s =
        .next ((s.ran s.work (s.mem.src.pos + 8 * (bs.length + 1)) [] (readBytes (bs ++ [b]))).enterFault
          ⟨Kind.capacityFault, 0#4, 0#32⟩)

/-! ## The priority queue and BUILD -/

/-- R150: PQ_INSERT adds the tree with its root's weight and the next sequence number, and increments SEQ. Past the
bounds of R13 it is the model's choice that it does so (log entry 35). -/
def Obligations.QueueInsert : Prop :=
  ∀ (s : State) (t : Tree), exec (.pqInsert t) s =
    .next { s with
      work := { s.work with pq := s.work.pq ++ [⟨t.weight, s.work.seq, t⟩], seq := s.work.seq + 1#10 } }

/-- R151, R28: PQ_REMOVE_MIN takes an entry that no other is before, and returns its tree; where the sequence numbers are
unique it is before every other, so there is only one such entry. The latch `ret`, which holds the tree, is the model's own
(log entry 17). -/
def Obligations.QueueRemoveMin : Prop :=
  ∀ s : State, s.work.pq ≠ [] → ∃ e rest, TakesLeast s.work.pq e rest ∧
    exec .pqRemoveMin s = .next { s with work := { s.work with pq := rest, ret := some e.tree } } ∧
    ((s.work.pq.map PqEntry.seq).Nodup →
      ∀ x ∈ rest, e.weight < x.weight ∨ (e.weight = x.weight ∧ e.seq.toNat < x.seq.toNat))

/-- R152 to R154, R156: BUILD, where some counter is positive: the leaves are the symbols with positive counts, each once
and with its count; every internal node weighs as much as its children; the queue ends empty, 2L - 1 nodes are allocated;
GENCODES is next. The latch `ret` is the model's own (log entry 17). -/
def Obligations.BuildMakesATreeOfTheCounts : Prop :=
  ∀ s : State, presentSymbols s.work.freq ≠ [] → ∃ r : Tree,
    exec .build s =
      .next { s with
        phase := Phase.gencodes
        work := { s.work with
          pq := []
          seq := BitVec.ofNat 10 (2 * (presentSymbols s.work.freq).length - 1)
          nnodes := 2 * (presentSymbols s.work.freq).length - 1
          tree := some r
          ret := some r } } ∧
    r.leaves.Perm (presentSymbols s.work.freq) ∧ r.weightsAdd = true ∧
    r.weight = ((presentSymbols s.work.freq).map Prod.snd).sum

/-- R157 with R28, R152, R153: BUILD makes the tree that the merge rules lead to from the leaves in ascending order, and
those rules lead to no other. -/
def Obligations.BuildIsTheGreedyMerge : Prop :=
  ∀ s : State, presentSymbols s.work.freq ≠ [] →
    ∃ t r, exec .build s = .next t ∧ t.work.tree = some r ∧
      GreedyMerge (leafEntries s.work.freq) (BitVec.ofNat 10 (presentSymbols s.work.freq).length) r ∧
      ∀ r', GreedyMerge (leafEntries s.work.freq) (BitVec.ofNat 10 (presentSymbols s.work.freq).length) r' → r' = r

/-- R13: the bounds of a built tree: 257 leaves, 513 nodes, codes of 256 bits, a header of 11L - 1 bits, at most 2826. -/
def Obligations.BuiltTreeBounds : Prop :=
  ∀ s t : State, exec .build s = .next t →
    ∃ r, t.work.tree = some r ∧ r.leaves.length ≤ 257 ∧ r.size = 2 * r.leaves.length - 1 ∧ r.size ≤ 513 ∧
      (encodeTree r).length = 11 * r.leaves.length - 1 ∧ (encodeTree r).length ≤ 2826 ∧
      ∀ x p, r.path x = some p → p.length ≤ 256

/-! ## GENCODES -/

/-- R170, R171: GENCODES records for every symbol of the tree the path to its leaf (to the last one, where a symbol is on
several; on the one there is, where no symbol occurs twice), and marks every other entry invalid. Where the tree has a symbol
CODE has no entry for, what that write leaves is a free value (log entry 18): nothing is said of it. Paths
of more than 256 bits are log entry 37. -/
def Obligations.GencodesRecordsThePaths : Prop :=
  ∀ (s : State) (t : Tree), s.work.tree = some t →
    (∃ c n,
      exec .gencodes s =
        .next { s with
          phase := Phase.wrmagic
          freeIx := n
          work := { s.work with
            path := []
            codeBeyond := c
            code := Vector.ofFn fun i =>
              match t.lastPath (BitVec.ofNat 9 i.val) with
              | some p => ⟨true, p⟩
              | none => ⟨false, s.work.code[i].bits⟩ } } ∧
      (t.symsInTable = true → c = s.work.codeBeyond ∧ n = s.freeIx)) ∧
    (t.syms.Nodup → ∀ x, t.lastPath x = t.path x)

/-- R172, whole, with R30: the code table of a built tree with two or more leaves. -/
def Obligations.CodesAreACompletePrefixCode : Prop :=
  ∀ s t u : State, 2 ≤ (presentSymbols s.work.freq).length → s.work.freq[(256 : Fin 257)] = 1 →
    exec .build s = .next t → exec .gencodes t = .next u →
      (∀ i : Fin 257, u.work.code[i].valid = true ↔ 0 < s.work.freq[i]) ∧
      u.work.code[(256 : Fin 257)].valid = true ∧
      ((List.finRange 257).countP fun i => u.work.code[i].valid) = (presentSymbols s.work.freq).length ∧
      (∀ i : Fin 257, u.work.code[i].valid = true →
        1 ≤ u.work.code[i].bits.length ∧
        u.work.code[i].bits.length ≤ (presentSymbols s.work.freq).length - 1 ∧ u.work.code[i].bits.length ≤ 256) ∧
      (∀ i j : Fin 257, u.work.code[i].valid = true → u.work.code[j].valid = true →
        u.work.code[i].bits <+: u.work.code[j].bits → i = j) ∧
      (∑ i : Fin 257, if u.work.code[i].valid then (1 / 2 : ℚ) ^ u.work.code[i].bits.length else 0) = 1

/-! ## The header -/

/-- R180, R107, R118: WRHDR appends the pre-order header, 11L - 1 bits for L leaves, and REWIND is next. -/
def Obligations.WrhdrWritesTheHeader : Prop :=
  ∀ (s : State) (t : Tree), s.work.tree = some t → PortsWork s → s.mem.snk.closed = false →
    exec .wrhdr s =
      .next ((s.ran s.work s.mem.src.pos (encodeTree t) (headerWrites t)).setPhase Phase.rewind) ∧
    (encodeTree t).length = 11 * t.leaves.length - 1

/-- R184, whole: a header that fits the node store is parsed back to the tree with every weight 0, exactly its bits are
consumed; conversely what was consumed is the header of the tree that was parsed. -/
def Obligations.HeaderRoundTrip : Prop :=
  (∀ (s : State) (t : Tree) (post : List Bool), PortsWork s → NodesFit s.cfg t.size →
    s.mem.src.rest = encodeTree t ++ post →
      exec .rdhdr s =
        .next ((s.ran { s.work with nnodes := t.size, tree := some t.parsed }
          (s.mem.src.pos + (encodeTree t).length) [] (headerReads t)).setPhase Phase.decode)) ∧
  (∀ s u : State, exec .rdhdr s = .next u → u.phase = Phase.decode →
    ∃ t : Tree, u.work.tree = some t ∧ t.parsed = t ∧ s.mem.src.rest = encodeTree t ++ u.mem.src.rest)

/-- R182, whole: a source that ends inside the header, before more node flags than the store holds: CorruptHeaderError at the
read that answered EOD, SUB 0 for a flag and SUB 1 for a symbol, INFO 0; the sink is as it was. -/
def Obligations.TruncatedHeader : Prop :=
  ∀ (s : State) (t : Tree) (lost : List Bool), PortsWork s →
    NodesFit s.cfg (t.flagsWithin s.mem.src.rest.length) → encodeTree t = s.mem.src.rest ++ lost → lost ≠ [] →
      ∃ u, exec .rdhdr s = .next u ∧ u.phase = Phase.fault ∧ u.causeKind = Kind.corruptHeader ∧ u.info = 0#32 ∧
        u.mem.snk = s.mem.snk ∧
        ((u.causeSub = 0#4 ∧ u.mem.src.rest = [] ∧ u.trace.head? = some (.srcRead 1 .eod)) ∨
         (u.causeSub = 1#4 ∧ u.mem.src.rest.length < 9 ∧ u.trace.head? = some (.srcRead 9 .eod)))

/-- R183, R245, R248: a header, whole or cut off, of more nodes than the store holds: CapacityFault SUB 1 on reading the flag
of node number NODE_CAP + 1, whatever that flag is; nothing after it is read. -/
def Obligations.HeaderCapacity : Prop :=
  ∀ (s : State) (t : Tree) (c : Nat) (lost post : List Bool), PortsWork s → s.cfg.nodeCap = some c →
    c < t.flagsWithin s.mem.src.rest.length → s.mem.src.rest ++ lost = encodeTree t ++ post →
      ∃ u reads b, exec .rdhdr s = .next u ∧ u.phase = Phase.fault ∧ u.causeKind = Kind.capacityFault ∧
        u.causeSub = 1#4 ∧ u.info = 0#32 ∧ u.mem.snk = s.mem.snk ∧
        u.trace = .srcRead 1 (.value b) :: (reads.reverse ++ s.trace) ∧
        reads ++ [.srcRead 1 (.value b)] <+: headerReads t ∧
        (reads.countP fun x => x == .srcRead 1 (.value 0) || x == .srcRead 1 (.value 1)) = c

/-! ## Preamble, rewind, close -/

/-- R220, R106, R222: WRMAGIC writes the 32 bits of MAGIC, REWIND sets the position to 0, each in one transaction. -/
def Obligations.WrmagicAndRewindComplete : Prop :=
  ∀ s : State, NextAnswer s .ok →
    (s.mem.snk.closed = false →
      exec .wrmagic s =
        .next ((s.ran s.work s.mem.src.pos (bitsOf 32 s.cfg.magic.toNat)
          [.snkWrite 32 s.cfg.magic.toNat true]).setPhase Phase.wrhdr)) ∧
    exec .rewind s = .next ((s.ran s.work 0 [] [.srcReset true]).setPhase Phase.encode)

/-- R223, R227, R65: CLOSE pads and closes the sink and ends the command: DONE, and CAUSE and INFO are 0. What the working
stores hold then is unspecified (R42): nothing is said of them. That CAUSE and INFO are cleared where they were not 0 is the
model's reading (log entry 28). -/
def Obligations.CloseEndsTheCommand : Prop :=
  ∀ s : State, NextAnswer s .ok →
    ∃ t, exec .close s = .next t ∧ t.phase = Phase.done ∧ t.causeKind = 0#3 ∧ t.causeSub = 0#4 ∧ t.info = 0#32 ∧
      t.mem.snk =
        ⟨s.mem.snk.bits ++ List.replicate (padLength s.mem.snk.bits.length) false, true⟩ ∧
      (s.mem.snk.bits.length + padLength s.mem.snk.bits.length) % 8 = 0 ∧ padLength s.mem.snk.bits.length < 8 ∧
      t.mem.src = s.mem.src ∧ t.cfg = s.cfg ∧ t.inputs = s.inputs ∧ t.answers = s.answers.tail ∧
      t.trace = .snkClose true :: s.trace

/-- R221, whole, with R241: CHKMAGIC: one read of 32 bits and nothing more; MAGIC passes, another word is FormatError SUB 0
with INFO the word, fewer than 32 bits are FormatError SUB 1, a failed read is IoFault SUB 0. -/
def Obligations.ChkmagicCases : Prop :=
  ∀ s : State,
    (NextAnswer s .ok →
      (s.mem.src.rest.length < 32 →
        exec .chkmagic s =
          .next ((s.ran s.work s.mem.src.pos [] [.srcRead 32 .eod]).enterFault ⟨Kind.formatError, 1#4, 0#32⟩)) ∧
      ∀ (m : Word) (post : List Bool), s.mem.src.rest = bitsOf 32 m.toNat ++ post →
        (m = s.cfg.magic →
          exec .chkmagic s =
            .next ((s.ran s.work (s.mem.src.pos + 32) [] [.srcRead 32 (.value m.toNat)]).setPhase Phase.rdhdr)) ∧
        (m ≠ s.cfg.magic →
          exec .chkmagic s =
            .next ((s.ran s.work (s.mem.src.pos + 32) [] [.srcRead 32 (.value m.toNat)]).enterFault
              ⟨Kind.formatError, 0#4, m⟩))) ∧
    (NextAnswer s .ioFail →
      exec .chkmagic s =
        .next ((s.ran s.work s.mem.src.pos [] [.srcRead 32 .ioFail]).enterFault ⟨Kind.ioFault, 0#4, 0#32⟩))

/-! ## ENCODE and DECODE -/

/-- R200, R77, R112: ENCODE appends the codes of the bytes and then the terminator, reading a byte and writing its code in
turn. From a position other than 0 it is the model's choice that it runs (log entry 34). -/
def Obligations.EncodeWritesTheBody : Prop :=
  ∀ s : State, PortsWork s → s.mem.snk.closed = false →
    (∀ b ∈ bytesLeft s, (codeOf s.work.code b).valid = true) →
      exec .encode s =
        .next ((s.ran s.work (s.mem.src.pos + 8 * (bytesLeft s).length)
          (codesOf s.work.code (bytesLeft s) ++ s.work.code[(256 : Fin 257)].bits)
          (encodeTxns s.work.code (bytesLeft s) ++ .srcRead 8 .eod ::
            putBits s.work.code[(256 : Fin 257)].bits)).setPhase Phase.close)

/-- R201: a byte with no valid code is IoFault SUB 4, raised before anything is written for it. From a position other than 0
it is the model's choice that ENCODE runs (log entry 34). -/
def Obligations.EncodeMissingCode : Prop :=
  ∀ (s : State) (bs : List Byte) (b : Byte) (more : List Byte), PortsWork s → s.mem.snk.closed = false →
    bytesLeft s = bs ++ b :: more → (∀ x ∈ bs, (codeOf s.work.code x).valid = true) →
    (codeOf s.work.code b).valid = false →
      exec .encode s =
        .next ((s.ran s.work (s.mem.src.pos + 8 * (bs.length + 1)) (codesOf s.work.code bs)
          (encodeTxns s.work.code bs ++ [.srcRead 8 (.value b.toNat)])).enterFault ⟨Kind.ioFault, 4#4, 0#32⟩)

/-- R203, whole: a root that is a leaf is tested before any bit is read. -/
def Obligations.DecodeLeafRoot : Prop :=
  ∀ (s : State) (x : Sym) (w : Nat), s.work.tree = some (.leaf x w) →
    (x = 256#9 → exec .decode s = .next { s with phase := Phase.close }) ∧
    (x ≠ 256#9 → exec .decode s = .next (s.enterFault ⟨Kind.corruptHeader, 2#4, x.setWidth 32⟩))

/-- R202, R205, R206: DECODE on code words of literals and then one that leads to an EOS leaf, whatever follows and whatever
the tree (symbols twice, symbols above 256): the low eight bits of each symbol are written, and nothing after the last code
word is read. -/
def Obligations.DecodeFollowsTheWalk : Prop :=
  ∀ (s : State) (w : Nat) (l r : Tree) (xs : List (List Bool × Sym)) (p post : List Bool), PortsWork s →
    s.mem.snk.closed = false → s.work.tree = some (.internal w l r) → CodeWords (.internal w l r) xs →
    (Tree.internal w l r).leafAt p = some Config.eos → s.mem.src.rest = codeBits xs ++ p ++ post →
      ∃ c, exec .decode s =
        .next ((s.ran { s.work with cur := c } (s.mem.src.pos + (codeBits xs).length + p.length) (literalsOf xs)
          (decodeTxns xs ++ readBits p)).setPhase Phase.close)

/-- R204, whole: bits that end before an EOS leaf: TruncatedStreamError; the literals before are on the sink, which stays
open. -/
def Obligations.DecodeTruncated : Prop :=
  ∀ (s : State) (w : Nat) (l r : Tree) (xs : List (List Bool × Sym)) (p : List Bool), PortsWork s →
    s.mem.snk.closed = false → s.work.tree = some (.internal w l r) → CodeWords (.internal w l r) xs →
    (Tree.internal w l r).insideAt p = true → s.mem.src.rest = codeBits xs ++ p →
      exec .decode s =
        .next ((s.ran s.work (s.mem.src.pos + (codeBits xs).length + p.length) (literalsOf xs)
          (decodeTxns xs ++ readBits p ++ [.srcRead 1 .eod])).enterFault ⟨Kind.truncatedStream, 0#4, 0#32⟩)

/-- R208, whole: decode inverts encode, for every tree with two or more leaves, distinct symbols and an EOS leaf; and for
the one leaf EOS and no bytes. -/
def Obligations.DecodeInvertsTheBody : Prop :=
  (∀ (s : State) (w : Nat) (l r : Tree) (bs : List Byte) (post : List Bool), PortsWork s →
    s.mem.snk.closed = false → s.work.tree = some (.internal w l r) → (Tree.internal w l r).syms.Nodup →
    Config.eos ∈ (Tree.internal w l r).syms → (∀ b ∈ bs, b.setWidth 9 ∈ (Tree.internal w l r).syms) →
    s.mem.src.rest = bodyOf (.internal w l r) bs ++ post →
      ∃ c txns, exec .decode s =
        .next ((s.ran { s.work with cur := c } (s.mem.src.pos + (bodyOf (.internal w l r) bs).length)
          (bitsOfBytes bs) txns).setPhase Phase.close)) ∧
  (∀ (s : State) (w : Nat), s.work.tree = some (.leaf Config.eos w) →
    bodyOf (.leaf Config.eos w) [] = [] ∧ exec .decode s = .next (s.setPhase Phase.close))

/-! ## The records of the stream as instructions -/

/-- R106, R108, R109, R111, R112, R113, R201: the records, written; which phase reads and which write is the model's choice
(log entry 16). -/
def Obligations.WireRecordsWritten : Prop :=
  ∀ (s : State) (x : Sym) (b : Byte), PortsWork s → s.mem.snk.closed = false →
    (s.phase ≠ Phase.chkmagic →
      exec .wireMagic s =
        .next (s.ran s.work s.mem.src.pos (bitsOf 32 s.cfg.magic.toNat) [.snkWrite 32 s.cfg.magic.toNat true])) ∧
    (s.phase ≠ Phase.rdhdr →
      exec .wireNodeInternal s = .next (s.ran s.work s.mem.src.pos [false] [.snkWrite 1 0 true]) ∧
      exec (.wireNodeLeaf x) s =
        .next (s.ran s.work s.mem.src.pos (true :: bitsOf 9 x.toNat)
          [.snkWrite 1 1 true, .snkWrite 9 x.toNat true])) ∧
    (s.phase ≠ Phase.decode →
      ((codeOf s.work.code b).valid = true →
        exec (.wireCode b) s =
          .next (s.ran s.work s.mem.src.pos (codeOf s.work.code b).bits (putBits (codeOf s.work.code b).bits))) ∧
      ((codeOf s.work.code b).valid = false →
        exec (.wireCode b) s = .next (s.enterFault ⟨Kind.ioFault, 4#4, 0#32⟩)) ∧
      exec .wireEosCode s =
        .next (s.ran s.work s.mem.src.pos s.work.code[(256 : Fin 257)].bits
          (putBits s.work.code[(256 : Fin 257)].bits)) ∧
      exec .wirePadding s =
        .next (((s.ran s.work s.mem.src.pos [] [.snkClose true])).setSnk
          ⟨s.mem.snk.bits ++ List.replicate (padLength s.mem.snk.bits.length) false, true⟩))

/-- R106, R110, R111, R112, R75: the records, read in the phase that reads them (R69); a literal's code word writes the
literal; the padding is not read. An internal-node flag leaves a frame on STK, whose form is log entry 14; a code word leaves
CUR, at the root after a literal and unsaid after the terminator. Which phase reads is the model's choice (log entry 16), as
is the latch `ret` (log entry 17). -/
def Obligations.WireRecordsRead : Prop :=
  ∀ (s : State) (post : List Bool), PortsWork s → s.mem.snk.closed = false →
    (s.phase = Phase.chkmagic → s.mem.src.rest = bitsOf 32 s.cfg.magic.toNat ++ post →
      exec .wireMagic s =
        .next (s.ran s.work (s.mem.src.pos + 32) [] [.srcRead 32 (.value s.cfg.magic.toNat)])) ∧
    (s.phase = Phase.rdhdr → nodesFull s.cfg s.work.nnodes = false →
      (s.mem.src.rest = false :: post →
        exec .wireNodeInternal s =
          .next (s.ran { s.work with nnodes := s.work.nnodes + 1, stk := ⟨none, .left⟩ :: s.work.stk }
            (s.mem.src.pos + 1) [] [.srcRead 1 (.value 0)])) ∧
      (∀ x : Sym, s.mem.src.rest = true :: bitsOf 9 x.toNat ++ post →
        exec (.wireNodeLeaf x) s =
          .next (s.ran { s.work with nnodes := s.work.nnodes + 1, ret := some (.leaf x 0) }
            (s.mem.src.pos + 10) [] [.srcRead 1 (.value 1), .srcRead 9 (.value x.toNat)]))) ∧
    (s.phase = Phase.decode →
      exec .wirePadding s = .next s ∧
      (∀ w, s.work.tree = some (.leaf Config.eos w) → exec .wireEosCode s = .next s) ∧
      ∀ (w : Nat) (l r : Tree) (p : List Bool), s.work.tree = some (.internal w l r) → s.mem.src.rest = p ++ post →
        (∀ x : Sym, x ≠ Config.eos → (Tree.internal w l r).leafAt p = some x →
          exec (.wireCode (x.setWidth 8)) s =
            .next (s.ran { s.work with cur := some (.internal w l r) } (s.mem.src.pos + p.length) (bitsOf 8 x.toNat)
              (readBits p ++ [.snkWrite 8 x.toNat true]))) ∧
        ((Tree.internal w l r).leafAt p = some Config.eos →
          ∃ c, exec .wireEosCode s =
            .next (s.ran { s.work with cur := c } (s.mem.src.pos + p.length) [] (readBits p))))

/-! ## Frames -/

/-- R40, R45, R60, R76: what no instruction changes: the bits of the source, what is on the sink already, a closed sink, the
configuration, the host's actions, the transactions made; and the memory keeps its form. -/
def Obligations.EveryInstructionKeeps : Prop :=
  ∀ (i : Instr) (s t : State), exec i s = .next t →
    t.mem.src.bits = s.mem.src.bits ∧ t.mem.shared = s.mem.shared ∧ s.mem.snk.bits <+: t.mem.snk.bits ∧
    (s.mem.snk.closed = true → t.mem.snk.closed = true) ∧
    (t.mem.snk.closed ≠ s.mem.snk.closed → i = .close ∨ i = .snkClose ∨ i = .wirePadding) ∧
    t.cfg = s.cfg ∧ t.inputs = s.inputs ∧ s.trace <:+ t.trace ∧ (s.mem.wf = true → t.mem.wf = true)

/-- R60, R69: frames of the streams: an instruction that makes no port transaction leaves both streams, the answers and the
trace; one that reaches the source alone leaves the whole sink; one that reaches the sink alone leaves the whole source. -/
def Obligations.StreamFrames : Prop :=
  ∀ (i : Instr) (s t : State), exec i s = .next t →
    (usesNoPort i = true → t.mem = s.mem ∧ t.answers = s.answers ∧ t.trace = s.trace) ∧
    (usesSourceOnly i = true → t.mem.snk = s.mem.snk) ∧
    (usesSinkOnly i = true → t.mem.src = s.mem.src)

/-- R21, R24 (d), R29, R140, R152, R170, R180, R181, R200, R202: frames of the working stores: what each operation writes
when it completes, by name; everything else is as before. `ret` and `codeBeyond` are the model's own (log entries 17, 18). -/
def Obligations.StoreFrames : Prop :=
  ∀ s t : State,
    (exec .count s = .next t → t.phase = Phase.build →
      t.work = { s.work with freq := t.work.freq, nbytes := t.work.nbytes }) ∧
    (exec .build s = .next t →
      t.work = { s.work with
        pq := t.work.pq, seq := t.work.seq, nnodes := t.work.nnodes, tree := t.work.tree, ret := t.work.ret }) ∧
    (exec .gencodes s = .next t →
      t.work = { s.work with code := t.work.code, path := t.work.path, codeBeyond := t.work.codeBeyond }) ∧
    (exec .wrmagic s = .next t → t.phase = Phase.wrhdr → t.work = s.work) ∧
    (exec .wrhdr s = .next t → t.phase = Phase.rewind → t.work = s.work) ∧
    (exec .rewind s = .next t → t.phase = Phase.encode → t.work = s.work) ∧
    (exec .encode s = .next t → t.phase = Phase.close → t.work = s.work) ∧
    (exec .chkmagic s = .next t → t.phase = Phase.rdhdr → t.work = s.work) ∧
    (exec .rdhdr s = .next t → t.phase = Phase.decode →
      t.work = { s.work with nnodes := t.work.nnodes, tree := t.work.tree }) ∧
    (exec .decode s = .next t → t.phase = Phase.close → t.work = { s.work with cur := t.work.cur })

/-- R35, R36: CAUSE and INFO are written only by fault entry, and cleared only by command acceptance, by completion (log
entry 28) and by reset. -/
def Obligations.CauseFrame : Prop :=
  ∀ (i : Instr) (s t : State), exec i s = .next t → t.phase ≠ Phase.fault →
    (t.causeKind = s.causeKind ∧ t.causeSub = s.causeSub ∧ t.info = s.info) ∨
    (t.causeKind = 0#3 ∧ t.causeSub = 0#4 ∧ t.info = 0#32 ∧
      (i = .compress ∨ i = .decompress ∨ i = .close ∨ t.phase = Phase.idle))

/-- R240, R246: an instruction that enters FAULT records a KIND and SUB that the table gives it; INFO is the word
read for (1, 0), the root's symbol for (2, 2), and 0 for every other. -/
def Obligations.FaultTable : Prop :=
  ∀ (i : Instr) (s t : State), exec i s = .next t → s.phase ≠ Phase.fault → t.phase = Phase.fault →
    (t.causeKind, t.causeSub) ∈ causesOf i ∧
    ((t.causeKind, t.causeSub) = (1#3, 0#4) →
      ∃ v l, t.trace = .srcRead 32 (.value v) :: l ∧ t.info = BitVec.ofNat 32 v) ∧
    ((t.causeKind, t.causeSub) = (2#3, 2#4) → ∃ x w, s.work.tree = some (.leaf x w) ∧ t.info = x.setWidth 32) ∧
    ((t.causeKind, t.causeSub) ≠ (1#3, 0#4) → (t.causeKind, t.causeSub) ≠ (2#3, 2#4) → t.info = 0#32)

/-! ## The whole machine -/

/-- R31, R224, R225, R228: the operation that PHASE names hands over to its fixed successor, or faults, or is cut off by
reset; there is no other way. -/
def Obligations.PhaseSuccessors : Prop :=
  ∀ s t : State, exec (decodePhase s.phase) s = .next t →
    t.phase = successor s.phase ∨ t.phase = Phase.fault ∨
      (t.phase = Phase.idle ∧ (answersUsed s t).getLast? = some .reset)

/-- The invariant of the machine holds after reset (on the streams of log entry 10). -/
def Obligations.InvariantAtReset : Prop := Inv State.reset

/-- R31, R35, R40, R44: every step keeps the invariant, from every state that has it. What a host attachment leaves is log
entries 23 and 33. -/
def Obligations.InvariantKept : Prop :=
  ∀ s t : State, Inv s → step s = .next t → Inv t

/-- R18, R83, R276: from a state that has the invariant a step is refused only where the host broke one of its duties
(log entries 22, 23). -/
def Obligations.OnlyTheHostIsRefused : Prop :=
  ∀ (s : State) (r : Refusal), Inv s → step s = .refused r →
    hostBreach r ∧ ∃ e rest, s.inputs = e :: rest ∧ e ≠ .tick ∧ e ≠ .reset

/-- R283, R284: while ports work every command ends: within eight operations the block rests. An operation is one
step (log entry 4). -/
def Obligations.EveryCommandEnds : Prop :=
  ∀ s : State, Inv s → PortsAnswer s → s.inputs = [] →
    ∃ k t, k ≤ 8 ∧ core.run k s = .next t ∧ t.busy = false

/-- R224: what COMPRESS leaves on the sink for a source of bytes that fits; the trailing bits of a source that is not whole
bytes are dropped (R68). -/
def Obligations.CompressWritesTheStream : Prop :=
  ∀ (s : State) (bs : List Byte) (tail : List Bool), Startable s → PortsWork s → s.inputs = [.write 0 1#32] →
    s.mem.src = ⟨bitsOfBytes bs ++ tail, 0⟩ → tail.length < 8 → CountFits s.cfg bs.length →
      ∃ t r bits, core.run 9 s = .next t ∧
        GreedyMerge (leafEntries (tally bs)) (BitVec.ofNat 10 (presentSymbols (tally bs)).length) r ∧
        bits = bitsOf 32 s.cfg.magic.toNat ++ encodeTree r ++ bodyOf r bs ∧
        t.mem.snk = ⟨bits ++ List.replicate (padLength bits.length) false, true⟩ ∧
        t.phase = Phase.done ∧ t.causeKind = 0#3 ∧ t.causeSub = 0#4 ∧ t.info = 0#32 ∧
        t.mem.src.pos = 8 * bs.length

/-- R229, whole: what COMPRESS wrote, or that followed by anything, DECOMPRESS turns back into the source, bit for bit. -/
def Obligations.RoundTrip : Prop :=
  ∀ (s t s' : State) (bs : List Byte) (tail : List Bool),
    Startable s → PortsWork s → s.inputs = [.write 0 1#32] → s.mem.src = ⟨bitsOfBytes bs, 0⟩ →
    core.run 9 s = .next t → t.phase = Phase.done →
    Startable s' → PortsWork s' → s'.inputs = [.write 0 2#32] → s'.mem.src = ⟨t.mem.snk.bits ++ tail, 0⟩ →
    s'.cfg.magic = s.cfg.magic → NodesFit s'.cfg 513 →
      ∃ t', core.run 5 s' = .next t' ∧ t'.phase = Phase.done ∧ t'.mem.snk = ⟨bitsOfBytes bs, true⟩

/-- R44, R230: two machines that rest and differ only in their working stores stay the same but for those, whatever comes:
no command's result depends on what an earlier one, or reset, left in the stores. -/
def Obligations.StoresDoNotMatter : Prop :=
  ∀ (s t : State) (k : Nat), s.busy = false → SameButStores s t → SameOutcome (core.run k s) (core.run k t)

end
end

