-- ==== Sys2Proof/Laws/Bits.lean ====
section
/-! SUPPORT. Bit groups and bytes: the two directions of R16 and R66 are inverse, and R67's packing. -/

namespace Sys2Proof

@[simp] theorem bitsOf_length (n v : Nat) : (bitsOf n v).length = n := by
  induction n with
  | zero => rfl
  | succ n ih => simp [bitsOf, ih]

theorem valOf_foldl (l : List Bool) (a : Nat) :
    l.foldl (fun acc b => 2 * acc + b.toNat) a = a * 2 ^ l.length + valOf l := by
  induction l generalizing a with
  | nil => simp [valOf]
  | cons b l ih =>
    simp only [List.foldl_cons, List.length_cons, valOf]
    rw [ih, ih (2 * 0 + b.toNat)]
    ring

@[simp] theorem valOf_nil : valOf [] = 0 := rfl

theorem valOf_cons (b : Bool) (l : List Bool) : valOf (b :: l) = b.toNat * 2 ^ l.length + valOf l := by
  have h := valOf_foldl l (2 * 0 + b.toNat)
  simpa [valOf] using h

theorem valOf_lt (l : List Bool) : valOf l < 2 ^ l.length := by
  induction l with
  | nil => simp
  | cons b l ih =>
    rw [valOf_cons, List.length_cons, pow_succ]
    cases b <;> simp <;> omega

/-- Only the low `n` bits of a value are written (R64). -/
theorem valOf_bitsOf (n v : Nat) : valOf (bitsOf n v) = v % 2 ^ n := by
  induction n with
  | zero => simp [bitsOf, Nat.mod_one]
  | succ n ih =>
    rw [bitsOf, valOf_cons, ih, bitsOf_length, Nat.mod_pow_succ, Nat.toNat_testBit]
    ring

theorem bitsOf_mod (n v : Nat) : bitsOf n (v % 2 ^ n) = bitsOf n v := by
  suffices h : ∀ m, m ≤ n → bitsOf m (v % 2 ^ n) = bitsOf m v from h n le_rfl
  intro m hm
  induction m with
  | zero => rfl
  | succ m ih => simp [bitsOf, Nat.testBit_mod_two_pow, ih (by omega), show m < n by omega]

/-- What is written is read back. -/
theorem bitsOf_valOf (l : List Bool) : bitsOf l.length (valOf l) = l := by
  induction l with
  | nil => rfl
  | cons b l ih =>
    have hlt := valOf_lt l
    rw [List.length_cons, bitsOf, valOf_cons]
    congr 1
    · rw [Nat.mul_comm, Nat.testBit_two_pow_mul_add _ hlt]
      cases b <;> simp
    · rw [← bitsOf_mod, Nat.mul_comm, Nat.mul_add_mod, Nat.mod_eq_of_lt hlt, ih]

theorem bitsOf_valOf_of_length {n : Nat} {l : List Bool} (h : l.length = n) : bitsOf n (valOf l) = l := by
  subst h; exact bitsOf_valOf l

theorem bitsOf_one (b : Bool) : bitsOf 1 b.toNat = [b] := by cases b <;> rfl

theorem valOf_one (b : Bool) : valOf [b] = b.toNat := by cases b <;> rfl

@[simp] theorem byte_of_valOf_bitsOf (b : Byte) : BitVec.ofNat 8 (valOf (bitsOf 8 b.toNat)) = b := by
  rw [valOf_bitsOf]
  exact BitVec.eq_of_toNat_eq (by simpa using b.isLt)

theorem bytesOfBits_short {l : List Bool} (h : l.length < 8) : bytesOfBits l = [] := by
  match l, h with
  | [], _ => rfl
  | [_], _ => rfl
  | [_, _], _ => rfl
  | [_, _, _], _ => rfl
  | [_, _, _, _], _ => rfl
  | [_, _, _, _, _], _ => rfl
  | [_, _, _, _, _, _], _ => rfl
  | [_, _, _, _, _, _, _], _ => rfl

theorem bytesOfBits_long {l : List Bool} (h : 8 ≤ l.length) :
    bytesOfBits l = BitVec.ofNat 8 (valOf (l.take 8)) :: bytesOfBits (l.drop 8) := by
  match l, h with
  | a :: b :: c :: d :: e :: f :: g :: i :: rest, _ => rfl

theorem bytesOfBits_append (b : Byte) (l : List Bool) :
    bytesOfBits (bitsOf 8 b.toNat ++ l) = b :: bytesOfBits l := by
  rw [bytesOfBits_long (by simp)]
  simp

/-- R67, R68: the bytes of a packed byte string are that string. -/
theorem bytesOfBits_bitsOfBytes (bs : List Byte) : bytesOfBits (bitsOfBytes bs) = bs := by
  induction bs with
  | nil => rfl
  | cons b bs ih => rw [bitsOfBytes, List.flatMap_cons, bytesOfBits_append]; simpa [bitsOfBytes] using ih

theorem bytesOfBits_length (l : List Bool) : (bytesOfBits l).length = l.length / 8 := by
  induction h : l.length using Nat.strong_induction_on generalizing l with
  | _ n ih =>
    by_cases hn : n < 8
    · rw [bytesOfBits_short (by omega)]; simp; omega
    · rw [bytesOfBits_long (by omega), List.length_cons, ih (n - 8) (by omega) _ (by simp [h])]
      omega

@[simp] theorem bitsOfBytes_length (bs : List Byte) : (bitsOfBytes bs).length = 8 * bs.length := by
  induction bs with
  | nil => rfl
  | cons b bs ih =>
    rw [bitsOfBytes, List.flatMap_cons, List.length_append, bitsOf_length, ← bitsOfBytes, ih, List.length_cons]
    omega

/-- R65: padding ends at a byte boundary. -/
theorem padLength_spec (n : Nat) : (n + padLength n) % 8 = 0 ∧ padLength n < 8 := by
  unfold padLength; omega

end Sys2Proof
end

