-- ==== Sys2Proof/Laws/State.lean ====
section
/-! SUPPORT. One lemma per field per update of State and of Work, each true by rfl, so that no later proof unfolds an
update. -/

namespace Sys2Proof.Machine

/-! ### State.setWork -/

@[simp] theorem State.setWork_work (s : State) (w : Work) : (s.setWork w).work = w := rfl
@[simp] theorem State.setWork_phase (s : State) (w : Work) : (s.setWork w).phase = s.phase := rfl
@[simp] theorem State.setWork_causeKind (s : State) (w : Work) : (s.setWork w).causeKind = s.causeKind := rfl
@[simp] theorem State.setWork_causeSub (s : State) (w : Work) : (s.setWork w).causeSub = s.causeSub := rfl
@[simp] theorem State.setWork_info (s : State) (w : Work) : (s.setWork w).info = s.info := rfl
@[simp] theorem State.setWork_mem (s : State) (w : Work) : (s.setWork w).mem = s.mem := rfl
@[simp] theorem State.setWork_cfg (s : State) (w : Work) : (s.setWork w).cfg = s.cfg := rfl
@[simp] theorem State.setWork_answers (s : State) (w : Work) : (s.setWork w).answers = s.answers := rfl
@[simp] theorem State.setWork_inputs (s : State) (w : Work) : (s.setWork w).inputs = s.inputs := rfl
@[simp] theorem State.setWork_trace (s : State) (w : Work) : (s.setWork w).trace = s.trace := rfl
@[simp] theorem State.setWork_freeIx (s : State) (w : Work) : (s.setWork w).freeIx = s.freeIx := rfl

/-! ### State.setPhase -/

@[simp] theorem State.setPhase_work (s : State) (p : BitVec 4) : (s.setPhase p).work = s.work := rfl
@[simp] theorem State.setPhase_phase (s : State) (p : BitVec 4) : (s.setPhase p).phase = p := rfl
@[simp] theorem State.setPhase_causeKind (s : State) (p : BitVec 4) : (s.setPhase p).causeKind = s.causeKind := rfl
@[simp] theorem State.setPhase_causeSub (s : State) (p : BitVec 4) : (s.setPhase p).causeSub = s.causeSub := rfl
@[simp] theorem State.setPhase_info (s : State) (p : BitVec 4) : (s.setPhase p).info = s.info := rfl
@[simp] theorem State.setPhase_mem (s : State) (p : BitVec 4) : (s.setPhase p).mem = s.mem := rfl
@[simp] theorem State.setPhase_cfg (s : State) (p : BitVec 4) : (s.setPhase p).cfg = s.cfg := rfl
@[simp] theorem State.setPhase_answers (s : State) (p : BitVec 4) : (s.setPhase p).answers = s.answers := rfl
@[simp] theorem State.setPhase_inputs (s : State) (p : BitVec 4) : (s.setPhase p).inputs = s.inputs := rfl
@[simp] theorem State.setPhase_trace (s : State) (p : BitVec 4) : (s.setPhase p).trace = s.trace := rfl
@[simp] theorem State.setPhase_freeIx (s : State) (p : BitVec 4) : (s.setPhase p).freeIx = s.freeIx := rfl

/-! ### State.setSrc -/

@[simp] theorem State.setSrc_work (s : State) (x : Source) : (s.setSrc x).work = s.work := rfl
@[simp] theorem State.setSrc_phase (s : State) (x : Source) : (s.setSrc x).phase = s.phase := rfl
@[simp] theorem State.setSrc_causeKind (s : State) (x : Source) : (s.setSrc x).causeKind = s.causeKind := rfl
@[simp] theorem State.setSrc_causeSub (s : State) (x : Source) : (s.setSrc x).causeSub = s.causeSub := rfl
@[simp] theorem State.setSrc_info (s : State) (x : Source) : (s.setSrc x).info = s.info := rfl
@[simp] theorem State.setSrc_mem (s : State) (x : Source) : (s.setSrc x).mem = { s.mem with src := x } := rfl
@[simp] theorem State.setSrc_cfg (s : State) (x : Source) : (s.setSrc x).cfg = s.cfg := rfl
@[simp] theorem State.setSrc_answers (s : State) (x : Source) : (s.setSrc x).answers = s.answers := rfl
@[simp] theorem State.setSrc_inputs (s : State) (x : Source) : (s.setSrc x).inputs = s.inputs := rfl
@[simp] theorem State.setSrc_trace (s : State) (x : Source) : (s.setSrc x).trace = s.trace := rfl
@[simp] theorem State.setSrc_freeIx (s : State) (x : Source) : (s.setSrc x).freeIx = s.freeIx := rfl

/-! ### State.setSnk -/

@[simp] theorem State.setSnk_work (s : State) (x : Sink) : (s.setSnk x).work = s.work := rfl
@[simp] theorem State.setSnk_phase (s : State) (x : Sink) : (s.setSnk x).phase = s.phase := rfl
@[simp] theorem State.setSnk_causeKind (s : State) (x : Sink) : (s.setSnk x).causeKind = s.causeKind := rfl
@[simp] theorem State.setSnk_causeSub (s : State) (x : Sink) : (s.setSnk x).causeSub = s.causeSub := rfl
@[simp] theorem State.setSnk_info (s : State) (x : Sink) : (s.setSnk x).info = s.info := rfl
@[simp] theorem State.setSnk_mem (s : State) (x : Sink) : (s.setSnk x).mem = { s.mem with snk := x } := rfl
@[simp] theorem State.setSnk_cfg (s : State) (x : Sink) : (s.setSnk x).cfg = s.cfg := rfl
@[simp] theorem State.setSnk_answers (s : State) (x : Sink) : (s.setSnk x).answers = s.answers := rfl
@[simp] theorem State.setSnk_inputs (s : State) (x : Sink) : (s.setSnk x).inputs = s.inputs := rfl
@[simp] theorem State.setSnk_trace (s : State) (x : Sink) : (s.setSnk x).trace = s.trace := rfl
@[simp] theorem State.setSnk_freeIx (s : State) (x : Sink) : (s.setSnk x).freeIx = s.freeIx := rfl

/-! ### State.setInputs -/

@[simp] theorem State.setInputs_work (s : State) (l : List HostEvent) : (s.setInputs l).work = s.work := rfl
@[simp] theorem State.setInputs_phase (s : State) (l : List HostEvent) : (s.setInputs l).phase = s.phase := rfl
@[simp] theorem State.setInputs_causeKind (s : State) (l : List HostEvent) : (s.setInputs l).causeKind = s.causeKind := rfl
@[simp] theorem State.setInputs_causeSub (s : State) (l : List HostEvent) : (s.setInputs l).causeSub = s.causeSub := rfl
@[simp] theorem State.setInputs_info (s : State) (l : List HostEvent) : (s.setInputs l).info = s.info := rfl
@[simp] theorem State.setInputs_mem (s : State) (l : List HostEvent) : (s.setInputs l).mem = s.mem := rfl
@[simp] theorem State.setInputs_cfg (s : State) (l : List HostEvent) : (s.setInputs l).cfg = s.cfg := rfl
@[simp] theorem State.setInputs_answers (s : State) (l : List HostEvent) : (s.setInputs l).answers = s.answers := rfl
@[simp] theorem State.setInputs_inputs (s : State) (l : List HostEvent) : (s.setInputs l).inputs = l := rfl
@[simp] theorem State.setInputs_trace (s : State) (l : List HostEvent) : (s.setInputs l).trace = s.trace := rfl
@[simp] theorem State.setInputs_freeIx (s : State) (l : List HostEvent) : (s.setInputs l).freeIx = s.freeIx := rfl

/-! ### State.setCause -/

@[simp] theorem State.setCause_work (s : State) (k : BitVec 3) (c : BitVec 4) (v : Word) : (s.setCause k c v).work = s.work := rfl
@[simp] theorem State.setCause_phase (s : State) (k : BitVec 3) (c : BitVec 4) (v : Word) : (s.setCause k c v).phase = s.phase := rfl
@[simp] theorem State.setCause_causeKind (s : State) (k : BitVec 3) (c : BitVec 4) (v : Word) : (s.setCause k c v).causeKind = k := rfl
@[simp] theorem State.setCause_causeSub (s : State) (k : BitVec 3) (c : BitVec 4) (v : Word) : (s.setCause k c v).causeSub = c := rfl
@[simp] theorem State.setCause_info (s : State) (k : BitVec 3) (c : BitVec 4) (v : Word) : (s.setCause k c v).info = v := rfl
@[simp] theorem State.setCause_mem (s : State) (k : BitVec 3) (c : BitVec 4) (v : Word) : (s.setCause k c v).mem = s.mem := rfl
@[simp] theorem State.setCause_cfg (s : State) (k : BitVec 3) (c : BitVec 4) (v : Word) : (s.setCause k c v).cfg = s.cfg := rfl
@[simp] theorem State.setCause_answers (s : State) (k : BitVec 3) (c : BitVec 4) (v : Word) : (s.setCause k c v).answers = s.answers := rfl
@[simp] theorem State.setCause_inputs (s : State) (k : BitVec 3) (c : BitVec 4) (v : Word) : (s.setCause k c v).inputs = s.inputs := rfl
@[simp] theorem State.setCause_trace (s : State) (k : BitVec 3) (c : BitVec 4) (v : Word) : (s.setCause k c v).trace = s.trace := rfl
@[simp] theorem State.setCause_freeIx (s : State) (k : BitVec 3) (c : BitVec 4) (v : Word) : (s.setCause k c v).freeIx = s.freeIx := rfl

/-! ### State.answered -/

@[simp] theorem State.answered_work (s : State) : (s.answered).work = s.work := rfl
@[simp] theorem State.answered_phase (s : State) : (s.answered).phase = s.phase := rfl
@[simp] theorem State.answered_causeKind (s : State) : (s.answered).causeKind = s.causeKind := rfl
@[simp] theorem State.answered_causeSub (s : State) : (s.answered).causeSub = s.causeSub := rfl
@[simp] theorem State.answered_info (s : State) : (s.answered).info = s.info := rfl
@[simp] theorem State.answered_mem (s : State) : (s.answered).mem = s.mem := rfl
@[simp] theorem State.answered_cfg (s : State) : (s.answered).cfg = s.cfg := rfl
@[simp] theorem State.answered_answers (s : State) : (s.answered).answers = s.answers.tail := rfl
@[simp] theorem State.answered_inputs (s : State) : (s.answered).inputs = s.inputs := rfl
@[simp] theorem State.answered_trace (s : State) : (s.answered).trace = s.trace := rfl
@[simp] theorem State.answered_freeIx (s : State) : (s.answered).freeIx = s.freeIx := rfl

/-! ### State.log -/

@[simp] theorem State.log_work (s : State) (t : Txn) : (s.log t).work = s.work := rfl
@[simp] theorem State.log_phase (s : State) (t : Txn) : (s.log t).phase = s.phase := rfl
@[simp] theorem State.log_causeKind (s : State) (t : Txn) : (s.log t).causeKind = s.causeKind := rfl
@[simp] theorem State.log_causeSub (s : State) (t : Txn) : (s.log t).causeSub = s.causeSub := rfl
@[simp] theorem State.log_info (s : State) (t : Txn) : (s.log t).info = s.info := rfl
@[simp] theorem State.log_mem (s : State) (t : Txn) : (s.log t).mem = s.mem := rfl
@[simp] theorem State.log_cfg (s : State) (t : Txn) : (s.log t).cfg = s.cfg := rfl
@[simp] theorem State.log_answers (s : State) (t : Txn) : (s.log t).answers = s.answers := rfl
@[simp] theorem State.log_inputs (s : State) (t : Txn) : (s.log t).inputs = s.inputs := rfl
@[simp] theorem State.log_trace (s : State) (t : Txn) : (s.log t).trace = t :: s.trace := rfl
@[simp] theorem State.log_freeIx (s : State) (t : Txn) : (s.log t).freeIx = s.freeIx := rfl

/-! ### State.discard -/

@[simp] theorem State.discard_work (s : State) : (s.discard).work = Work.free s.freeIx := rfl
@[simp] theorem State.discard_phase (s : State) : (s.discard).phase = s.phase := rfl
@[simp] theorem State.discard_causeKind (s : State) : (s.discard).causeKind = s.causeKind := rfl
@[simp] theorem State.discard_causeSub (s : State) : (s.discard).causeSub = s.causeSub := rfl
@[simp] theorem State.discard_info (s : State) : (s.discard).info = s.info := rfl
@[simp] theorem State.discard_mem (s : State) : (s.discard).mem = s.mem := rfl
@[simp] theorem State.discard_cfg (s : State) : (s.discard).cfg = s.cfg := rfl
@[simp] theorem State.discard_answers (s : State) : (s.discard).answers = s.answers := rfl
@[simp] theorem State.discard_inputs (s : State) : (s.discard).inputs = s.inputs := rfl
@[simp] theorem State.discard_trace (s : State) : (s.discard).trace = s.trace := rfl
@[simp] theorem State.discard_freeIx (s : State) : (s.discard).freeIx = s.freeIx + 1 := rfl

/-! ### State.enterFault -/

@[simp] theorem State.enterFault_work (s : State) (r : Raise) : (s.enterFault r).work = Work.free s.freeIx := rfl
@[simp] theorem State.enterFault_phase (s : State) (r : Raise) : (s.enterFault r).phase = Phase.fault := rfl
@[simp] theorem State.enterFault_causeKind (s : State) (r : Raise) : (s.enterFault r).causeKind = r.kind := rfl
@[simp] theorem State.enterFault_causeSub (s : State) (r : Raise) : (s.enterFault r).causeSub = r.sub := rfl
@[simp] theorem State.enterFault_info (s : State) (r : Raise) : (s.enterFault r).info = r.info := rfl
@[simp] theorem State.enterFault_mem (s : State) (r : Raise) : (s.enterFault r).mem = s.mem := rfl
@[simp] theorem State.enterFault_cfg (s : State) (r : Raise) : (s.enterFault r).cfg = s.cfg := rfl
@[simp] theorem State.enterFault_answers (s : State) (r : Raise) : (s.enterFault r).answers = s.answers := rfl
@[simp] theorem State.enterFault_inputs (s : State) (r : Raise) : (s.enterFault r).inputs = s.inputs := rfl
@[simp] theorem State.enterFault_trace (s : State) (r : Raise) : (s.enterFault r).trace = s.trace := rfl
@[simp] theorem State.enterFault_freeIx (s : State) (r : Raise) : (s.enterFault r).freeIx = s.freeIx + 1 := rfl

/-! ### State.complete -/

@[simp] theorem State.complete_work (s : State) : (s.complete).work = Work.free s.freeIx := rfl
@[simp] theorem State.complete_phase (s : State) : (s.complete).phase = Phase.done := rfl
@[simp] theorem State.complete_causeKind (s : State) : (s.complete).causeKind = 0#3 := rfl
@[simp] theorem State.complete_causeSub (s : State) : (s.complete).causeSub = 0#4 := rfl
@[simp] theorem State.complete_info (s : State) : (s.complete).info = 0#32 := rfl
@[simp] theorem State.complete_mem (s : State) : (s.complete).mem = s.mem := rfl
@[simp] theorem State.complete_cfg (s : State) : (s.complete).cfg = s.cfg := rfl
@[simp] theorem State.complete_answers (s : State) : (s.complete).answers = s.answers := rfl
@[simp] theorem State.complete_inputs (s : State) : (s.complete).inputs = s.inputs := rfl
@[simp] theorem State.complete_trace (s : State) : (s.complete).trace = s.trace := rfl
@[simp] theorem State.complete_freeIx (s : State) : (s.complete).freeIx = s.freeIx + 1 := rfl

/-! ### State.hardReset -/

@[simp] theorem State.hardReset_work (s : State) : (s.hardReset).work = Work.reset := rfl
@[simp] theorem State.hardReset_phase (s : State) : (s.hardReset).phase = Phase.idle := rfl
@[simp] theorem State.hardReset_causeKind (s : State) : (s.hardReset).causeKind = 0#3 := rfl
@[simp] theorem State.hardReset_causeSub (s : State) : (s.hardReset).causeSub = 0#4 := rfl
@[simp] theorem State.hardReset_info (s : State) : (s.hardReset).info = 0#32 := rfl
@[simp] theorem State.hardReset_mem (s : State) : (s.hardReset).mem = s.mem := rfl
@[simp] theorem State.hardReset_cfg (s : State) : (s.hardReset).cfg = s.cfg := rfl
@[simp] theorem State.hardReset_answers (s : State) : (s.hardReset).answers = s.answers := rfl
@[simp] theorem State.hardReset_inputs (s : State) : (s.hardReset).inputs = s.inputs := rfl
@[simp] theorem State.hardReset_trace (s : State) : (s.hardReset).trace = s.trace := rfl
@[simp] theorem State.hardReset_freeIx (s : State) : (s.hardReset).freeIx = s.freeIx := rfl

/-! ### Work.push -/

@[simp] theorem Work.push_freq (w : Work) (n : Option Tree) : (w.push n).freq = w.freq := rfl
@[simp] theorem Work.push_nbytes (w : Work) (n : Option Tree) : (w.push n).nbytes = w.nbytes := rfl
@[simp] theorem Work.push_tree (w : Work) (n : Option Tree) : (w.push n).tree = w.tree := rfl
@[simp] theorem Work.push_nnodes (w : Work) (n : Option Tree) : (w.push n).nnodes = w.nnodes := rfl
@[simp] theorem Work.push_pq (w : Work) (n : Option Tree) : (w.push n).pq = w.pq := rfl
@[simp] theorem Work.push_seq (w : Work) (n : Option Tree) : (w.push n).seq = w.seq := rfl
@[simp] theorem Work.push_ret (w : Work) (n : Option Tree) : (w.push n).ret = w.ret := rfl
@[simp] theorem Work.push_code (w : Work) (n : Option Tree) : (w.push n).code = w.code := rfl
@[simp] theorem Work.push_codeBeyond (w : Work) (n : Option Tree) : (w.push n).codeBeyond = w.codeBeyond := rfl
@[simp] theorem Work.push_cur (w : Work) (n : Option Tree) : (w.push n).cur = w.cur := rfl
@[simp] theorem Work.push_stk (w : Work) (n : Option Tree) : (w.push n).stk = ⟨n, .left⟩ :: w.stk := rfl
@[simp] theorem Work.push_path (w : Work) (n : Option Tree) : (w.push n).path = w.path := rfl

/-! ### Work.turn -/

@[simp] theorem Work.turn_freq (w : Work) (n : Option Tree) : (w.turn n).freq = w.freq := rfl
@[simp] theorem Work.turn_nbytes (w : Work) (n : Option Tree) : (w.turn n).nbytes = w.nbytes := rfl
@[simp] theorem Work.turn_tree (w : Work) (n : Option Tree) : (w.turn n).tree = w.tree := rfl
@[simp] theorem Work.turn_nnodes (w : Work) (n : Option Tree) : (w.turn n).nnodes = w.nnodes := rfl
@[simp] theorem Work.turn_pq (w : Work) (n : Option Tree) : (w.turn n).pq = w.pq := rfl
@[simp] theorem Work.turn_seq (w : Work) (n : Option Tree) : (w.turn n).seq = w.seq := rfl
@[simp] theorem Work.turn_ret (w : Work) (n : Option Tree) : (w.turn n).ret = w.ret := rfl
@[simp] theorem Work.turn_code (w : Work) (n : Option Tree) : (w.turn n).code = w.code := rfl
@[simp] theorem Work.turn_codeBeyond (w : Work) (n : Option Tree) : (w.turn n).codeBeyond = w.codeBeyond := rfl
@[simp] theorem Work.turn_cur (w : Work) (n : Option Tree) : (w.turn n).cur = w.cur := rfl
@[simp] theorem Work.turn_stk (w : Work) (n : Option Tree) : (w.turn n).stk = ⟨n, .right⟩ :: w.stk.tail := rfl
@[simp] theorem Work.turn_path (w : Work) (n : Option Tree) : (w.turn n).path = w.path := rfl

/-! ### Work.pop -/

@[simp] theorem Work.pop_freq (w : Work) : (w.pop).freq = w.freq := rfl
@[simp] theorem Work.pop_nbytes (w : Work) : (w.pop).nbytes = w.nbytes := rfl
@[simp] theorem Work.pop_tree (w : Work) : (w.pop).tree = w.tree := rfl
@[simp] theorem Work.pop_nnodes (w : Work) : (w.pop).nnodes = w.nnodes := rfl
@[simp] theorem Work.pop_pq (w : Work) : (w.pop).pq = w.pq := rfl
@[simp] theorem Work.pop_seq (w : Work) : (w.pop).seq = w.seq := rfl
@[simp] theorem Work.pop_ret (w : Work) : (w.pop).ret = w.ret := rfl
@[simp] theorem Work.pop_code (w : Work) : (w.pop).code = w.code := rfl
@[simp] theorem Work.pop_codeBeyond (w : Work) : (w.pop).codeBeyond = w.codeBeyond := rfl
@[simp] theorem Work.pop_cur (w : Work) : (w.pop).cur = w.cur := rfl
@[simp] theorem Work.pop_stk (w : Work) : (w.pop).stk = w.stk.tail := rfl
@[simp] theorem Work.pop_path (w : Work) : (w.pop).path = w.path := rfl

/-! ### Work.down -/

@[simp] theorem Work.down_freq (w : Work) (b : Bool) : (w.down b).freq = w.freq := rfl
@[simp] theorem Work.down_nbytes (w : Work) (b : Bool) : (w.down b).nbytes = w.nbytes := rfl
@[simp] theorem Work.down_tree (w : Work) (b : Bool) : (w.down b).tree = w.tree := rfl
@[simp] theorem Work.down_nnodes (w : Work) (b : Bool) : (w.down b).nnodes = w.nnodes := rfl
@[simp] theorem Work.down_pq (w : Work) (b : Bool) : (w.down b).pq = w.pq := rfl
@[simp] theorem Work.down_seq (w : Work) (b : Bool) : (w.down b).seq = w.seq := rfl
@[simp] theorem Work.down_ret (w : Work) (b : Bool) : (w.down b).ret = w.ret := rfl
@[simp] theorem Work.down_code (w : Work) (b : Bool) : (w.down b).code = w.code := rfl
@[simp] theorem Work.down_codeBeyond (w : Work) (b : Bool) : (w.down b).codeBeyond = w.codeBeyond := rfl
@[simp] theorem Work.down_cur (w : Work) (b : Bool) : (w.down b).cur = w.cur := rfl
@[simp] theorem Work.down_stk (w : Work) (b : Bool) : (w.down b).stk = w.stk := rfl
@[simp] theorem Work.down_path (w : Work) (b : Bool) : (w.down b).path = w.path ++ [b] := rfl

/-! ### Work.up -/

@[simp] theorem Work.up_freq (w : Work) : (w.up).freq = w.freq := rfl
@[simp] theorem Work.up_nbytes (w : Work) : (w.up).nbytes = w.nbytes := rfl
@[simp] theorem Work.up_tree (w : Work) : (w.up).tree = w.tree := rfl
@[simp] theorem Work.up_nnodes (w : Work) : (w.up).nnodes = w.nnodes := rfl
@[simp] theorem Work.up_pq (w : Work) : (w.up).pq = w.pq := rfl
@[simp] theorem Work.up_seq (w : Work) : (w.up).seq = w.seq := rfl
@[simp] theorem Work.up_ret (w : Work) : (w.up).ret = w.ret := rfl
@[simp] theorem Work.up_code (w : Work) : (w.up).code = w.code := rfl
@[simp] theorem Work.up_codeBeyond (w : Work) : (w.up).codeBeyond = w.codeBeyond := rfl
@[simp] theorem Work.up_cur (w : Work) : (w.up).cur = w.cur := rfl
@[simp] theorem Work.up_stk (w : Work) : (w.up).stk = w.stk := rfl
@[simp] theorem Work.up_path (w : Work) : (w.up).path = w.path.dropLast := rfl

/-! ### Work.clearCounts -/

@[simp] theorem Work.clearCounts_freq (w : Work) : (w.clearCounts).freq = Vector.replicate 257 0 := rfl
@[simp] theorem Work.clearCounts_nbytes (w : Work) : (w.clearCounts).nbytes = 0 := rfl
@[simp] theorem Work.clearCounts_tree (w : Work) : (w.clearCounts).tree = w.tree := rfl
@[simp] theorem Work.clearCounts_nnodes (w : Work) : (w.clearCounts).nnodes = w.nnodes := rfl
@[simp] theorem Work.clearCounts_pq (w : Work) : (w.clearCounts).pq = w.pq := rfl
@[simp] theorem Work.clearCounts_seq (w : Work) : (w.clearCounts).seq = w.seq := rfl
@[simp] theorem Work.clearCounts_ret (w : Work) : (w.clearCounts).ret = w.ret := rfl
@[simp] theorem Work.clearCounts_code (w : Work) : (w.clearCounts).code = w.code := rfl
@[simp] theorem Work.clearCounts_codeBeyond (w : Work) : (w.clearCounts).codeBeyond = w.codeBeyond := rfl
@[simp] theorem Work.clearCounts_cur (w : Work) : (w.clearCounts).cur = w.cur := rfl
@[simp] theorem Work.clearCounts_stk (w : Work) : (w.clearCounts).stk = w.stk := rfl
@[simp] theorem Work.clearCounts_path (w : Work) : (w.clearCounts).path = w.path := rfl

/-! ### Work.countByte -/

@[simp] theorem Work.countByte_freq (w : Work) (b : Byte) : (w.countByte b).freq = w.freq.set (byteIndex b) (w.freq[byteIndex b] + 1) := rfl
@[simp] theorem Work.countByte_nbytes (w : Work) (b : Byte) : (w.countByte b).nbytes = w.nbytes + 1 := rfl
@[simp] theorem Work.countByte_tree (w : Work) (b : Byte) : (w.countByte b).tree = w.tree := rfl
@[simp] theorem Work.countByte_nnodes (w : Work) (b : Byte) : (w.countByte b).nnodes = w.nnodes := rfl
@[simp] theorem Work.countByte_pq (w : Work) (b : Byte) : (w.countByte b).pq = w.pq := rfl
@[simp] theorem Work.countByte_seq (w : Work) (b : Byte) : (w.countByte b).seq = w.seq := rfl
@[simp] theorem Work.countByte_ret (w : Work) (b : Byte) : (w.countByte b).ret = w.ret := rfl
@[simp] theorem Work.countByte_code (w : Work) (b : Byte) : (w.countByte b).code = w.code := rfl
@[simp] theorem Work.countByte_codeBeyond (w : Work) (b : Byte) : (w.countByte b).codeBeyond = w.codeBeyond := rfl
@[simp] theorem Work.countByte_cur (w : Work) (b : Byte) : (w.countByte b).cur = w.cur := rfl
@[simp] theorem Work.countByte_stk (w : Work) (b : Byte) : (w.countByte b).stk = w.stk := rfl
@[simp] theorem Work.countByte_path (w : Work) (b : Byte) : (w.countByte b).path = w.path := rfl

/-! ### Work.markEos -/

@[simp] theorem Work.markEos_freq (w : Work) : (w.markEos).freq = w.freq.set eosIndex 1 := rfl
@[simp] theorem Work.markEos_nbytes (w : Work) : (w.markEos).nbytes = w.nbytes := rfl
@[simp] theorem Work.markEos_tree (w : Work) : (w.markEos).tree = w.tree := rfl
@[simp] theorem Work.markEos_nnodes (w : Work) : (w.markEos).nnodes = w.nnodes := rfl
@[simp] theorem Work.markEos_pq (w : Work) : (w.markEos).pq = w.pq := rfl
@[simp] theorem Work.markEos_seq (w : Work) : (w.markEos).seq = w.seq := rfl
@[simp] theorem Work.markEos_ret (w : Work) : (w.markEos).ret = w.ret := rfl
@[simp] theorem Work.markEos_code (w : Work) : (w.markEos).code = w.code := rfl
@[simp] theorem Work.markEos_codeBeyond (w : Work) : (w.markEos).codeBeyond = w.codeBeyond := rfl
@[simp] theorem Work.markEos_cur (w : Work) : (w.markEos).cur = w.cur := rfl
@[simp] theorem Work.markEos_stk (w : Work) : (w.markEos).stk = w.stk := rfl
@[simp] theorem Work.markEos_path (w : Work) : (w.markEos).path = w.path := rfl

/-! ### Work.clearBuild -/

@[simp] theorem Work.clearBuild_freq (w : Work) : (w.clearBuild).freq = w.freq := rfl
@[simp] theorem Work.clearBuild_nbytes (w : Work) : (w.clearBuild).nbytes = w.nbytes := rfl
@[simp] theorem Work.clearBuild_tree (w : Work) : (w.clearBuild).tree = none := rfl
@[simp] theorem Work.clearBuild_nnodes (w : Work) : (w.clearBuild).nnodes = 0 := rfl
@[simp] theorem Work.clearBuild_pq (w : Work) : (w.clearBuild).pq = [] := rfl
@[simp] theorem Work.clearBuild_seq (w : Work) : (w.clearBuild).seq = 0#10 := rfl
@[simp] theorem Work.clearBuild_ret (w : Work) : (w.clearBuild).ret = w.ret := rfl
@[simp] theorem Work.clearBuild_code (w : Work) : (w.clearBuild).code = w.code := rfl
@[simp] theorem Work.clearBuild_codeBeyond (w : Work) : (w.clearBuild).codeBeyond = w.codeBeyond := rfl
@[simp] theorem Work.clearBuild_cur (w : Work) : (w.clearBuild).cur = w.cur := rfl
@[simp] theorem Work.clearBuild_stk (w : Work) : (w.clearBuild).stk = w.stk := rfl
@[simp] theorem Work.clearBuild_path (w : Work) : (w.clearBuild).path = w.path := rfl

/-! ### State.writeBeyondCode -/

@[simp] theorem State.writeBeyondCode_work (s : State) : s.writeBeyondCode.work = { s.work with codeBeyond := Config.freeCodeBeyond s.freeIx } := rfl
@[simp] theorem State.writeBeyondCode_phase (s : State) : s.writeBeyondCode.phase = s.phase := rfl
@[simp] theorem State.writeBeyondCode_causeKind (s : State) : s.writeBeyondCode.causeKind = s.causeKind := rfl
@[simp] theorem State.writeBeyondCode_causeSub (s : State) : s.writeBeyondCode.causeSub = s.causeSub := rfl
@[simp] theorem State.writeBeyondCode_info (s : State) : s.writeBeyondCode.info = s.info := rfl
@[simp] theorem State.writeBeyondCode_mem (s : State) : s.writeBeyondCode.mem = s.mem := rfl
@[simp] theorem State.writeBeyondCode_cfg (s : State) : s.writeBeyondCode.cfg = s.cfg := rfl
@[simp] theorem State.writeBeyondCode_answers (s : State) : s.writeBeyondCode.answers = s.answers := rfl
@[simp] theorem State.writeBeyondCode_inputs (s : State) : s.writeBeyondCode.inputs = s.inputs := rfl
@[simp] theorem State.writeBeyondCode_trace (s : State) : s.writeBeyondCode.trace = s.trace := rfl
@[simp] theorem State.writeBeyondCode_freeIx (s : State) : s.writeBeyondCode.freeIx = s.freeIx + 1 := rfl

/-! ### Work.clearCodes -/

@[simp] theorem Work.clearCodes_freq (w : Work) : (w.clearCodes).freq = w.freq := rfl
@[simp] theorem Work.clearCodes_nbytes (w : Work) : (w.clearCodes).nbytes = w.nbytes := rfl
@[simp] theorem Work.clearCodes_tree (w : Work) : (w.clearCodes).tree = w.tree := rfl
@[simp] theorem Work.clearCodes_nnodes (w : Work) : (w.clearCodes).nnodes = w.nnodes := rfl
@[simp] theorem Work.clearCodes_pq (w : Work) : (w.clearCodes).pq = w.pq := rfl
@[simp] theorem Work.clearCodes_seq (w : Work) : (w.clearCodes).seq = w.seq := rfl
@[simp] theorem Work.clearCodes_ret (w : Work) : (w.clearCodes).ret = w.ret := rfl
@[simp] theorem Work.clearCodes_code (w : Work) : (w.clearCodes).code = w.code.map fun c => { c with valid := false } := rfl
@[simp] theorem Work.clearCodes_codeBeyond (w : Work) : (w.clearCodes).codeBeyond = w.codeBeyond := rfl
@[simp] theorem Work.clearCodes_cur (w : Work) : (w.clearCodes).cur = w.cur := rfl
@[simp] theorem Work.clearCodes_stk (w : Work) : (w.clearCodes).stk = w.stk := rfl
@[simp] theorem Work.clearCodes_path (w : Work) : (w.clearCodes).path = [] := rfl

/-! ### Work.clearTree -/

@[simp] theorem Work.clearTree_freq (w : Work) : (w.clearTree).freq = w.freq := rfl
@[simp] theorem Work.clearTree_nbytes (w : Work) : (w.clearTree).nbytes = w.nbytes := rfl
@[simp] theorem Work.clearTree_tree (w : Work) : (w.clearTree).tree = none := rfl
@[simp] theorem Work.clearTree_nnodes (w : Work) : (w.clearTree).nnodes = 0 := rfl
@[simp] theorem Work.clearTree_pq (w : Work) : (w.clearTree).pq = w.pq := rfl
@[simp] theorem Work.clearTree_seq (w : Work) : (w.clearTree).seq = w.seq := rfl
@[simp] theorem Work.clearTree_ret (w : Work) : (w.clearTree).ret = w.ret := rfl
@[simp] theorem Work.clearTree_code (w : Work) : (w.clearTree).code = w.code := rfl
@[simp] theorem Work.clearTree_codeBeyond (w : Work) : (w.clearTree).codeBeyond = w.codeBeyond := rfl
@[simp] theorem Work.clearTree_cur (w : Work) : (w.clearTree).cur = w.cur := rfl
@[simp] theorem Work.clearTree_stk (w : Work) : (w.clearTree).stk = w.stk := rfl
@[simp] theorem Work.clearTree_path (w : Work) : (w.clearTree).path = w.path := rfl

/-! ### pqInsert -/

@[simp] theorem pqInsert_freq (w : Work) (t : Tree) : (pqInsert t w).freq = w.freq := rfl
@[simp] theorem pqInsert_nbytes (w : Work) (t : Tree) : (pqInsert t w).nbytes = w.nbytes := rfl
@[simp] theorem pqInsert_tree (w : Work) (t : Tree) : (pqInsert t w).tree = w.tree := rfl
@[simp] theorem pqInsert_nnodes (w : Work) (t : Tree) : (pqInsert t w).nnodes = w.nnodes := rfl
@[simp] theorem pqInsert_pq (w : Work) (t : Tree) : (pqInsert t w).pq = w.pq ++ [⟨t.weight, w.seq, t⟩] := rfl
@[simp] theorem pqInsert_seq (w : Work) (t : Tree) : (pqInsert t w).seq = w.seq + 1#10 := rfl
@[simp] theorem pqInsert_ret (w : Work) (t : Tree) : (pqInsert t w).ret = w.ret := rfl
@[simp] theorem pqInsert_code (w : Work) (t : Tree) : (pqInsert t w).code = w.code := rfl
@[simp] theorem pqInsert_cur (w : Work) (t : Tree) : (pqInsert t w).cur = w.cur := rfl
@[simp] theorem pqInsert_stk (w : Work) (t : Tree) : (pqInsert t w).stk = w.stk := rfl
@[simp] theorem pqInsert_path (w : Work) (t : Tree) : (pqInsert t w).path = w.path := rfl

/-! ### Work.recordCode -/

@[simp] theorem Work.recordCode_freq (w : Work) (s : Sym) : (w.recordCode s).freq = w.freq := by
  unfold Work.recordCode; split <;> rfl
@[simp] theorem Work.recordCode_nbytes (w : Work) (s : Sym) : (w.recordCode s).nbytes = w.nbytes := by
  unfold Work.recordCode; split <;> rfl
@[simp] theorem Work.recordCode_tree (w : Work) (s : Sym) : (w.recordCode s).tree = w.tree := by
  unfold Work.recordCode; split <;> rfl
@[simp] theorem Work.recordCode_nnodes (w : Work) (s : Sym) : (w.recordCode s).nnodes = w.nnodes := by
  unfold Work.recordCode; split <;> rfl
@[simp] theorem Work.recordCode_pq (w : Work) (s : Sym) : (w.recordCode s).pq = w.pq := by
  unfold Work.recordCode; split <;> rfl
@[simp] theorem Work.recordCode_seq (w : Work) (s : Sym) : (w.recordCode s).seq = w.seq := by
  unfold Work.recordCode; split <;> rfl
@[simp] theorem Work.recordCode_ret (w : Work) (s : Sym) : (w.recordCode s).ret = w.ret := by
  unfold Work.recordCode; split <;> rfl
@[simp] theorem Work.recordCode_codeBeyond (w : Work) (s : Sym) : (w.recordCode s).codeBeyond = w.codeBeyond := by
  unfold Work.recordCode; split <;> rfl
@[simp] theorem Work.recordCode_cur (w : Work) (s : Sym) : (w.recordCode s).cur = w.cur := by
  unfold Work.recordCode; split <;> rfl
@[simp] theorem Work.recordCode_stk (w : Work) (s : Sym) : (w.recordCode s).stk = w.stk := by
  unfold Work.recordCode; split <;> rfl
@[simp] theorem Work.recordCode_path (w : Work) (s : Sym) : (w.recordCode s).path = w.path := by
  unfold Work.recordCode; split <;> rfl

end Sys2Proof.Machine
end

