-- ==== Sys2Proof/Laws/Ports.lean ====
section
/-! SUPPORT. The port primitives when they are answered normally, and the record `State.ran` of what they leave. -/

namespace Sys2Proof.Machine

open Safety

/-! ## Results -/

@[simp] theorem Res.bind_ok {α β : Type} (a : α) (s : State) (f : α → State → Res β) :
    (Res.ok a s).bind f = f a s := rfl
@[simp] theorem Res.bind_raise {α β : Type} (r : Raise) (s : State) (f : α → State → Res β) :
    (Res.raise r s).bind f = .raise r s := rfl
@[simp] theorem Res.bind_cut {α β : Type} (s : State) (f : α → State → Res β) : (Res.cut s).bind f = .cut s := rfl
@[simp] theorem Res.bind_stop {α β : Type} (e : Fault) (f : α → State → Res β) : (Res.stop e).bind f = .stop e := rfl
@[simp] theorem Res.bind_refuse {α β : Type} (r : Refusal) (f : α → State → Res β) :
    (Res.refuse r).bind f = .refuse r := rfl

theorem Res.bind_assoc {α β γ : Type} (x : Res α) (f : α → State → Res β) (g : β → State → Res γ) :
    (x.bind f).bind g = x.bind fun a s => (f a s).bind g := by
  cases x <;> rfl

@[simp] theorem Res.outcome_ok (s : State) : (Res.ok () s).outcome = .next s := rfl
@[simp] theorem Res.outcome_raise (r : Raise) (s : State) : (Res.raise r s : Res Unit).outcome = .next (s.enterFault r) :=
  rfl
@[simp] theorem Res.outcome_cut (s : State) : (Res.cut s : Res Unit).outcome = .next s.hardReset := rfl
@[simp] theorem Res.outcome_stop (e : Fault) : (Res.stop e : Res Unit).outcome = .fault e := rfl
@[simp] theorem Res.outcome_refuse (r : Refusal) : (Res.refuse r : Res Unit).outcome = .refused r := rfl
@[simp] theorem Res.thenPhase_ok (s : State) (p : BitVec 4) : (Res.ok () s).thenPhase p = .next (s.setPhase p) := rfl
@[simp] theorem Res.thenPhase_raise (r : Raise) (s : State) (p : BitVec 4) :
    (Res.raise r s : Res Unit).thenPhase p = .next (s.enterFault r) := rfl

/-! ## `State.ran` -/

@[simp] theorem State.ran_work (s : State) (w : Work) (p : Nat) (o : List Bool) (l : List Txn) :
    (s.ran w p o l).work = w := rfl
@[simp] theorem State.ran_phase (s : State) (w : Work) (p : Nat) (o : List Bool) (l : List Txn) :
    (s.ran w p o l).phase = s.phase := rfl
@[simp] theorem State.ran_causeKind (s : State) (w : Work) (p : Nat) (o : List Bool) (l : List Txn) :
    (s.ran w p o l).causeKind = s.causeKind := rfl
@[simp] theorem State.ran_causeSub (s : State) (w : Work) (p : Nat) (o : List Bool) (l : List Txn) :
    (s.ran w p o l).causeSub = s.causeSub := rfl
@[simp] theorem State.ran_info (s : State) (w : Work) (p : Nat) (o : List Bool) (l : List Txn) :
    (s.ran w p o l).info = s.info := rfl
@[simp] theorem State.ran_cfg (s : State) (w : Work) (p : Nat) (o : List Bool) (l : List Txn) :
    (s.ran w p o l).cfg = s.cfg := rfl
@[simp] theorem State.ran_inputs (s : State) (w : Work) (p : Nat) (o : List Bool) (l : List Txn) :
    (s.ran w p o l).inputs = s.inputs := rfl
@[simp] theorem State.ran_freeIx (s : State) (w : Work) (p : Nat) (o : List Bool) (l : List Txn) :
    (s.ran w p o l).freeIx = s.freeIx := rfl
@[simp] theorem State.ran_answers (s : State) (w : Work) (p : Nat) (o : List Bool) (l : List Txn) :
    (s.ran w p o l).answers = s.answers.drop l.length := rfl
@[simp] theorem State.ran_trace (s : State) (w : Work) (p : Nat) (o : List Bool) (l : List Txn) :
    (s.ran w p o l).trace = l.reverse ++ s.trace := rfl
@[simp] theorem State.ran_src (s : State) (w : Work) (p : Nat) (o : List Bool) (l : List Txn) :
    (s.ran w p o l).mem.src = { s.mem.src with pos := p } := rfl
@[simp] theorem State.ran_snk (s : State) (w : Work) (p : Nat) (o : List Bool) (l : List Txn) :
    (s.ran w p o l).mem.snk = { s.mem.snk with bits := s.mem.snk.bits ++ o } := rfl
@[simp] theorem State.ran_shared (s : State) (w : Work) (p : Nat) (o : List Bool) (l : List Txn) :
    (s.ran w p o l).mem.shared = s.mem.shared := rfl

@[simp] theorem State.ran_ran (s : State) (w w' : Work) (p p' : Nat) (o o' : List Bool) (l l' : List Txn) :
    (s.ran w p o l).ran w' p' o' l' = s.ran w' p' (o ++ o') (l ++ l') := by
  simp [State.ran]

@[simp] theorem State.ran_setWork (s : State) (w w' : Work) (p : Nat) (o : List Bool) (l : List Txn) :
    (s.ran w p o l).setWork w' = s.ran w' p o l := rfl

@[simp] theorem State.setWork_ran (s : State) (w w' : Work) (p : Nat) (o : List Bool) (l : List Txn) :
    (s.setWork w).ran w' p o l = s.ran w' p o l := rfl

/-- Nothing happened. -/
theorem State.ran_self (s : State) : s.ran s.work s.mem.src.pos [] [] = s := by
  cases s with | mk => simp [State.ran]

/-- Only the stores changed. -/
theorem State.setWork_eq_ran (s : State) (w : Work) : s.setWork w = s.ran w s.mem.src.pos [] [] := by
  cases s with | mk => simp [State.ran, State.setWork]

end Sys2Proof.Machine

namespace Sys2Proof.Safety

open Machine

theorem PortsWork.ran {s : State} (h : PortsWork s) (w : Work) (p : Nat) (o : List Bool) (l : List Txn) :
    PortsWork (s.ran w p o l) := ⟨fun a ha => h.1 a (List.mem_of_mem_drop ha), h.2⟩

theorem PortsWork.setWork {s : State} (h : PortsWork s) (w : Work) : PortsWork (s.setWork w) := h

theorem PortsWork.answer {s : State} (h : PortsWork s) : s.answer = .ok := by
  unfold State.answer
  cases ha : s.answers with
  | nil => rfl
  | cons a l => exact h.1 a (by simp [ha])

end Sys2Proof.Safety

namespace Sys2Proof.Machine

open Safety

/-- R83: on one stream at both ports a transaction has no meaning. -/
theorem transact_shared {α : Type} {s : State} (h : s.mem.shared = true) (t : Txn) (sub : BitVec 4)
    (go : State → Res α) : transact t sub go s = .refuse .sharedStream := by
  simp [transact, h]

/-- R76: while ports work a transaction has its normal effect. -/
theorem transact_ok {α : Type} {s : State} (h : PortsWork s) (t : Txn) (sub : BitVec 4) (go : State → Res α) :
    transact t sub go s = go s.answered := by
  simp [transact, h.answer, h.2]

/-- R61: a read of `n` bits that are there. -/
theorem srcRead_value {s : State} (h : PortsWork s) {n : Nat} {pre post : List Bool}
    (hr : s.mem.src.rest = pre ++ post) (hn : pre.length = n) :
    srcRead n s =
      .ok (some (valOf pre)) (s.ran s.work (s.mem.src.pos + n) [] [.srcRead n (.value (valOf pre))]) := by
  have hl := congrArg List.length hr
  simp only [Source.rest, List.length_drop, List.length_append] at hl
  rw [srcRead, transact_ok h]
  rw [if_neg (by simp; omega)]
  have ht : s.mem.src.rest.take n = pre := by rw [hr, ← hn]; simp
  simp [ht, State.ran, State.log, State.setSrc, State.answered]

/-- R61: a read of one bit that is there. -/
theorem srcRead_bit {s : State} (h : PortsWork s) {b : Bool} {post : List Bool} (hr : s.mem.src.rest = b :: post) :
    srcRead 1 s =
      .ok (some b.toNat) (s.ran s.work (s.mem.src.pos + 1) [] [.srcRead 1 (.value b.toNat)]) := by
  rw [srcRead_value h (pre := [b]) (n := 1) (post := post) (by simpa using hr) rfl, valOf_one]

/-- R61, R71: a read of more bits than are left. -/
theorem srcRead_eod {s : State} (h : PortsWork s) {n : Nat} (hr : s.mem.src.rest.length < n) :
    srcRead n s = .ok none (s.ran s.work s.mem.src.pos [] [.srcRead n .eod]) := by
  simp only [Source.rest, List.length_drop] at hr
  rw [srcRead, transact_ok h]
  rw [if_pos (by simpa using hr)]
  cases s with | mk => simp [State.ran, State.log, State.answered]

/-- R63 -/
theorem srcReset_ok {s : State} (h : PortsWork s) :
    srcReset s = .ok () (s.ran s.work 0 [] [.srcReset true]) := by
  rw [srcReset, transact_ok h]
  cases s with | mk => simp [State.ran, State.log, State.setSrc, State.answered]

/-- R64 -/
theorem snkWrite_ok {s : State} (h : PortsWork s) (ho : s.mem.snk.closed = false) (n v : Nat) :
    snkWrite n v s = .ok () (s.ran s.work s.mem.src.pos (bitsOf n v) [.snkWrite n v true]) := by
  rw [snkWrite, transact_ok h]
  rw [if_neg (by simp [ho])]
  cases s with | mk => simp [State.ran, State.log, State.setSnk, State.answered]

/-- R65 -/
theorem snkClose_ok {s : State} (h : PortsWork s) :
    snkClose s =
      .ok () ((s.ran s.work s.mem.src.pos (List.replicate (padLength s.mem.snk.bits.length) false)
        [.snkClose true]).setSnk
          ⟨s.mem.snk.bits ++ List.replicate (padLength s.mem.snk.bits.length) false, true⟩) := by
  rw [snkClose, transact_ok h]
  cases s with | mk => simp [State.ran, State.log, State.setSnk, State.answered]

/-- The source after a run: what is left from the new position on. -/
theorem ran_rest (s : State) (w : Work) (k : Nat) (o : List Bool) (l : List Txn) :
    (s.ran w (s.mem.src.pos + k) o l).mem.src.rest = s.mem.src.rest.drop k := by
  simp [Source.rest, List.drop_drop]

theorem ran_rest_same (s : State) (w : Work) (o : List Bool) (l : List Txn) :
    (s.ran w s.mem.src.pos o l).mem.src.rest = s.mem.src.rest := rfl

/-- R200: a code is written bit by bit. -/
theorem putCode_ok {s : State} (h : PortsWork s) (ho : s.mem.snk.closed = false) (bits : List Bool) :
    putCode bits s = .ok () (s.ran s.work s.mem.src.pos bits (putBits bits)) := by
  induction bits generalizing s with
  | nil => simp [putCode, putBits, State.ran_self]
  | cons b bits ih =>
    rw [putCode, snkWrite_ok h ho, Res.bind_ok, ih (h.ran _ _ _ _) (by simpa using ho)]
    simp [putBits, bitsOf_one]

end Sys2Proof.Machine
end

