-- ==== Sys2Proof/Laws/Bytes.lean ====
section
/-! SUPPORT. Reading literals: COUNT and ENCODE while ports work (R140, R143, R200, R201). -/

namespace Sys2Proof.Machine

open Safety

theorem bytesLeft_nil {s : State} (h : bytesLeft s = []) : s.mem.src.rest.length < 8 := by
  by_contra hc
  rw [bytesLeft, bytesOfBits_long (by omega)] at h
  simp at h

theorem bytesLeft_cons {s : State} {b : Byte} {bs : List Byte} (h : bytesLeft s = b :: bs) :
    ∃ pre post, s.mem.src.rest = pre ++ post ∧ pre.length = 8 ∧ valOf pre = b.toNat ∧ bytesOfBits post = bs := by
  have hl : 8 ≤ s.mem.src.rest.length := by
    by_contra hc
    rw [bytesLeft, bytesOfBits_short (by omega)] at h
    simp at h
  rw [bytesLeft, bytesOfBits_long hl] at h
  have hb := (List.cons.inj h).1
  refine ⟨s.mem.src.rest.take 8, s.mem.src.rest.drop 8, by simp, by simpa using hl, ?_, (List.cons.inj h).2⟩
  rw [← hb]
  have hlt := valOf_lt (s.mem.src.rest.take 8)
  rw [List.length_take, min_eq_left hl] at hlt
  rw [BitVec.toNat_ofNat, Nat.mod_eq_of_lt hlt]

theorem bytesLeft_length (s : State) : (bytesLeft s).length = s.mem.src.rest.length / 8 := bytesOfBits_length _

/-- Only the position decides what is left. -/
theorem bytesLeft_ran (s : State) (w : Work) (k : Nat) (o : List Bool) (l : List Txn) :
    bytesLeft (s.ran w (s.mem.src.pos + k) o l) = bytesOfBits (s.mem.src.rest.drop k) := by
  rw [bytesLeft, ran_rest]

/-- R68: reading the next literal. -/
theorem srcRead_byte {s : State} (h : PortsWork s) {b : Byte} {bs : List Byte} (hb : bytesLeft s = b :: bs) :
    srcRead 8 s = .ok (some b.toNat) (s.ran s.work (s.mem.src.pos + 8) [] [.srcRead 8 (.value b.toNat)]) ∧
      ∀ w o l, bytesLeft (s.ran w (s.mem.src.pos + 8) o l) = bs := by
  obtain ⟨pre, post, hr, hl, hv, hp⟩ := bytesLeft_cons hb
  refine ⟨by rw [srcRead_value h hr hl, hv], fun w o l => ?_⟩
  rw [bytesLeft_ran, hr, ← hl]
  simpa using hp

/-- R68: at the end of the literals a read answers EOD. -/
theorem srcRead_end {s : State} (h : PortsWork s) (hb : bytesLeft s = []) :
    srcRead 8 s = .ok none (s.ran s.work s.mem.src.pos [] [.srcRead 8 .eod]) :=
  srcRead_eod h (bytesLeft_nil hb)

theorem literal_toNat (b : Byte) : literal b.toNat = b := by simp [literal]

theorem countFull_false {p : Params} {n k : Nat} (h : CountFits p (n + (k + 1))) : countFull p n = false := by
  unfold countFull
  cases hw : p.cntW with
  | none => rfl
  | some w => have := h w hw; simp; omega

/-- R140: COUNT's loop on literals that fit. -/
theorem countLoop_ok {s : State} (h : PortsWork s) {bs : List Byte} (hb : bytesLeft s = bs)
    (hfit : CountFits s.cfg (s.work.nbytes + bs.length)) :
    countLoop bs.length s =
      .ok () (s.ran (bs.foldl Work.countByte s.work) (s.mem.src.pos + 8 * bs.length) []
        (readBytes bs ++ [.srcRead 8 .eod])) := by
  induction bs generalizing s with
  | nil => simp [countLoop, srcRead_end h hb, readBytes]
  | cons b bs ih =>
    obtain ⟨hr, hl⟩ := srcRead_byte h hb
    rw [List.length_cons, countLoop, hr, Res.bind_ok]
    rw [List.length_cons] at hfit
    simp only [State.ran_cfg, State.ran_work, countFull_false hfit, Bool.false_eq_true, if_false, State.ran_setWork,
      literal_toNat]
    rw [ih (h.ran _ _ _ _) (hl _ _ _) (by simpa [Nat.add_assoc, Nat.add_comm 1] using hfit)]
    simp [readBytes, Nat.mul_add, Nat.add_assoc, Nat.add_comm 8]

/-- R143: COUNT's loop on literals that do not fit: the fault comes at the read of the one too many. -/
theorem countLoop_full {s : State} (h : PortsWork s) {bs more : List Byte} {b : Byte} (hb : bytesLeft s = bs ++ b :: more)
    (hfit : CountFits s.cfg (s.work.nbytes + bs.length))
    (hfull : countFull s.cfg (s.work.nbytes + bs.length) = true) :
    countLoop (bs ++ b :: more).length s =
      .raise ⟨Kind.capacityFault, 0#4, 0#32⟩
        (s.ran (bs.foldl Work.countByte s.work) (s.mem.src.pos + 8 * (bs.length + 1)) [] (readBytes (bs ++ [b]))) := by
  induction bs generalizing s with
  | nil =>
    obtain ⟨hr, hl⟩ := srcRead_byte h hb
    rw [List.nil_append, List.length_cons, countLoop, hr, Res.bind_ok]
    simp only [List.length_nil, Nat.add_zero] at hfull
    simp [hfull, readBytes]
  | cons c bs ih =>
    obtain ⟨hr, hl⟩ := srcRead_byte h (by simpa using hb)
    rw [List.cons_append, List.length_cons, countLoop, hr, Res.bind_ok]
    rw [List.length_cons] at hfit hfull
    simp only [State.ran_cfg, State.ran_work, countFull_false hfit, Bool.false_eq_true, if_false, State.ran_setWork,
      literal_toNat]
    rw [ih (h.ran _ _ _ _) (hl _ _ _) (by simpa [Nat.add_assoc, Nat.add_comm 1] using hfit)
      (by simpa [Nat.add_assoc, Nat.add_comm 1] using hfull)]
    simp [readBytes, Nat.mul_add, Nat.add_assoc, Nat.add_comm 8]

theorem foldl_countByte_nbytes (bs : List Byte) (w : Work) :
    (bs.foldl Work.countByte w).nbytes = w.nbytes + bs.length := by
  induction bs generalizing w with
  | nil => rfl
  | cons b bs ih => simp [ih]; omega

theorem foldl_countByte_freq (bs : List Byte) (w : Work) (i : Fin 257) :
    (bs.foldl Work.countByte w).freq[i] = w.freq[i] + bs.countP fun b => b.toNat == i.val := by
  induction bs generalizing w with
  | nil => simp
  | cons b bs ih =>
    rw [List.foldl_cons, ih, List.countP_cons]
    simp only [Work.countByte_freq]
    by_cases hi : b.toNat = i.val
    · have : (byteIndex b).val = i.val := hi
      simp [this, hi]; omega
    · have : (byteIndex b).val ≠ i.val := hi
      simp [this, hi]

/-- COUNT touches no store but FREQ and NBYTES. -/
theorem foldl_countByte_eq (bs : List Byte) (w : Work) :
    bs.foldl Work.countByte w =
      { w with freq := (bs.foldl Work.countByte w).freq, nbytes := (bs.foldl Work.countByte w).nbytes } := by
  induction bs generalizing w with
  | nil => rfl
  | cons b bs ih => rw [List.foldl_cons, ih]; simp [Work.countByte]

/-- R140, R141, R144: the counters COUNT leaves. -/
theorem counted_eq_tally (bs : List Byte) (w : Work) :
    (bs.foldl Work.countByte w.clearCounts).markEos = { w with freq := tally bs, nbytes := bs.length } := by
  have hn : (bs.foldl Work.countByte w.clearCounts).nbytes = bs.length := by
    rw [foldl_countByte_nbytes]; simp
  have hf : (bs.foldl Work.countByte w.clearCounts).markEos.freq = tally bs := by
    ext i hi
    have := foldl_countByte_freq bs w.clearCounts ⟨i, hi⟩
    simp only [Fin.getElem_fin, Work.clearCounts_freq, Vector.getElem_replicate, Nat.zero_add] at this
    simp only [Work.markEos_freq, tally, Vector.getElem_ofFn, Vector.getElem_set, this, eosIndex]
    by_cases h : i = 256
    · simp [h]
    · simp [h, Ne.symm h]
  rw [foldl_countByte_eq]
  simp only [Work.markEos] at hf ⊢
  rw [hf, hn]
  rfl

/-! ## ENCODE -/

/-- R200: ENCODE's loop on literals that have codes. -/
theorem encodeLoop_ok {s : State} (h : PortsWork s) (ho : s.mem.snk.closed = false) {bs : List Byte}
    (hb : bytesLeft s = bs) (hv : ∀ b ∈ bs, (codeOf s.work.code b).valid = true) :
    encodeLoop bs.length s =
      .ok () (s.ran s.work (s.mem.src.pos + 8 * bs.length) (codesOf s.work.code bs)
        (encodeTxns s.work.code bs ++ [.srcRead 8 .eod])) := by
  induction bs generalizing s with
  | nil => simp [encodeLoop, srcRead_end h hb, encodeTxns, codesOf]
  | cons b bs ih =>
    obtain ⟨hr, hl⟩ := srcRead_byte h hb
    have hvb : (s.work.code[byteIndex b]).valid = true := hv b (by simp)
    rw [List.length_cons, encodeLoop, hr, Res.bind_ok]
    simp only [literal_toNat, putByte, State.ran_work, hvb, if_true]
    rw [putCode_ok (h.ran _ _ _ _) (by simpa using ho), Res.bind_ok]
    simp only [State.ran_ran, State.ran_work, State.ran_src]
    rw [ih (h.ran _ _ _ _) (by simpa using ho) (hl _ _ _) (by simpa using fun b hb => hv b (by simp [hb]))]
    simp [codesOf, encodeTxns, codeOf, Nat.mul_add, Nat.add_assoc, Nat.add_comm 8]

/-- R201: ENCODE's loop up to a literal with no code. -/
theorem encodeLoop_missing {s : State} (h : PortsWork s) (ho : s.mem.snk.closed = false) {bs more : List Byte} {b : Byte}
    (hb : bytesLeft s = bs ++ b :: more) (hv : ∀ b ∈ bs, (codeOf s.work.code b).valid = true)
    (hm : (codeOf s.work.code b).valid = false) :
    encodeLoop (bs ++ b :: more).length s =
      .raise ⟨Kind.ioFault, 4#4, 0#32⟩
        (s.ran s.work (s.mem.src.pos + 8 * (bs.length + 1)) (codesOf s.work.code bs)
          (encodeTxns s.work.code bs ++ [.srcRead 8 (.value b.toNat)])) := by
  induction bs generalizing s with
  | nil =>
    obtain ⟨hr, hl⟩ := srcRead_byte h hb
    have hvb : (s.work.code[byteIndex b]).valid = false := hm
    rw [List.nil_append, List.length_cons, encodeLoop, hr, Res.bind_ok]
    simp only [literal_toNat, putByte, State.ran_work, hvb, Bool.false_eq_true, if_false, Res.bind_raise]
    simp [codesOf, encodeTxns]
  | cons c bs ih =>
    obtain ⟨hr, hl⟩ := srcRead_byte h (by simpa using hb)
    have hvb : (s.work.code[byteIndex c]).valid = true := hv c (by simp)
    rw [List.cons_append, List.length_cons, encodeLoop, hr, Res.bind_ok]
    simp only [literal_toNat, putByte, State.ran_work, hvb, if_true]
    rw [putCode_ok (h.ran _ _ _ _) (by simpa using ho), Res.bind_ok]
    simp only [State.ran_ran, State.ran_work, State.ran_src]
    rw [ih (h.ran _ _ _ _) (by simpa using ho) (hl _ _ _) (by simpa using fun b hb => hv b (by simp [hb]))
        (by simpa using hm)]
    simp [codesOf, encodeTxns, codeOf, Nat.mul_add, Nat.add_assoc, Nat.add_comm 8]

end Sys2Proof.Machine
end

