-- ==== Sys2Proof/Laws/Memory.lean ====
section
/-! SUPPORT. The form of the memory (R40, R65): each change of a stream keeps it, so every memory operation does. -/

namespace Sys2Proof.Machine

open Safety

theorem Memory.wf_iff (m : Memory) :
    m.wf = true ↔ m.src.pos ≤ m.src.bits.length ∧ (m.snk.closed = true → m.snk.bits.length % 8 = 0) := by
  cases h : m.snk.closed <;> simp [Memory.wf, h]

/-- Reset's memory has the form. -/
theorem reset_memory_wf : State.reset.mem.wf = true := by decide

/-! ## The changes of a stream -/

/-- R61: the position moves over bits that are there. -/
theorem wf_read {m : Memory} {n : Nat} (h : m.wf = true) (hn : m.src.pos + n ≤ m.src.bits.length) :
    Memory.wf { m with src := { m.src with pos := m.src.pos + n } } = true := by
  rw [Memory.wf_iff] at h ⊢
  exact ⟨hn, h.2⟩

/-- R63: the position is 0. -/
theorem wf_rewind {m : Memory} (h : m.wf = true) : Memory.wf { m with src := { m.src with pos := 0 } } = true := by
  rw [Memory.wf_iff] at h ⊢
  exact ⟨Nat.zero_le _, h.2⟩

/-- R64: an open sink grows. -/
theorem wf_append {m : Memory} (h : m.wf = true) (ho : m.snk.closed = false) (bits : List Bool) :
    Memory.wf { m with snk := { m.snk with bits := m.snk.bits ++ bits } } = true := by
  rw [Memory.wf_iff] at h ⊢
  exact ⟨h.1, by simp [ho]⟩

/-- R65: a closed sink holds whole bytes. -/
theorem wf_close {m : Memory} (h : m.wf = true) :
    Memory.wf { m with snk := ⟨m.snk.bits ++ List.replicate (padLength m.snk.bits.length) false, true⟩ } = true := by
  rw [Memory.wf_iff] at h ⊢
  exact ⟨h.1, fun _ => by simpa using (padLength_spec m.snk.bits.length).1⟩

/-! ## The operations: in whatever state a part of an operation ends, its memory has the form -/

/-- The memory of the state a result holds, if it holds one, has the form. -/
def Res.MemoryWf {α : Type} : Res α → Prop
  | .ok _ t => t.mem.wf = true
  | .raise _ t => t.mem.wf = true
  | .cut t => t.mem.wf = true
  | .stop _ => True
  | .refuse _ => True

theorem transact_memory {α : Type} {s : State} (h : s.mem.wf = true) {x : Txn} {sub : BitVec 4} {go : State → Res α}
    (hg : (go s.answered).MemoryWf) : (transact x sub go s).MemoryWf := by
  unfold transact
  split
  · trivial
  · split
    · exact hg
    · exact h
    · trivial
    · exact h

theorem srcRead_memory {s : State} (h : s.mem.wf = true) (n : Nat) : (srcRead n s).MemoryWf := by
  refine transact_memory h ?_
  have hp := ((Memory.wf_iff _).1 h).1
  split
  · exact h
  · next hn =>
    simp only [State.answered_mem] at hn
    exact wf_read (m := s.mem) h (by omega)

theorem srcReset_memory {s : State} (h : s.mem.wf = true) : (srcReset s).MemoryWf :=
  transact_memory h (wf_rewind (m := s.mem) h)

theorem snkWrite_memory {s : State} (h : s.mem.wf = true) (n v : Nat) : (snkWrite n v s).MemoryWf := by
  refine transact_memory h ?_
  split
  · trivial
  · next hc => exact wf_append (m := s.mem) h (by simpa using hc) _

theorem snkClose_memory {s : State} (h : s.mem.wf = true) : (snkClose s).MemoryWf :=
  transact_memory h (wf_close (m := s.mem) h)

/-- R272: what the host attaches has the form. -/
theorem attachSrc_memory {s t : State} (h : s.mem.wf = true) {a b : List Bool} (ht : attachSrc a b s = .next t) :
    t.mem.wf = true := by
  cases ht
  rw [Memory.wf_iff] at h ⊢
  exact ⟨by simp, h.2⟩

theorem attachSnk_memory {s t : State} (h : s.mem.wf = true) {b : Bool} (ht : attachSnk b s = .next t) :
    t.mem.wf = true := by
  unfold attachSnk at ht
  split at ht
  · cases ht
  · cases ht
    rw [Memory.wf_iff] at h ⊢
    exact ⟨h.1, by simp⟩

/-- R270: hardware reset leaves the memory. -/
theorem hardReset_memory {s : State} (h : s.mem.wf = true) : s.hardReset.mem.wf = true := h

end Sys2Proof.Machine
end

