-- ==== Sys2Proof/Laws/Frame.lean ====
section
/-! SUPPORT. What every part of an operation keeps, whatever the environment answers, and what a fault, a reset or a stop
tells of the answers (R40, R76, R81, R240, R247): one lemma per shared operation. -/

namespace Sys2Proof.Machine

open Safety

/-- What a part of an operation never changes, and how the streams, the trace and the answers may move. -/
structure Keeps (s t : State) : Prop where
  phase : t.phase = s.phase
  causeKind : t.causeKind = s.causeKind
  causeSub : t.causeSub = s.causeSub
  info : t.info = s.info
  cfg : t.cfg = s.cfg
  inputs : t.inputs = s.inputs
  freeIx : t.freeIx = s.freeIx
  shared : t.mem.shared = s.mem.shared
  srcBits : t.mem.src.bits = s.mem.src.bits
  wf : s.mem.wf = true → t.mem.wf = true
  snkBits : s.mem.snk.bits <+: t.mem.snk.bits
  closed : t.mem.snk.closed = s.mem.snk.closed
  trace : s.trace <:+ t.trace

theorem Keeps.refl {s : State} : Keeps s s :=
  ⟨.refl _, .refl _, .refl _, .refl _, .refl _, .refl _, .refl _, .refl _, .refl _, id, List.prefix_refl _, .refl _,
    List.suffix_refl _⟩

theorem Keeps.trans {s t u : State} (h : Keeps s t) (k : Keeps t u) : Keeps s u where
  phase := k.phase.trans h.phase
  causeKind := k.causeKind.trans h.causeKind
  causeSub := k.causeSub.trans h.causeSub
  info := k.info.trans h.info
  cfg := k.cfg.trans h.cfg
  inputs := k.inputs.trans h.inputs
  freeIx := k.freeIx.trans h.freeIx
  shared := k.shared.trans h.shared
  srcBits := k.srcBits.trans h.srcBits
  wf := fun x => k.wf (h.wf x)
  snkBits := h.snkBits.trans k.snkBits
  closed := k.closed.trans h.closed
  trace := h.trace.trans k.trace

theorem Keeps.setWork {s t : State} (h : Keeps s t) (w : Work) : Keeps s (t.setWork w) :=
  ⟨h.phase, h.causeKind, h.causeSub, h.info, h.cfg, h.inputs, h.freeIx, h.shared, h.srcBits, h.wf, h.snkBits,
    h.closed, h.trace⟩

/-- The answers used between two states were all normal. -/
def UsedOk (s t : State) : Prop :=
  ∃ k, t.answers = s.answers.drop k ∧ ∀ a ∈ s.answers.take k, a = PortAnswer.ok

/-- The answers used were normal but for the last one, which was `a`. -/
def UsedLast (a : PortAnswer) (s t : State) : Prop :=
  ∃ k, t.answers = s.answers.drop (k + 1) ∧ (∀ x ∈ s.answers.take k, x = PortAnswer.ok) ∧ s.answers[k]? = some a

theorem UsedOk.refl {s : State} : UsedOk s s := ⟨0, by simp, by simp⟩

theorem UsedOk.trans {s t u : State} (h : UsedOk s t) (k : UsedOk t u) : UsedOk s u := by
  obtain ⟨m, hm, ha⟩ := h
  obtain ⟨n, hn, hb⟩ := k
  refine ⟨m + n, by rw [hn, hm, List.drop_drop], fun a hx => ?_⟩
  rw [List.take_add, List.mem_append] at hx
  rcases hx with hx | hx
  · exact ha a hx
  · exact hb a (by rw [hm]; exact hx)

theorem UsedOk.transLast {a : PortAnswer} {s t u : State} (h : UsedOk s t) (k : UsedLast a t u) : UsedLast a s u := by
  obtain ⟨m, hm, ha⟩ := h
  obtain ⟨n, hn, hb, hc⟩ := k
  refine ⟨m + n, by rw [hn, hm, List.drop_drop, Nat.add_assoc], fun a hx => ?_, ?_⟩
  · rw [List.take_add, List.mem_append] at hx
    rcases hx with hx | hx
    · exact ha a hx
    · exact hb a (by rw [hm]; exact hx)
  · rw [hm, List.getElem?_drop] at hc
    exact hc

/-- R81, R244: the transaction that failed is the newest of the trace, and the fault is IoFault with its sub-cause. -/
def FailedAt (r : Raise) (t : State) : Prop :=
  r.kind = Kind.ioFault ∧ r.info = 0#32 ∧ ∃ x l, t.trace = x :: l ∧ failedSub x = some r.sub

/-- What holds of the result of a part of an operation begun in `s`; it may be refused only for a reason in `R`, or because one
stream stands at both ports. -/
def Res.Meets {α : Type} (s : State) (R : Refusal → Prop) : Res α → Prop
  | .ok _ t => Keeps s t ∧ UsedOk s t
  | .raise r t =>
    Keeps s t ∧ legalCause r.kind r.sub = true ∧ (UsedOk s t ∨ (UsedLast .ioFail s t ∧ FailedAt r t))
  | .cut t => Keeps s t ∧ UsedLast .reset s t
  | .stop _ => PortAnswer.never ∈ s.answers
  | .refuse r => R r ∨ (r = .sharedStream ∧ s.mem.shared = true)

theorem Res.Meets.mono {α : Type} {s t : State} {R : Refusal → Prop} {x : Res α} (hk : Keeps s t) (hu : UsedOk s t)
    (h : x.Meets t R) : x.Meets s R := by
  cases x with
  | ok a u => exact ⟨hk.trans h.1, hu.trans h.2⟩
  | raise r u => exact ⟨hk.trans h.1, h.2.1, h.2.2.imp hu.trans fun h => ⟨hu.transLast h.1, h.2⟩⟩
  | cut u => exact ⟨hk.trans h.1, hu.transLast h.2⟩
  | stop e =>
    obtain ⟨k, hm, -⟩ := hu
    change PortAnswer.never ∈ t.answers at h
    rw [hm] at h
    exact List.mem_of_mem_drop h
  | refuse r => exact h.imp id fun h => ⟨h.1, hk.shared ▸ h.2⟩

theorem Res.Meets.bind {α β : Type} {s : State} {R : Refusal → Prop} {x : Res α} {f : α → State → Res β}
    (h : x.Meets s R) (hf : ∀ a t, Keeps s t → UsedOk s t → (f a t).Meets t R) : (x.bind f).Meets s R := by
  cases x with
  | ok a t => exact (hf a t h.1 h.2).mono h.1 h.2
  | raise r t => exact h
  | cut t => exact h
  | stop e => exact h
  | refuse r => exact h

/-- The same for a part whose state has other stores. -/
theorem Res.Meets.setWork {α : Type} {s : State} {w : Work} {R : Refusal → Prop} {x : Res α}
    (h : x.Meets (s.setWork w) R) : x.Meets s R :=
  h.mono (Keeps.refl.setWork w) ⟨0, by simp, by simp⟩

theorem Res.meets_ok {α : Type} (a : α) (s : State) (w : Work) (R : Refusal → Prop) :
    (Res.ok a (s.setWork w)).Meets s R :=
  ⟨Keeps.refl.setWork w, ⟨0, by simp, by simp⟩⟩

theorem Res.meets_ok_self {α : Type} (a : α) (s : State) (R : Refusal → Prop) : (Res.ok a s).Meets s R :=
  ⟨Keeps.refl, UsedOk.refl⟩

theorem Res.meets_raise {α : Type} (r : Raise) (s : State) (R : Refusal → Prop)
    (h : legalCause r.kind r.sub = true) : (Res.raise r s : Res α).Meets s R :=
  ⟨Keeps.refl, h, .inl UsedOk.refl⟩

/-! ## The primitives -/

theorem State.answer_ok {s : State} (h : s.answer = .ok) : UsedOk s s.answered := by
  refine ⟨1, by simp, fun a ha => ?_⟩
  unfold State.answer at h
  cases hs : s.answers with
  | nil => simp [hs] at ha
  | cons b l => simp_all

theorem State.answer_last {s : State} {a : PortAnswer} (h : s.answer = a) (ha : a ≠ .ok) : UsedLast a s s.answered := by
  unfold State.answer at h
  refine ⟨0, by simp, by simp, ?_⟩
  cases hs : s.answers with
  | nil => rw [hs] at h; exact absurd h.symm ha
  | cons b l => simp_all

theorem State.answer_never {s : State} (h : s.answer = .never) : PortAnswer.never ∈ s.answers := by
  unfold State.answer at h
  cases hs : s.answers with
  | nil => rw [hs] at h; cases h
  | cons b l => simp_all

theorem Keeps.answered {s : State} : Keeps s s.answered :=
  ⟨rfl, rfl, rfl, rfl, rfl, rfl, rfl, rfl, rfl, id, List.prefix_refl _, rfl, List.suffix_refl _⟩

/-- R72, R81: a transaction keeps what its normal effect keeps. -/
theorem transact_meets {α : Type} {s : State} {R : Refusal → Prop} {x : Txn} {sub : BitVec 4} {go : State → Res α}
    (hx : failedSub x = some sub) (hl : sub.toNat ≤ 4) (h : (go s.answered).Meets s.answered R) :
    (transact x sub go s).Meets s R := by
  unfold transact
  split
  · next hs => exact .inr ⟨rfl, hs⟩
  cases ha : s.answer with
  | ok => exact h.mono Keeps.answered (s.answer_ok ha)
  | ioFail =>
    refine ⟨Keeps.answered.trans ⟨rfl, rfl, rfl, rfl, rfl, rfl, rfl, rfl, rfl, id, List.prefix_refl _, rfl,
      List.suffix_cons _ _⟩, ?_, .inr ⟨s.answer_last ha (by simp), rfl, rfl, x, s.trace, rfl, hx⟩⟩
    simpa [legalCause] using hl
  | never => exact s.answer_never ha
  | reset => exact ⟨Keeps.answered, s.answer_last ha (by simp)⟩

theorem srcRead_meets (n : Nat) (s : State) (R : Refusal → Prop) : (srcRead n s).Meets s R := by
  unfold srcRead
  refine transact_meets rfl (by simp) ?_
  split
  · exact ⟨⟨rfl, rfl, rfl, rfl, rfl, rfl, rfl, rfl, rfl, id, List.prefix_refl _, rfl, List.suffix_cons _ _⟩,
      ⟨0, by simp, by simp⟩⟩
  · next hn =>
    refine ⟨⟨rfl, rfl, rfl, rfl, rfl, rfl, rfl, rfl, rfl, fun hp => ?_, List.prefix_refl _, rfl,
      List.suffix_cons _ _⟩, ⟨0, by simp, by simp⟩⟩
    simp only [State.answered_mem] at hn hp ⊢
    exact wf_read hp (by have := ((Memory.wf_iff _).1 hp).1; omega)

theorem srcReset_meets (s : State) (R : Refusal → Prop) : (srcReset s).Meets s R := by
  unfold srcReset
  refine transact_meets rfl (by simp) ?_
  exact ⟨⟨rfl, rfl, rfl, rfl, rfl, rfl, rfl, rfl, rfl, wf_rewind, List.prefix_refl _, rfl,
    List.suffix_cons _ _⟩, ⟨0, by simp, by simp⟩⟩

theorem snkWrite_meets (n v : Nat) (s : State) (R : Refusal → Prop) (h : s.mem.snk.closed = true → R .sinkClosed) :
    (snkWrite n v s).Meets s R := by
  unfold snkWrite
  refine transact_meets rfl (by simp) ?_
  split
  · next hc => exact .inl (h hc)
  · next hc =>
    exact ⟨⟨rfl, rfl, rfl, rfl, rfl, rfl, rfl, rfl, rfl, fun h => wf_append h (by simpa using hc) _,
      List.prefix_append _ _, rfl, List.suffix_cons _ _⟩, ⟨0, by simp, by simp⟩⟩

/-! ## The parts of operations -/

theorem readFlag_meets (s : State) (R : Refusal → Prop) : (readFlag s).Meets s R := by
  refine (srcRead_meets 1 s R).bind fun f t _ _ => ?_
  cases f with
  | none => exact Res.meets_raise _ _ _ rfl
  | some v =>
    simp only
    split
    · exact Res.meets_raise _ _ _ rfl
    · exact Res.meets_ok _ _ _ _

theorem readSym_meets (s : State) (R : Refusal → Prop) : (readSym s).Meets s R := by
  refine (srcRead_meets 9 s R).bind fun f t _ _ => ?_
  cases f with
  | none => exact Res.meets_raise _ _ _ rfl
  | some v => exact Res.meets_ok_self _ _ _

theorem writeLeaf_meets (x : Sym) (s : State) (R : Refusal → Prop) (h : s.mem.snk.closed = true → R .sinkClosed) :
    (writeLeaf x s).Meets s R :=
  (snkWrite_meets _ _ s R h).bind fun _ _ k _ => snkWrite_meets _ _ _ _ (by rw [k.closed]; exact h)

theorem putCode_meets (bits : List Bool) (s : State) (R : Refusal → Prop) (h : s.mem.snk.closed = true → R .sinkClosed) :
    (putCode bits s).Meets s R := by
  induction bits generalizing s with
  | nil => exact Res.meets_ok_self _ _ _
  | cons b bits ih => exact (snkWrite_meets _ _ s R h).bind fun _ t k _ => ih t (by rw [k.closed]; exact h)

theorem decodeBit_meets (root : Tree) (s : State) (R : Refusal → Prop) : (decodeBit root s).Meets s R := by
  refine (srcRead_meets 1 s R).bind fun b t _ _ => ?_
  cases b with
  | none => exact Res.meets_raise _ _ _ rfl
  | some v => exact Res.meets_ok _ _ _ _

theorem putLiteral_meets (root : Tree) (x : Sym) (s : State) (R : Refusal → Prop)
    (h : s.mem.snk.closed = true → R .sinkClosed) : (putLiteral root x s).Meets s R :=
  (snkWrite_meets _ _ s R h).bind fun _ _ _ _ => Res.meets_ok _ _ _ _

theorem countLoop_meets (n : Nat) (s : State) (R : Refusal → Prop) : (countLoop n s).Meets s R := by
  induction n generalizing s with
  | zero => exact (srcRead_meets 8 s R).bind fun _ _ _ _ => Res.meets_ok_self _ _ _
  | succ n ih =>
    refine (srcRead_meets 8 s R).bind fun r t _ _ => ?_
    cases r with
    | none => exact Res.meets_ok_self _ _ _
    | some v =>
      simp only
      split
      · exact Res.meets_raise _ _ _ rfl
      · exact (ih _).setWork

theorem putByte_meets (b : Byte) (s : State) (R : Refusal → Prop) (h : s.mem.snk.closed = true → R .sinkClosed) :
    (putByte b s).Meets s R := by
  unfold putByte
  split
  · exact putCode_meets _ _ _ h
  · exact Res.meets_raise _ _ _ rfl

theorem encodeLoop_meets (n : Nat) (s : State) (R : Refusal → Prop) (h : s.mem.snk.closed = true → R .sinkClosed) :
    (encodeLoop n s).Meets s R := by
  induction n generalizing s with
  | zero => exact (srcRead_meets 8 s R).bind fun _ _ _ _ => Res.meets_ok_self _ _ _
  | succ n ih =>
    refine (srcRead_meets 8 s R).bind fun r t k _ => ?_
    have ht : t.mem.snk.closed = true → R .sinkClosed := by rw [k.closed]; exact h
    cases r with
    | none => exact Res.meets_ok_self _ _ _
    | some v => exact (putByte_meets _ t R ht).bind fun _ u k' _ => ih u (by rw [k'.closed]; exact ht)

theorem emitTree_meets (t : Tree) (s : State) (R : Refusal → Prop) (h : s.mem.snk.closed = true → R .sinkClosed) :
    (emitTree t s).Meets s R := by
  induction t generalizing s with
  | leaf x w => exact writeLeaf_meets _ _ _ h
  | internal w l r ihl ihr =>
    refine (snkWrite_meets _ _ s R h).bind fun _ s1 k1 _ => ?_
    have h1 : s1.mem.snk.closed = true → R .sinkClosed := by rw [k1.closed]; exact h
    refine (ihl (s1.setWork (s1.work.push (some (Tree.internal w l r)))) h1).setWork.bind fun _ s2 k2 _ => ?_
    have h2 : s2.mem.snk.closed = true → R .sinkClosed := by rw [k2.closed]; exact h1
    exact (ihr (s2.setWork (s2.work.turn (some (Tree.internal w l r)))) h2).setWork.bind fun _ _ _ _ => Res.meets_ok _ _ _ _

theorem parseTree_meets (n : Nat) (s : State) (R : Refusal → Prop) : (parseTree n s).Meets s R := by
  induction n generalizing s with
  | zero => exact (readFlag_meets s R).bind fun _ _ _ _ => Res.meets_raise _ _ _ rfl
  | succ n ih =>
    refine (readFlag_meets s R).bind fun leaf t _ _ => ?_
    split
    · exact (readSym_meets t R).bind fun _ _ _ _ => Res.meets_ok_self _ _ _
    · exact (ih _).setWork.bind fun _ _ _ _ => (ih _).setWork.bind fun _ _ _ _ => Res.meets_ok _ _ _ _

theorem decodeLoop_meets (root : Tree) (n : Nat) (s : State) (R : Refusal → Prop)
    (h : s.mem.snk.closed = true → R .sinkClosed) : (decodeLoop root n s).Meets s R := by
  induction n generalizing s with
  | zero => exact (decodeBit_meets root s R).bind fun _ _ _ _ => Res.meets_raise _ _ _ rfl
  | succ n ih =>
    refine (decodeBit_meets root s R).bind fun o t k _ => ?_
    have ht : t.mem.snk.closed = true → R .sinkClosed := by rw [k.closed]; exact h
    cases o with
    | inside => exact ih t ht
    | eos => exact Res.meets_ok_self _ _ _
    | symbol x => exact (putLiteral_meets root x t R ht).bind fun _ u k' _ => ih u (by rw [k'.closed]; exact ht)

theorem checkMagic_meets (s : State) (R : Refusal → Prop) : (checkMagic s).Meets s R := by
  refine (srcRead_meets 32 s R).bind fun m t _ _ => ?_
  cases m with
  | none => exact Res.meets_raise _ _ _ rfl
  | some v =>
    simp only
    split
    · exact Res.meets_ok_self _ _ _
    · exact Res.meets_raise _ _ _ rfl

theorem walkCode_meets (root : Tree) (n : Nat) (s : State) (R : Refusal → Prop) : (walkCode root n s).Meets s R := by
  induction n generalizing s with
  | zero => exact (decodeBit_meets root s R).bind fun _ _ _ _ => Res.meets_raise _ _ _ rfl
  | succ n ih =>
    refine (decodeBit_meets root s R).bind fun o t _ _ => ?_
    cases o with
    | inside => exact ih t
    | eos => exact Res.meets_ok_self _ _ _
    | symbol x => exact Res.meets_ok_self _ _ _

theorem readCode_meets (s : State) (R : Refusal → Prop) (h : R .noTree) : (readCode s).Meets s R := by
  unfold readCode
  split
  · exact .inl h
  · split
    · exact Res.meets_ok_self _ _ _
    · exact Res.meets_raise _ _ _ rfl
  · exact (walkCode_meets _ _ _ _).setWork

theorem readInternal_meets (s : State) (R : Refusal → Prop) (h : R .recordMismatch) : (readInternal s).Meets s R := by
  refine (readFlag_meets s R).bind fun leaf t _ _ => ?_
  split
  · exact .inl h
  · exact Res.meets_ok _ _ _ _

theorem readLeaf_meets (x : Sym) (s : State) (R : Refusal → Prop) (h : R .recordMismatch) : (readLeaf x s).Meets s R := by
  refine (readFlag_meets s R).bind fun leaf t _ _ => ?_
  split
  · refine (readSym_meets t R).bind fun y u _ _ => ?_
    split
    · exact Res.meets_ok _ _ _ _
    · exact .inl h
  · exact .inl h

theorem readByte_meets (b : Byte) (s : State) (R : Refusal → Prop) (h : R .recordMismatch) (hn : R .noTree)
    (hc : s.mem.snk.closed = true → R .sinkClosed) : (readByte b s).Meets s R := by
  refine (readCode_meets s R hn).bind fun o t k _ => ?_
  cases o with
  | inside => exact .inl h
  | eos => exact .inl h
  | symbol x =>
    simp only
    split
    · exact putLiteral_meets _ _ _ _ (by rw [k.closed]; exact hc)
    · exact .inl h

theorem readEos_meets (s : State) (R : Refusal → Prop) (h : R .recordMismatch) (hn : R .noTree) :
    (readEos s).Meets s R := by
  refine (readCode_meets s R hn).bind fun o t _ _ => ?_
  cases o with
  | inside => exact .inl h
  | eos => exact Res.meets_ok_self _ _ _
  | symbol x => exact .inl h

end Sys2Proof.Machine
end

