-- ==== Sys2Proof/Laws/Exec.lean ====
section
/-! SUPPORT. Every instruction that reaches a port is one part of an operation that keeps what parts keep (Frame.lean),
followed at most by a change of PHASE or by completion: what its next states can be, said once. -/

namespace Sys2Proof.Machine

open Safety

/-! ## Results, taken apart -/

theorem Res.bind_eq_ok {α β : Type} {x : Res α} {f : α → State → Res β} {b : β} {t : State}
    (h : x.bind f = .ok b t) : ∃ a u, x = .ok a u ∧ f a u = .ok b t := by
  cases x with
  | ok a u => exact ⟨a, u, rfl, h⟩
  | raise => cases h
  | cut => cases h
  | stop => cases h
  | refuse => cases h

/-- The phase an operation hands over to, where it completes. -/
theorem thenPhase_next {x : Res Unit} {p : BitVec 4} {t : State} (h : x.thenPhase p = .next t) (ht : t.phase = p)
    (hf : p ≠ Phase.fault) (hi : p ≠ Phase.idle) : ∃ u, x = .ok () u ∧ t = u.setPhase p := by
  cases x with
  | ok a u => cases h; exact ⟨u, rfl, rfl⟩
  | raise r u => cases h; exact absurd ht.symm hf
  | cut u => cases h; exact absurd ht.symm hi
  | stop => cases h
  | refuse => cases h

theorem transact_eq_ok {α : Type} {x : Txn} {sub : BitVec 4} {go : State → Res α} {s t : State} {a : α}
    (h : transact x sub go s = .ok a t) : go s.answered = .ok a t := by
  unfold transact at h
  split at h
  · cases h
  · split at h
    · exact h
    all_goals cases h

/-- R61: what a read that is answered tells, whatever other transactions do. -/
theorem srcRead_eq_ok {n : Nat} {s t : State} {r : Option Nat} (h : srcRead n s = .ok r t) :
    t.work = s.work ∧ t.cfg = s.cfg ∧ t.mem.snk = s.mem.snk ∧
      ((s.mem.src.rest.length < n ∧ r = none ∧ t.mem.src = s.mem.src ∧ t.trace = .srcRead n .eod :: s.trace) ∨
       (n ≤ s.mem.src.rest.length ∧ r = some (valOf (s.mem.src.rest.take n)) ∧
        t.mem.src.rest = s.mem.src.rest.drop n ∧
        t.trace = .srcRead n (.value (valOf (s.mem.src.rest.take n))) :: s.trace)) := by
  have := transact_eq_ok h
  by_cases hn : s.answered.mem.src.bits.length - s.answered.mem.src.pos < n
  · rw [if_pos hn] at this
    cases this
    exact ⟨rfl, rfl, rfl, .inl ⟨by simpa [Source.rest] using hn, rfl, rfl, rfl⟩⟩
  · rw [if_neg hn] at this
    cases this
    refine ⟨rfl, rfl, rfl, .inr ⟨by simpa [Source.rest] using hn, rfl, ?_, rfl⟩⟩
    simp [Source.rest, List.drop_drop]

/-- R64: what a write that is answered tells. -/
theorem snkWrite_eq_ok {n v : Nat} {s t : State} {a : Unit} (h : snkWrite n v s = .ok a t) :
    t.work = s.work ∧ t.mem.src = s.mem.src := by
  have := transact_eq_ok h
  by_cases hn : s.answered.mem.snk.closed = true
  · rw [if_pos hn] at this; cases this
  · rw [if_neg hn] at this; cases this; exact ⟨rfl, rfl⟩

/-! ## Every instruction that reaches a port -/

/-- An instruction is a part `x` of an operation and then the change `g`. -/
def ExecAs (i : Instr) (s : State) (x : Res Unit) (g : State → State) : Prop :=
  exec i s = (x.bind fun _ u => .ok () (g u)).outcome

theorem outcome_as (x : Res Unit) : x.outcome = (x.bind fun _ u => .ok () (id u)).outcome := by
  cases x <;> rfl

theorem phase_ne_leaf (y : Sym) (p : BitVec 4) : decodePhase p ≠ .wireNodeLeaf y := by
  unfold decodePhase; split <;> simp
theorem phase_ne_code (b : Byte) (p : BitVec 4) : decodePhase p ≠ .wireCode b := by
  unfold decodePhase; split <;> simp
theorem phase_ne_write (n : Nat) (v : Word) (p : BitVec 4) : decodePhase p ≠ .snkWrite n v := by
  unfold decodePhase; split <;> simp

/-- Every instruction that reaches a port and closes nothing is a part that keeps what parts keep, and then at most a change
of PHASE, to the successor of the phase it is the operation of. Refusals: an operation is refused only on one shared stream,
for a closed sink or for want of a tree; a record also for not being the one that stands there; a port transaction for its width. -/
theorem exec_form (i : Instr) (s : State) (R : Refusal → Prop) (hn : usesNoPort i = false)
    (hc : i ≠ .close ∧ i ≠ .snkClose ∧ i ≠ .wirePadding)
    (hclosed : s.mem.snk.closed = true → R .sinkClosed) (htree : s.work.tree = none → R .noTree)
    (hR : (∃ p, decodePhase p = i) ∨ ∀ r, R r) :
    ∃ x g, ExecAs i s x g ∧ x.Meets s R ∧
      (g = id ∨ ∃ p, decodePhase p = i ∧ g = fun u => u.setPhase (successor p)) := by
  have all (h : ∀ p, decodePhase p ≠ i) : ∀ r, R r := by
    rcases hR with ⟨p, hp⟩ | hR
    · exact absurd hp (h p)
    · exact hR
  have open' {t : State} (k : Keeps s t) : t.mem.snk.closed = true → R .sinkClosed := by rw [k.closed]; exact hclosed
  cases i with
  | cmdNop | compress | decompress | cmdReserved | idle | build | gencodes | phaseC | phaseD | done | fault | pqInsert _
    | pqRemoveMin => cases hn
  | close => exact absurd rfl hc.1
  | snkClose => exact absurd rfl hc.2.1
  | wirePadding => exact absurd rfl hc.2.2
  | count =>
    exact ⟨_, _, rfl, (countLoop_meets _ _ _).setWork.bind fun _ _ _ _ => Res.meets_ok _ _ _ _,
      .inr ⟨Phase.count, rfl, rfl⟩⟩
  | wrmagic => exact ⟨_, _, rfl, snkWrite_meets _ _ _ _ hclosed, .inr ⟨Phase.wrmagic, rfl, rfl⟩⟩
  | wrhdr =>
    cases ht : s.work.tree with
    | none => exact ⟨.refuse .noTree, id, by simp [ExecAs, exec, execWrhdr, ht], .inl (htree ht), .inl rfl⟩
    | some t =>
      exact ⟨emitTree t s, fun u => u.setPhase (successor Phase.wrhdr),
        by simp only [ExecAs, exec, execWrhdr, ht]; rfl, emitTree_meets _ _ _ hclosed, .inr ⟨Phase.wrhdr, rfl, rfl⟩⟩
  | rewind => exact ⟨_, _, rfl, srcReset_meets _ _, .inr ⟨Phase.rewind, rfl, rfl⟩⟩
  | encode =>
    exact ⟨_, _, rfl, (encodeLoop_meets _ _ _ hclosed).bind fun _ _ k _ => putCode_meets _ _ _ (open' k),
      .inr ⟨Phase.encode, rfl, rfl⟩⟩
  | chkmagic => exact ⟨_, _, rfl, checkMagic_meets _ _, .inr ⟨Phase.chkmagic, rfl, rfl⟩⟩
  | rdhdr =>
    exact ⟨_, _, rfl, (parseTree_meets _ _ _).setWork.bind fun _ _ _ _ => Res.meets_ok _ _ _ _,
      .inr ⟨Phase.rdhdr, rfl, rfl⟩⟩
  | decode =>
    cases ht : s.work.tree with
    | none => exact ⟨.refuse .noTree, id, by simp [ExecAs, exec, execDecode, ht], .inl (htree ht), .inl rfl⟩
    | some t =>
      cases t with
      | leaf x w =>
        by_cases hx : x = Config.eos
        · exact ⟨.ok () s, fun u => u.setPhase (successor Phase.decode),
            by simp only [ExecAs, exec, execDecode, ht, hx, if_true]; rfl, Res.meets_ok_self _ _ _,
            .inr ⟨Phase.decode, rfl, rfl⟩⟩
        · exact ⟨.raise ⟨Kind.corruptHeader, 2#4, x.setWidth 32⟩ s, id,
            by simp only [ExecAs, exec, execDecode, ht, if_neg hx]; rfl, Res.meets_raise _ _ _ rfl, .inl rfl⟩
      | internal w l r =>
        refine ⟨decodeLoop (.internal w l r) s.mem.src.rest.length
          (s.setWork { s.work with cur := some (.internal w l r) }), fun u => u.setPhase (successor Phase.decode), ?_,
          (decodeLoop_meets _ _ (s.setWork { s.work with cur := some (.internal w l r) }) _ hclosed).setWork, .inr ⟨Phase.decode, rfl, rfl⟩⟩
        show execDecode s = _
        unfold execDecode
        rw [ht]
        rfl
  | wireMagic =>
    by_cases hp : s.phase = Phase.chkmagic
    · exact ⟨checkMagic s, id, by simp only [ExecAs, exec, execWireMagic, hp, if_true]; exact outcome_as _,
        checkMagic_meets _ _, .inl rfl⟩
    · exact ⟨writeMagic s, id, by simp only [ExecAs, exec, execWireMagic, if_neg hp]; exact outcome_as _,
        snkWrite_meets _ _ _ _ hclosed, .inl rfl⟩
  | wireNodeInternal =>
    by_cases hp : s.phase = Phase.rdhdr
    · exact ⟨readInternal s, id, by simp only [ExecAs, exec, execWireNodeInternal, hp, if_true]; exact outcome_as _,
        readInternal_meets _ _ (all (by decide) _), .inl rfl⟩
    · exact ⟨writeInternal s, id, by simp only [ExecAs, exec, execWireNodeInternal, if_neg hp]; exact outcome_as _,
        snkWrite_meets _ _ _ _ hclosed, .inl rfl⟩
  | wireNodeLeaf y =>
    by_cases hp : s.phase = Phase.rdhdr
    · exact ⟨readLeaf y s, id, by simp only [ExecAs, exec, execWireNodeLeaf, hp, if_true]; exact outcome_as _,
        readLeaf_meets _ _ _ (all (phase_ne_leaf y) _), .inl rfl⟩
    · exact ⟨writeLeaf y s, id, by simp only [ExecAs, exec, execWireNodeLeaf, if_neg hp]; exact outcome_as _,
        writeLeaf_meets _ _ _ hclosed, .inl rfl⟩
  | wireCode b =>
    by_cases hp : s.phase = Phase.decode
    · exact ⟨readByte b s, id, by simp only [ExecAs, exec, execWireCode, hp, if_true]; exact outcome_as _,
        readByte_meets _ _ _ (all (phase_ne_code b) _) (all (phase_ne_code b) _) hclosed, .inl rfl⟩
    · exact ⟨putByte b s, id, by simp only [ExecAs, exec, execWireCode, if_neg hp]; exact outcome_as _,
        putByte_meets _ _ _ hclosed, .inl rfl⟩
  | wireEosCode =>
    by_cases hp : s.phase = Phase.decode
    · exact ⟨readEos s, id, by simp only [ExecAs, exec, execWireEosCode, hp, if_true]; exact outcome_as _,
        readEos_meets _ _ (all (by decide) _) (all (by decide) _), .inl rfl⟩
    · exact ⟨putEos s, id, by simp only [ExecAs, exec, execWireEosCode, if_neg hp]; exact outcome_as _,
        putCode_meets _ _ _ hclosed, .inl rfl⟩
  | srcRead n =>
    exact ⟨(srcRead n s).bind fun _ s => .ok () s, id, outcome_as _,
      (srcRead_meets _ _ _).bind fun _ _ _ _ => Res.meets_ok_self _ _ _, .inl rfl⟩
  | srcReset => exact ⟨srcReset s, id, outcome_as _, srcReset_meets _ _, .inl rfl⟩
  | snkWrite n v =>
    by_cases hw : writeWidthOk n = true
    · exact ⟨snkWrite n v.toNat s, id, by simp only [ExecAs, exec, execSnkWrite, hw, if_true]; exact outcome_as _,
        snkWrite_meets _ _ _ _ hclosed, .inl rfl⟩
    · exact ⟨.refuse .widthOutOfRange, id, by simp only [ExecAs, exec, execSnkWrite, if_neg hw]; rfl,
        .inl (all (phase_ne_write n v) _), .inl rfl⟩

/-- The three instructions that close the sink. -/
theorem exec_closing (i : Instr) (s : State) (h : i = .close ∨ i = .snkClose ∨ i = .wirePadding) :
    (i = .wirePadding ∧ s.phase = Phase.decode ∧ exec i s = .next s) ∨
      ∃ g, ExecAs i s (snkClose s) g ∧ (i = .close ∧ g = State.complete ∨ i ≠ .close ∧ g = id) := by
  rcases h with rfl | rfl | rfl
  · exact .inr ⟨State.complete, rfl, .inl ⟨rfl, rfl⟩⟩
  · exact .inr ⟨id, outcome_as _, .inr ⟨by simp, rfl⟩⟩
  · by_cases hp : s.phase = Phase.decode
    · exact .inl ⟨rfl, hp, by simp [exec, execWirePadding, hp]⟩
    · exact .inr ⟨id, by simp only [ExecAs, exec, execWirePadding, if_neg hp]; exact outcome_as _,
        .inr ⟨by simp, rfl⟩⟩

/-- What an instruction's next state can be. -/
theorem ExecAs.next {i : Instr} {s t : State} {x : Res Unit} {g : State → State} (h : ExecAs i s x g)
    (ht : exec i s = .next t) :
    (∃ u, x = .ok () u ∧ t = g u) ∨ (∃ r u, x = .raise r u ∧ t = u.enterFault r) ∨
      ∃ u, x = .cut u ∧ t = u.hardReset := by
  rw [h] at ht
  cases x with
  | ok a u => cases ht; exact .inl ⟨u, rfl, rfl⟩
  | raise r u => cases ht; exact .inr (.inl ⟨r, u, rfl, rfl⟩)
  | cut u => cases ht; exact .inr (.inr ⟨u, rfl, rfl⟩)
  | stop => cases ht
  | refuse => cases ht

theorem ExecAs.fault {i : Instr} {s : State} {x : Res Unit} {g : State → State} {e : Fault} (h : ExecAs i s x g)
    (ht : exec i s = .fault e) : x = .stop e := by
  rw [h] at ht
  cases x with
  | ok a u => cases ht
  | raise r u => cases ht
  | cut u => cases ht
  | stop => cases ht; rfl
  | refuse => cases ht

theorem ExecAs.refused {i : Instr} {s : State} {x : Res Unit} {g : State → State} {r : Refusal} (h : ExecAs i s x g)
    (ht : exec i s = .refused r) : x = .refuse r := by
  rw [h] at ht
  cases x with
  | ok a u => cases ht
  | raise r u => cases ht
  | cut u => cases ht
  | stop => cases ht
  | refuse => cases ht; rfl

/-- R65, R83: how SnkClose ends. -/
theorem snkClose_cases (s : State) :
    (s.mem.shared = true ∧ snkClose s = .refuse .sharedStream) ∨
    (s.answer = .ok ∧ snkClose s =
      .ok () ((s.answered.setSnk
        ⟨s.mem.snk.bits ++ List.replicate (padLength s.mem.snk.bits.length) false, true⟩).log (.snkClose true))) ∨
    (s.answer = .ioFail ∧ snkClose s = .raise ⟨Kind.ioFault, 3#4, 0#32⟩ (s.answered.log (.snkClose false))) ∨
    (s.answer = .never ∧ snkClose s = .stop .portNeverAnswers) ∨
    (s.answer = .reset ∧ snkClose s = .cut s.answered) := by
  unfold snkClose transact
  cases hs : s.mem.shared <;> cases h : s.answer <;> simp

/-! ## The instructions that reach no port -/

/-- An instruction that makes no port transaction does nothing, or starts a command, or changes the stores and at most PHASE. -/
theorem exec_noPort (i : Instr) (s t : State) (hn : usesNoPort i = true) (h : exec i s = .next t) :
    t = s ∨
    (∃ p, (i = .compress ∧ p = Phase.count ∨ i = .decompress ∧ p = Phase.chkmagic) ∧
      t = (s.setCause 0#3 0#4 0#32).setPhase p) ∨
    (∃ w, (i = .pqRemoveMin ∨ ∃ t, i = .pqInsert t) ∧ t = s.setWork w) ∨
    (∃ w p n, (i = .build ∧ p = Phase.gencodes ∨ i = .gencodes ∧ p = Phase.wrmagic) ∧
      t = { (s.setWork w).setPhase p with freeIx := n }) := by
  cases i with
  | cmdNop | cmdReserved | idle | done | fault => cases h; exact .inl rfl
  | compress =>
    simp only [exec, execCompress, acceptCommand] at h
    split at h
    · cases h; exact .inl rfl
    · split at h
      · cases h
      · split at h
        · cases h
        · cases h; exact .inr (.inl ⟨_, .inl ⟨rfl, rfl⟩, rfl⟩)
  | decompress =>
    simp only [exec, execDecompress, acceptCommand] at h
    split at h
    · cases h; exact .inl rfl
    · split at h
      · cases h
      · split at h
        · cases h
        · cases h; exact .inr (.inl ⟨_, .inr ⟨rfl, rfl⟩, rfl⟩)
  | phaseC | phaseD => cases h
  | pqInsert x => cases h; exact .inr (.inr (.inl ⟨_, .inr ⟨x, rfl⟩, rfl⟩))
  | pqRemoveMin =>
    simp only [exec, execPqRemoveMin] at h
    split at h
    · cases h
    · cases h; exact .inr (.inr (.inl ⟨_, .inl rfl, rfl⟩))
  | build =>
    simp only [exec, execBuild] at h
    split at h
    · cases h
    · cases h; exact .inr (.inr (.inr ⟨_, _, s.freeIx, .inl ⟨rfl, rfl⟩, rfl⟩))
  | gencodes =>
    simp only [exec, execGencodes] at h
    split at h
    · cases h
    · cases h
      split <;> exact .inr (.inr (.inr ⟨_, _, _, .inr ⟨rfl, rfl⟩, rfl⟩))
  | count | wrmagic | wrhdr | rewind | encode | close | chkmagic | rdhdr | decode | wireMagic | wireNodeInternal
    | wireNodeLeaf _ | wireCode _ | wireEosCode | wirePadding | srcRead _ | srcReset | snkWrite _ _ | snkClose => cases hn

/-! ## The answers used -/

/-- The answers used, where all were normal. -/
theorem used_of_ok {s t : State} (h : UsedOk s t) :
    t.answers = s.answers.drop (answersUsed s t).length ∧ ∀ a ∈ answersUsed s t, a = .ok := by
  obtain ⟨k, h1, h2⟩ := h
  have hl : t.answers.length = s.answers.length - k := by rw [h1]; simp
  unfold answersUsed
  rw [hl]
  constructor
  · rw [h1]; simp only [List.length_take]
    by_cases hk : k ≤ s.answers.length
    · congr 1; omega
    · rw [List.drop_eq_nil_of_le (by omega), List.drop_eq_nil_of_le (by omega)]
  · intro a ha
    exact h2 a (List.take_subset_take_left _ (by omega) ha)

/-- The answers used, where the last one was not normal. -/
theorem used_of_last {s t : State} {a : PortAnswer} (h : UsedLast a s t) :
    t.answers = s.answers.drop (answersUsed s t).length ∧
      (∀ a ∈ (answersUsed s t).dropLast, a = .ok) ∧ (answersUsed s t).getLast? = some a := by
  obtain ⟨k, h1, h2, h3⟩ := h
  have hk : k < s.answers.length := by rw [List.getElem?_eq_some_iff] at h3; exact h3.1
  have hl : t.answers.length = s.answers.length - (k+1) := by rw [h1]; simp
  have hu : answersUsed s t = s.answers.take (k+1) := by unfold answersUsed; rw [hl]; congr 1; omega
  rw [hu]
  refine ⟨by rw [h1]; congr 1; simp; omega, ?_, ?_⟩
  · rw [List.dropLast_eq_take, List.take_take, List.length_take]
    exact fun x hx => h2 x (List.take_subset_take_left _ (by omega) hx)
  · rw [List.getLast?_take]; simp [h3]

end Sys2Proof.Machine
end

