-- ==== Sys2Proof/Laws/Counts.lean ====
section
/-! SUPPORT. The counters COUNT leaves whenever it completes, whatever the ports did (R144). -/

namespace Sys2Proof.Machine

open Safety

/-- R140: a completed loop has counted the bytes that were left. -/
theorem countLoop_eq_ok (n : Nat) {s t : State} (hn : n = (bytesLeft s).length) (h : countLoop n s = .ok () t) :
    t.work = (bytesLeft s).foldl Work.countByte s.work := by
  induction n generalizing s with
  | zero =>
    rw [countLoop] at h
    obtain ⟨a, u, h1, h2⟩ := Res.bind_eq_ok h
    cases h2
    have : bytesLeft s = [] := List.length_eq_zero_iff.1 hn.symm
    rw [this]
    exact (srcRead_eq_ok h1).1
  | succ n ih =>
    rw [countLoop] at h
    obtain ⟨a, u, h1, h2⟩ := Res.bind_eq_ok h
    have hc : ∃ b bs, bytesLeft s = b :: bs := List.exists_cons_of_length_eq_add_one hn.symm
    obtain ⟨b, bs, hb⟩ := hc
    obtain ⟨pre, post, hr, hl, hv, hbs⟩ := bytesLeft_cons hb
    obtain ⟨hw, -, -, h | h⟩ := srcRead_eq_ok h1
    · have := congrArg List.length hr; simp at this; omega
    · obtain ⟨-, rfl, hrest, -⟩ := h
      simp only at h2
      split at h2
      · cases h2
      · have hbl : bytesLeft u = bs := by rw [bytesLeft, hrest, hr, ← hl]; simpa using hbs
        have := ih (s := u.setWork (u.work.countByte (literal (valOf (s.mem.src.rest.take 8))))) (by rw [hb] at hn; simp at hn; rw [hn]; exact congrArg List.length hbl.symm) h2
        rw [this, hb, hw]
        have ht : s.mem.src.rest.take 8 = pre := by rw [hr, ← hl]; simp
        rw [ht, hv, literal_toNat]
        have : bytesLeft (u.setWork (s.work.countByte b)) = bs := hbl
        simp [this]

/-- R140, R143: while ports work COUNT's loop completes as countLoop_ok says, or raises a fault. -/
theorem countLoop_ok_or_raise {s : State} (h : PortsWork s) {bs : List Byte} (hb : bytesLeft s = bs) :
    countLoop bs.length s =
        .ok () (s.ran (bs.foldl Work.countByte s.work) (s.mem.src.pos + 8 * bs.length) []
          (readBytes bs ++ [.srcRead 8 .eod])) ∨
      ∃ r u, countLoop bs.length s = .raise r u := by
  induction bs generalizing s with
  | nil => exact .inl (by simp [countLoop, srcRead_end h hb, readBytes])
  | cons b bs ih =>
    obtain ⟨hr, hl⟩ := srcRead_byte h hb
    rw [List.length_cons, countLoop, hr, Res.bind_ok]
    simp only
    split
    · exact .inr ⟨_, _, rfl⟩
    · simp only [State.ran_setWork, literal_toNat, State.ran_work]
      rcases ih (h.ran (s.work.countByte b) (s.mem.src.pos + 8) [] [.srcRead 8 (.value b.toNat)]) (hl _ _ _) with h1 | h1
      · refine .inl ?_
        rw [h1]
        simp [readBytes, Nat.mul_add, Nat.add_assoc, Nat.add_comm 8]
      · exact .inr h1

theorem sum_count_range (bs : List Byte) (m : Nat) :
    ((List.range m).map fun i => bs.countP fun b => b.toNat == i).sum = bs.countP fun b => decide (b.toNat < m) := by
  induction m with
  | zero => simp
  | succ m ih =>
    rw [List.range_succ, List.map_append, List.sum_append, ih]
    simp only [List.map_cons, List.map_nil, List.sum_cons, List.sum_nil, Nat.add_zero]
    clear ih
    induction bs with
    | nil => rfl
    | cons b bs ih2 =>
      simp only [List.countP_cons]
      have : (if (decide (b.toNat < m + 1)) = true then 1 else 0) =
          (if (decide (b.toNat < m)) = true then 1 else 0) + (if (b.toNat == m) = true then 1 else 0) := by
        simp only [decide_eq_true_eq, beq_iff_eq]
        split <;> split <;> split <;> omega
      omega

/-- R144: the literals' counters add up to the number of bytes. -/
theorem tally_sum (bs : List Byte) : ((tally bs).toList.take 256).sum = bs.length := by
  have h : (tally bs).toList.take 256 = (List.range 256).map fun i => bs.countP fun b => b.toNat == i := by
    apply List.ext_getElem
    · rw [List.length_take, Vector.length_toList, List.length_map, List.length_range]; decide
    · intro i h1 h2
      rw [List.length_map, List.length_range] at h2
      rw [List.getElem_take, List.getElem_map, List.getElem_range, Vector.getElem_toList]
      unfold tally
      rw [Vector.getElem_ofFn, if_neg (Nat.ne_of_lt h2)]
  rw [h, sum_count_range]
  rw [List.countP_eq_length]
  intro b _
  exact decide_eq_true b.isLt

end Sys2Proof.Machine
end

