-- ==== Sys2Proof/Laws/Header.lean ====
section
/-! SUPPORT. The header, written and parsed, while ports work (R180 to R184). -/

namespace Sys2Proof

theorem Tree.size_pos (t : Tree) : 0 < t.size := by cases t <;> simp [Tree.size]

@[simp] theorem encodeLeaf_length (s : Sym) : (encodeLeaf s).length = 10 := by simp [encodeLeaf]

/-- R118: eleven bits a leaf, less one. -/
theorem encodeTree_length (t : Tree) : (encodeTree t).length + 1 = 11 * t.leaves.length := by
  induction t with
  | leaf s w => simp [encodeTree, Tree.leaves]
  | internal w l r ihl ihr => simp [encodeTree, Tree.leaves]; omega

theorem Tree.size_eq_leaves (t : Tree) : t.size + 1 = 2 * t.leaves.length := by
  induction t with
  | leaf s w => rfl
  | internal w l r ihl ihr => simp [Tree.size, Tree.leaves]; omega

@[simp] theorem sym_of_bits (s : Sym) : BitVec.ofNat 9 (valOf (bitsOf 9 s.toNat)) = s := by
  rw [valOf_bitsOf]
  exact BitVec.eq_of_toNat_eq (by simpa using s.isLt)

theorem valOf_sym (s : Sym) : valOf (bitsOf 9 s.toNat) = s.toNat := by
  rw [valOf_bitsOf, Nat.mod_eq_of_lt s.isLt]

end Sys2Proof

namespace Sys2Proof.Machine

open Safety

/-- R109: a leaf record is written. -/
theorem writeLeaf_ok {s : State} (h : PortsWork s) (ho : s.mem.snk.closed = false) (x : Sym) :
    writeLeaf x s =
      .ok () (s.ran s.work s.mem.src.pos (encodeLeaf x) [.snkWrite 1 1 true, .snkWrite 9 x.toNat true]) := by
  rw [writeLeaf, snkWrite_ok h ho, Res.bind_ok, snkWrite_ok (h.ran _ _ _ _) (by simpa using ho)]
  simp [encodeLeaf, bitsOf]

/-- R180: the walk leaves the stack as it was, and the header is on the sink. -/
theorem emitTree_ok (t : Tree) {s : State} (h : PortsWork s) (ho : s.mem.snk.closed = false) :
    emitTree t s = .ok () (s.ran s.work s.mem.src.pos (encodeTree t) (headerWrites t)) := by
  induction t generalizing s with
  | leaf x w => exact writeLeaf_ok h ho x
  | internal w l r ihl ihr =>
    rw [emitTree]
    simp only [writeInternal]
    rw [snkWrite_ok h ho, Res.bind_ok]
    simp only [State.ran_setWork, State.ran_work]
    rw [ihl (h.ran _ _ _ _) (by simpa using ho), Res.bind_ok]
    simp only [State.ran_ran, State.ran_setWork, State.ran_work, State.ran_src]
    rw [ihr (h.ran _ _ _ _) (by simpa using ho), Res.bind_ok]
    simp [encodeTree, headerWrites, bitsOf, Work.push, Work.turn, Work.pop]

theorem nodesFull_false {p : Params} {n k : Nat} (h : NodesFit p (n + (k + 1))) : nodesFull p n = false := by
  unfold nodesFull
  cases hc : p.nodeCap with
  | none => rfl
  | some c => have := h c hc; simp; omega

/-- R181: the flag of a node that fits. -/
theorem readFlag_ok {s : State} (h : PortsWork s) {b : Bool} {post : List Bool} (hr : s.mem.src.rest = b :: post)
    (hf : nodesFull s.cfg s.work.nnodes = false) :
    readFlag s =
      .ok b (s.ran { s.work with nnodes := s.work.nnodes + 1 } (s.mem.src.pos + 1) []
        [.srcRead 1 (.value b.toNat)]) := by
  rw [readFlag, srcRead_bit h hr, Res.bind_ok]
  cases b <;> simp [hf]

/-- R182: no flag is left. -/
theorem readFlag_eod {s : State} (h : PortsWork s) (hr : s.mem.src.rest = []) :
    readFlag s =
      .raise ⟨Kind.corruptHeader, 0#4, 0#32⟩ (s.ran s.work s.mem.src.pos [] [.srcRead 1 .eod]) := by
  rw [readFlag, srcRead_eod h (by simp [hr]), Res.bind_ok]

/-- R183: the node store is full. -/
theorem readFlag_full {s : State} (h : PortsWork s) {b : Bool} {post : List Bool} (hr : s.mem.src.rest = b :: post)
    (hf : nodesFull s.cfg s.work.nnodes = true) :
    readFlag s =
      .raise ⟨Kind.capacityFault, 1#4, 0#32⟩
        (s.ran s.work (s.mem.src.pos + 1) [] [.srcRead 1 (.value b.toNat)]) := by
  rw [readFlag, srcRead_bit h hr, Res.bind_ok]
  simp [hf]

/-- R110: the symbol bits of a leaf record. -/
theorem readSym_ok {s : State} (h : PortsWork s) {x : Sym} {post : List Bool}
    (hr : s.mem.src.rest = bitsOf 9 x.toNat ++ post) :
    readSym s = .ok x (s.ran s.work (s.mem.src.pos + 9) [] [.srcRead 9 (.value x.toNat)]) := by
  rw [readSym, srcRead_value h hr (by simp), Res.bind_ok, valOf_sym]
  simp

/-- R182: fewer than nine symbol bits are left. -/
theorem readSym_eod {s : State} (h : PortsWork s) (hr : s.mem.src.rest.length < 9) :
    readSym s = .raise ⟨Kind.corruptHeader, 1#4, 0#32⟩ (s.ran s.work s.mem.src.pos [] [.srcRead 9 .eod]) := by
  rw [readSym, srcRead_eod h hr, Res.bind_ok]

/-- R184: a whole header that fits is parsed, and nothing after it is read. -/
theorem parseTree_ok (t : Tree) {s : State} {post : List Bool} {n : Nat} (h : PortsWork s)
    (hr : s.mem.src.rest = encodeTree t ++ post) (hn : s.mem.src.rest.length ≤ n)
    (hf : NodesFit s.cfg (s.work.nnodes + t.size)) :
    parseTree n s =
      .ok t.parsed (s.ran { s.work with nnodes := s.work.nnodes + t.size } (s.mem.src.pos + (encodeTree t).length) []
        (headerReads t)) := by
  induction t generalizing s n post with
  | leaf x w =>
    have hl := congrArg List.length hr
    simp only [encodeTree, encodeLeaf_length, List.length_append] at hl
    obtain ⟨m, rfl⟩ : ∃ m, n = m + 1 := ⟨n - 1, by omega⟩
    rw [encodeTree, encodeLeaf, List.cons_append] at hr
    rw [parseTree, readFlag_ok h hr (nodesFull_false hf), Res.bind_ok]
    rw [if_pos rfl, readSym_ok (h.ran _ _ _ _) (x := x) (post := post) (by rw [ran_rest, hr]; simp), Res.bind_ok]
    simp [headerReads, Tree.parsed, Tree.size, encodeTree]
  | internal w l r ihl ihr =>
    rw [encodeTree, List.cons_append, List.append_assoc] at hr
    have hl := congrArg List.length hr
    simp only [List.length_cons, List.length_append] at hl
    obtain ⟨m, rfl⟩ : ∃ m, n = m + 1 := ⟨n - 1, by omega⟩
    rw [Tree.size] at hf
    have h1 : nodesFull s.cfg s.work.nnodes = false := nodesFull_false (k := l.size + r.size) hf
    rw [parseTree, readFlag_ok h hr h1, Res.bind_ok]
    rw [if_neg (by simp)]
    simp only [State.ran_setWork, State.ran_work]
    rw [ihl (post := encodeTree r ++ post) (h.ran _ _ _ _) (by rw [ran_rest, hr]; simp) (by rw [ran_rest]; simp; omega)
      (fun c hc => by have := hf c hc; simp only [State.ran_work, Work.push_nnodes]; omega), Res.bind_ok]
    simp only [State.ran_ran, State.ran_setWork, State.ran_work, State.ran_src, Nat.add_assoc]
    rw [ihr (post := post) (h.ran _ _ _ _) (by rw [ran_rest, hr]; simp [Nat.add_comm 1])
      (by rw [ran_rest]; simp; omega)
      (fun c hc => by have := hf c hc; simp only [State.ran_work, Work.turn_nnodes, Work.push_nnodes]; omega),
      Res.bind_ok]
    simp only [State.ran_ran, State.ran_setWork, State.ran_work, State.ran_src, Nat.add_assoc]
    simp [headerReads, Tree.parsed, Tree.size, encodeTree, Work.push, Work.turn, Work.pop, Nat.add_assoc,
      Nat.add_comm 1]

end Sys2Proof.Machine
end

