-- ==== Sys2Proof/Laws/Parse.lean ====
section
/-! SUPPORT. The header, parsed: what a completed parse consumed, whatever the ports did (R184, converse), a header that is cut
off (R182), and one of too many nodes (R183). -/

namespace Sys2Proof.Machine

open Safety

/-- R181: what a flag that was read tells. -/
theorem readFlag_eq_ok {s t : State} {b : Bool} (h : readFlag s = .ok b t) :
    s.mem.src.rest = b :: t.mem.src.rest ∧ t.work = { s.work with nnodes := s.work.nnodes + 1 } := by
  obtain ⟨a, u, h1, h2⟩ := Res.bind_eq_ok h
  obtain ⟨hw, -, -, ⟨-, rfl, -⟩ | ⟨hl, rfl, hr, -⟩⟩ := srcRead_eq_ok h1
  · cases h2
  · simp only at h2
    split at h2
    · cases h2
    · cases h2
      match hs : s.mem.src.rest, hl with
      | c :: l, _ =>
        refine ⟨?_, by simp [hw]⟩
        simp [hr, hs]
        cases c <;> rfl

/-- R110: what a symbol that was read tells. -/
theorem readSym_eq_ok {s t : State} {x : Sym} (h : readSym s = .ok x t) :
    s.mem.src.rest = bitsOf 9 x.toNat ++ t.mem.src.rest ∧ t.work = s.work := by
  obtain ⟨a, u, h1, h2⟩ := Res.bind_eq_ok h
  obtain ⟨hw, -, -, ⟨-, rfl, -⟩ | ⟨hl, rfl, hr, -⟩⟩ := srcRead_eq_ok h1
  · cases h2
  · cases h2
    have hl' : (s.mem.src.rest.take 9).length = 9 := by simp; omega
    have hlt := valOf_lt (s.mem.src.rest.take 9)
    rw [hl'] at hlt
    refine ⟨?_, hw⟩
    rw [BitVec.toNat_ofNat, Nat.mod_eq_of_lt hlt, bitsOf_valOf_of_length hl', hr]
    simp

/-- R184, converse: what was consumed is the header of the tree that was parsed. -/
theorem parseTree_eq_ok (n : Nat) {s u : State} {t : Tree} (h : parseTree n s = .ok t u) :
    s.mem.src.rest = encodeTree t ++ u.mem.src.rest ∧ t.parsed = t ∧
      u.work = { s.work with nnodes := s.work.nnodes + t.size } := by
  induction n generalizing s u t with
  | zero =>
    obtain ⟨a, v, h1, h2⟩ := Res.bind_eq_ok h
    cases h2
  | succ n ih =>
    obtain ⟨a, v, h1, h2⟩ := Res.bind_eq_ok h
    obtain ⟨hr, hw⟩ := readFlag_eq_ok h1
    cases a
    · simp only [Bool.false_eq_true, if_false] at h2
      obtain ⟨l, v1, h3, h4⟩ := Res.bind_eq_ok h2
      obtain ⟨r, v2, h5, h6⟩ := Res.bind_eq_ok h4
      cases h6
      obtain ⟨a1, a2, a3⟩ := ih h3
      obtain ⟨b1, b2, b3⟩ := ih h5
      simp only [State.setWork_mem] at a1 b1
      refine ⟨?_, by simp [Tree.parsed, a2, b2], ?_⟩
      · rw [hr, a1, b1]; simp [encodeTree]
      · simp [b3, a3, hw, Work.push, Work.turn, Work.pop, Tree.size]; omega
    · simp only [if_true] at h2
      obtain ⟨x, v1, h3, h4⟩ := Res.bind_eq_ok h2
      cases h4
      obtain ⟨a1, a2⟩ := readSym_eq_ok h3
      refine ⟨?_, rfl, ?_⟩
      · rw [hr, a1]; simp [encodeTree, encodeLeaf]
      · rw [a2, hw]; rfl

/-- No flag lies in no bits. -/
@[simp] theorem flagsWithin_zero (t : Tree) : t.flagsWithin 0 = 0 := by cases t <;> rfl

/-- A whole header holds a flag for every node. -/
theorem flagsWithin_whole (t : Tree) {n : Nat} (h : (encodeTree t).length ≤ n) : t.flagsWithin n = t.size := by
  induction t generalizing n with
  | leaf x w =>
    obtain ⟨m, rfl⟩ : ∃ m, n = m + 1 := ⟨n - 1, by simp [encodeTree, encodeLeaf] at h; omega⟩
    rfl
  | internal w l r ihl ihr =>
    simp only [encodeTree, List.length_cons, List.length_append] at h
    obtain ⟨m, rfl⟩ : ∃ m, n = m + 1 := ⟨n - 1, by omega⟩
    rw [Tree.flagsWithin, ihl (by omega), ihr (by omega), Tree.size]

/-- A bit of a header is a flag or follows one. -/
theorem flagsWithin_pos (t : Tree) {n : Nat} (h : 0 < n) : 0 < t.flagsWithin n := by
  obtain ⟨m, rfl⟩ : ∃ m, n = m + 1 := ⟨n - 1, by omega⟩
  cases t <;> simp [Tree.flagsWithin]

/-- R182: a header that is cut off: the parse raises CorruptHeaderError at the read that answered EOD. -/
theorem parseTree_cut (t : Tree) {s : State} {lost : List Bool} {n : Nat} (h : PortsWork s)
    (hr : encodeTree t = s.mem.src.rest ++ lost) (hl : lost ≠ []) (hn : s.mem.src.rest.length ≤ n)
    (hf : NodesFit s.cfg (s.work.nnodes + t.flagsWithin s.mem.src.rest.length)) :
    ∃ u sub, parseTree n s = .raise ⟨Kind.corruptHeader, sub, 0#32⟩ u ∧ u.mem.snk = s.mem.snk ∧
      ((sub = 0#4 ∧ u.mem.src.rest = [] ∧ u.trace.head? = some (.srcRead 1 .eod)) ∨
       (sub = 1#4 ∧ u.mem.src.rest.length < 9 ∧ u.trace.head? = some (.srcRead 9 .eod))) := by
  by_cases hemp : s.mem.src.rest = []
  · refine ⟨s.ran s.work s.mem.src.pos [] [.srcRead 1 .eod], 0#4, ?_, by simp, .inl ⟨rfl, hemp, by simp⟩⟩
    cases n <;> simp [parseTree, readFlag_eod h hemp]
  have hpos := flagsWithin_pos t (List.length_pos_iff.2 hemp)
  have hnf : nodesFull s.cfg s.work.nnodes = false :=
    nodesFull_false (k := t.flagsWithin s.mem.src.rest.length - 1) (by rw [Nat.sub_add_cancel hpos]; exact hf)
  induction t generalizing s n lost with
  | leaf x w =>
    match hs : s.mem.src.rest, hemp with
    | b :: post, _ =>
      rw [hs] at hr hn
      simp only [encodeTree, encodeLeaf, List.cons_append, List.cons.injEq] at hr
      obtain ⟨rfl, hr⟩ := hr
      obtain ⟨m, rfl⟩ : ∃ m, n = m + 1 := ⟨n - 1, by simp at hn; omega⟩
      have hlen := congrArg List.length hr
      have : 0 < lost.length := List.length_pos_iff.2 hl
      simp at hlen
      refine ⟨(s.ran { s.work with nnodes := s.work.nnodes + 1 } (s.mem.src.pos + 1) [] [.srcRead 1 (.value 1), .srcRead 9 .eod]), 1#4, ?_, by simp, .inr ⟨rfl, ?_, by simp⟩⟩
      · rw [parseTree, readFlag_ok h hs hnf, Res.bind_ok, if_pos rfl, readSym_eod (h.ran _ _ _ _) (by rw [ran_rest, hs]; simp; omega)]
        simp
      · rw [ran_rest, hs]; simp; omega
  | internal w l r ihl ihr =>
    match hs : s.mem.src.rest, hemp with
    | b :: post, _ =>
      rw [hs] at hr hn
      simp only [encodeTree, List.cons_append, List.cons.injEq] at hr
      obtain ⟨rfl, hr⟩ := hr
      obtain ⟨m, rfl⟩ : ∃ m, n = m + 1 := ⟨n - 1, by simp at hn; omega⟩
      simp only [List.length_cons] at hn
      rw [hs] at hf
      simp only [List.length_cons, Tree.flagsWithin] at hf
      rw [parseTree, readFlag_ok h hs hnf, Res.bind_ok, if_neg (by simp)]
      simp only [State.ran_setWork, State.ran_work]
      have hrest : (s.ran (Work.push { s.work with nnodes := s.work.nnodes + 1 } none) (s.mem.src.pos + 1) [] [.srcRead 1 (.value false.toNat)]).mem.src.rest = post := by rw [ran_rest, hs]; rfl
      by_cases hcut : (encodeTree l).length ≤ post.length
      · -- left whole
        have hpost : post = encodeTree l ++ post.drop (encodeTree l).length := by
          have := congrArg (List.take (encodeTree l).length) hr
          simp [List.take_append_of_le_length hcut] at this
          conv_lhs => rw [← List.take_append_drop (encodeTree l).length post]
          rw [← this]
        have hr2 : encodeTree r = post.drop (encodeTree l).length ++ lost := by
          rw [hpost] at hr
          simpa using hr
        rw [parseTree_ok l (post := post.drop (encodeTree l).length) (h.ran _ _ _ _) (by rw [hrest]; exact hpost) (by rw [hrest]; omega)
          (fun c hc => by
            have := hf c hc
            rw [flagsWithin_whole l hcut] at this
            simp only [State.ran_work, Work.push_nnodes]; omega), Res.bind_ok]
        simp only [State.ran_ran, State.ran_setWork, State.ran_work, State.ran_src, Nat.add_assoc]
        generalize hs2 : s.ran _ _ _ _ = s2
        have hrest2 : s2.mem.src.rest = post.drop (encodeTree l).length := by
          rw [← hs2, ran_rest, hs, Nat.add_comm 1, List.drop_succ_cons]
        have hp2 : PortsWork s2 := by rw [← hs2]; exact h.ran _ _ _ _
        have hsnk : s2.mem.snk = s.mem.snk := by rw [← hs2]; simp
        have hf2 : NodesFit s2.cfg (s2.work.nnodes + r.flagsWithin s2.mem.src.rest.length) := by
          rw [hrest2, List.length_drop, ← hs2]
          intro c hc
          have := hf c hc
          rw [flagsWithin_whole l hcut] at this
          simp only [State.ran_work, Work.turn_nnodes, Work.push_nnodes]; omega
        by_cases he2 : s2.mem.src.rest = []
        · have : parseTree m s2 = .raise ⟨Kind.corruptHeader, 0#4, 0#32⟩ (s2.ran s2.work s2.mem.src.pos [] [.srcRead 1 .eod]) := by
            cases m <;> simp [parseTree, readFlag_eod hp2 he2]
          rw [this]
          exact ⟨_, _, rfl, by simp [hsnk], .inl ⟨rfl, he2, by simp⟩⟩
        · have hrp := flagsWithin_pos r (List.length_pos_iff.2 he2)
          obtain ⟨u, sub, h1, h2, h3⟩ := ihr (n := m) hp2 (by rw [hrest2]; exact hr2) hl (by rw [hrest2]; simp; omega) hf2 he2 hrp
            (nodesFull_false (k := r.flagsWithin s2.mem.src.rest.length - 1) (by rw [Nat.sub_add_cancel hrp]; exact hf2))
          rw [h1]
          exact ⟨u, sub, rfl, by rw [h2, hsnk], h3⟩
      · have hlost : ∃ lost', lost' ≠ [] ∧ encodeTree l = post ++ lost' := by
          refine ⟨(encodeTree l).drop post.length, by simp; omega, ?_⟩
          have := congrArg (List.take post.length) hr
          rw [List.take_append_of_le_length (by omega)] at this
          simp at this
          conv_lhs => rw [← List.take_append_drop post.length (encodeTree l)]
          rw [this]
        obtain ⟨lost', hl', hr'⟩ := hlost
        generalize hs2 : s.ran _ _ _ _ = s2 at hrest ⊢
        have hp2 : PortsWork s2 := by rw [← hs2]; exact h.ran _ _ _ _
        have hsnk : s2.mem.snk = s.mem.snk := by rw [← hs2]; simp
        have hf2 : NodesFit s2.cfg (s2.work.nnodes + l.flagsWithin s2.mem.src.rest.length) := by
          rw [hrest, ← hs2]
          intro c hc
          have := hf c hc
          simp only [State.ran_work, Work.push_nnodes]; omega
        by_cases he2 : s2.mem.src.rest = []
        · have : parseTree m s2 = .raise ⟨Kind.corruptHeader, 0#4, 0#32⟩ (s2.ran s2.work s2.mem.src.pos [] [.srcRead 1 .eod]) := by
            cases m <;> simp [parseTree, readFlag_eod hp2 he2]
          rw [this]
          exact ⟨_, _, rfl, by simp [hsnk], .inl ⟨rfl, he2, by simp⟩⟩
        · have hrp := flagsWithin_pos l (List.length_pos_iff.2 he2)
          obtain ⟨u, sub, h1, h2, h3⟩ := ihl (n := m) hp2 (by rw [hrest]; exact hr') hl' (by rw [hrest]; omega) hf2 he2 hrp
            (nodesFull_false (k := l.flagsWithin s2.mem.src.rest.length - 1) (by rw [Nat.sub_add_cancel hrp]; exact hf2))
          rw [h1]
          exact ⟨u, sub, rfl, by rw [h2, hsnk], h3⟩

/-- R181: RDHDR reads one flag for every node. -/
theorem headerReads_flags (t : Tree) :
    (headerReads t).countP (fun x => x == .srcRead 1 (.value 0) || x == .srcRead 1 (.value 1)) = t.size := by
  induction t with
  | leaf x w => rfl
  | internal w l r ihl ihr => simp [headerReads, Tree.size, ihl, ihr]

/-- R183: a header, whole or cut off, of more nodes than the store holds: the parse raises CapacityFault at the flag that is one
too many. -/
theorem parseTree_full (t : Tree) {s : State} {lost post : List Bool} {n c : Nat} (h : PortsWork s)
    (hc : s.cfg.nodeCap = some c) (hle : s.work.nnodes ≤ c) (hlt : c < s.work.nnodes + t.flagsWithin s.mem.src.rest.length)
    (hr : s.mem.src.rest ++ lost = encodeTree t ++ post) (hn : s.mem.src.rest.length ≤ n) :
    ∃ u reads b, parseTree n s = .raise ⟨Kind.capacityFault, 1#4, 0#32⟩ u ∧ u.mem.snk = s.mem.snk ∧
      u.trace = .srcRead 1 (.value b) :: (reads.reverse ++ s.trace) ∧
        reads ++ [.srcRead 1 (.value b)] <+: headerReads t ∧
        s.work.nnodes + (reads.countP fun x => x == .srcRead 1 (.value 0) || x == .srcRead 1 (.value 1)) = c := by
  induction t generalizing s n lost post with
  | leaf x w =>
    match hs : s.mem.src.rest with
    | [] => rw [hs] at hlt; simp at hlt; omega
    | b :: more =>
      have he : s.work.nnodes = c := by rw [hs] at hlt; simp [Tree.flagsWithin] at hlt; omega
      obtain ⟨m, rfl⟩ : ∃ m, n = m + 1 := ⟨n - 1, by simp [hs] at hn; omega⟩
      rw [hs] at hr
      simp [encodeTree, encodeLeaf] at hr
      obtain ⟨rfl, -⟩ := hr
      refine ⟨s.ran s.work (s.mem.src.pos + 1) [] [.srcRead 1 (.value 1)], [], 1, ?_, by simp, by simp, ?_, by simpa using he⟩
      · rw [parseTree, readFlag_full h hs (by simp [nodesFull, hc, he])]; rfl
      · simp [headerReads]
  | internal w l r ihl ihr =>
    match hs : s.mem.src.rest with
    | [] => rw [hs] at hlt; simp at hlt; omega
    | b :: more =>
      obtain ⟨m, rfl⟩ : ∃ m, n = m + 1 := ⟨n - 1, by simp [hs] at hn; omega⟩
      rw [hs] at hr hlt hn
      simp [encodeTree] at hr
      obtain ⟨rfl, hr⟩ := hr
      simp only [List.length_cons, Tree.flagsWithin] at hlt hn
      by_cases he : s.work.nnodes = c
      · refine ⟨s.ran s.work (s.mem.src.pos + 1) [] [.srcRead 1 (.value 0)], [], 0, ?_, by simp, by simp, ?_, by simpa using he⟩
        · rw [parseTree, readFlag_full h hs (by simp [nodesFull, hc, he])]; rfl
        · simp [headerReads]
      have hnf : nodesFull s.cfg s.work.nnodes = false := by simp [nodesFull, hc, he]
      rw [parseTree, readFlag_ok h hs hnf, Res.bind_ok, if_neg (by simp)]
      simp only [State.ran_setWork, State.ran_work]
      have hrest : (s.ran (Work.push { s.work with nnodes := s.work.nnodes + 1 } none) (s.mem.src.pos + 1) [] [.srcRead 1 (.value false.toNat)]).mem.src.rest = more := by rw [ran_rest, hs]; rfl
      by_cases hcl : c < s.work.nnodes + 1 + l.flagsWithin more.length
      · generalize hs2 : s.ran _ _ _ _ = s2 at hrest ⊢
        have hp2 : PortsWork s2 := by rw [← hs2]; exact h.ran _ _ _ _
        obtain ⟨u, reads, b, h1, h2, h3, h4, h5⟩ := ihl (s := s2) (lost := lost) (post := encodeTree r ++ post) (n := m) hp2 (by rw [← hs2]; exact hc)
          (by rw [← hs2]; simp [Work.push]; omega) (by rw [hrest, ← hs2]; simpa [Work.push] using hcl) (by rw [hrest, hr]) (by rw [hrest]; omega)
        rw [h1]
        refine ⟨u, .srcRead 1 (.value 0) :: reads, b, rfl, by rw [h2, ← hs2]; simp, ?_, ?_, ?_⟩
        · rw [h3, ← hs2]; simp
        · rw [headerReads, List.cons_append]
          exact List.cons_prefix_cons.2 ⟨rfl, h4.trans (List.prefix_append _ _)⟩
        · rw [← hs2] at h5; simp [Work.push] at h5; simp; omega
      · have hrp : 0 < r.flagsWithin (more.length - (encodeTree l).length) := by omega
        have hcut : (encodeTree l).length < more.length := by
          by_contra hcon
          rw [Nat.sub_eq_zero_of_le (by omega)] at hrp
          simp at hrp
        have hmore : more = encodeTree l ++ more.drop (encodeTree l).length := by
          have := congrArg (List.take (encodeTree l).length) hr
          simp [List.take_append_of_le_length hcut.le] at this
          conv_lhs => rw [← List.take_append_drop (encodeTree l).length more]
          rw [this]
        have hr2 : more.drop (encodeTree l).length ++ lost = encodeTree r ++ post := by
          rw [hmore] at hr
          simpa using hr
        rw [flagsWithin_whole l hcut.le] at hcl
        rw [flagsWithin_whole l hcut.le] at hlt
        rw [parseTree_ok l (post := more.drop (encodeTree l).length) (h.ran _ _ _ _) (by rw [hrest]; exact hmore) (by rw [hrest]; omega)
          (fun c' hc' => by
            simp only [State.ran_cfg] at hc'
            rw [hc] at hc'; cases hc'
            simp only [State.ran_work, Work.push_nnodes]; omega), Res.bind_ok]
        simp only [State.ran_ran, State.ran_setWork, State.ran_work, State.ran_src, Nat.add_assoc]
        generalize hs2 : s.ran _ _ _ _ = s2
        have hrest2 : s2.mem.src.rest = more.drop (encodeTree l).length := by
          rw [← hs2, ran_rest, hs, Nat.add_comm 1, List.drop_succ_cons]
        have hp2 : PortsWork s2 := by rw [← hs2]; exact h.ran _ _ _ _
        have hnn : s2.work.nnodes = s.work.nnodes + 1 + l.size := by rw [← hs2]; simp [Work.turn, Work.push]; try omega
        obtain ⟨u, reads, b, h1, h2, h3, h4, h5⟩ := ihr (s := s2) (lost := lost) (post := post) (n := m) hp2 (by rw [← hs2]; exact hc)
          (by rw [hnn]; omega) (by rw [hrest2, hnn, List.length_drop]; omega) (by rw [hrest2, hr2]) (by rw [hrest2, List.length_drop]; omega)
        rw [h1]
        refine ⟨u, .srcRead 1 (.value 0) :: (headerReads l ++ reads), b, rfl, by rw [h2, ← hs2]; simp, ?_, ?_, ?_⟩
        · rw [h3, ← hs2]; simp
        · rw [headerReads, List.cons_append, List.append_assoc]
          exact List.cons_prefix_cons.2 ⟨rfl, List.prefix_append_right_inj _ |>.2 h4⟩
        · rw [hnn] at h5; simp [headerReads_flags]; omega

end Sys2Proof.Machine
end

