-- ==== Sys2Proof/Laws/PerInstr.lean ====
section
/-! SUPPORT. What holds of every instruction as syntax, one lemma per constructor. -/

namespace Sys2Proof

/-- The column "bits" of spec/opcode_table.json, where a row has a fixed width. -/
def Instr.tableBits : Instr → Option Nat
  | .cmdNop | .compress | .decompress | .cmdReserved => some 32
  | .idle | .count | .build | .gencodes | .wrmagic | .wrhdr | .rewind | .encode | .close | .chkmagic | .rdhdr
  | .decode | .phaseC | .phaseD | .done | .fault => some 4
  | .wireMagic => some 32
  | .wireNodeInternal => some 1
  | .wireNodeLeaf _ => some 10
  | .wireCode _ | .wireEosCode | .wirePadding | .pqInsert _ | .pqRemoveMin | .srcRead _ | .srcReset | .snkWrite _ _
  | .snkClose => none

namespace Laws.Encoding

/-- An instruction without a format has no encoding; an encoding has the width the table gives the row; padding is at most
seven bits (R113). -/
def Statement (i : Instr) : Prop :=
  ∀ c bits, encode c i = some bits →
    i.format ≠ none ∧ (∀ n, i.tableBits = some n → bits.length = n) ∧ (i = .wirePadding → bits.length ≤ 7)

theorem fixed {i : Instr} {bits : List Bool} (hf : i.format ≠ none) (hn : i ≠ .wirePadding)
    (h : ∀ c b, encode c i = some b → b = bits) (hl : i.tableBits = some bits.length) : Statement i := by
  intro c b hb
  rw [h c b hb]
  exact ⟨hf, fun n hn => by rw [hl] at hn; exact Option.some.inj hn, fun h => absurd h hn⟩

theorem cmdNop : Statement .cmdNop := fixed (by decide) (by decide) (fun _ _ h => (Option.some.inj h).symm) rfl
theorem compress : Statement .compress := fixed (by decide) (by decide) (fun _ _ h => (Option.some.inj h).symm) rfl
theorem decompress : Statement .decompress := fixed (by decide) (by decide) (fun _ _ h => (Option.some.inj h).symm) rfl
theorem cmdReserved : Statement .cmdReserved :=
  fixed (by decide) (by decide) (fun _ _ h => (Option.some.inj h).symm) rfl
theorem idle : Statement .idle := fixed (by decide) (by decide) (fun _ _ h => (Option.some.inj h).symm) rfl
theorem count : Statement .count := fixed (by decide) (by decide) (fun _ _ h => (Option.some.inj h).symm) rfl
theorem build : Statement .build := fixed (by decide) (by decide) (fun _ _ h => (Option.some.inj h).symm) rfl
theorem gencodes : Statement .gencodes := fixed (by decide) (by decide) (fun _ _ h => (Option.some.inj h).symm) rfl
theorem wrmagic : Statement .wrmagic := fixed (by decide) (by decide) (fun _ _ h => (Option.some.inj h).symm) rfl
theorem wrhdr : Statement .wrhdr := fixed (by decide) (by decide) (fun _ _ h => (Option.some.inj h).symm) rfl
theorem rewind : Statement .rewind := fixed (by decide) (by decide) (fun _ _ h => (Option.some.inj h).symm) rfl
theorem encode : Statement .encode := fixed (by decide) (by decide) (fun _ _ h => (Option.some.inj h).symm) rfl
theorem close : Statement .close := fixed (by decide) (by decide) (fun _ _ h => (Option.some.inj h).symm) rfl
theorem chkmagic : Statement .chkmagic := fixed (by decide) (by decide) (fun _ _ h => (Option.some.inj h).symm) rfl
theorem rdhdr : Statement .rdhdr := fixed (by decide) (by decide) (fun _ _ h => (Option.some.inj h).symm) rfl
theorem decode : Statement .decode := fixed (by decide) (by decide) (fun _ _ h => (Option.some.inj h).symm) rfl
theorem phaseC : Statement .phaseC := fixed (by decide) (by decide) (fun _ _ h => (Option.some.inj h).symm) rfl
theorem phaseD : Statement .phaseD := fixed (by decide) (by decide) (fun _ _ h => (Option.some.inj h).symm) rfl
theorem done : Statement .done := fixed (by decide) (by decide) (fun _ _ h => (Option.some.inj h).symm) rfl
theorem fault : Statement .fault := fixed (by decide) (by decide) (fun _ _ h => (Option.some.inj h).symm) rfl

theorem pqInsert (t : Tree) : Statement (.pqInsert t) := fun _ _ h => by cases h
theorem pqRemoveMin : Statement .pqRemoveMin := fun _ _ h => by cases h

theorem wireMagic : Statement .wireMagic := by
  intro c bits h
  cases h
  exact ⟨by simp [Instr.format], fun n hn => by cases hn; exact bitsOf_length _ _, by simp⟩
theorem wireNodeInternal : Statement .wireNodeInternal :=
  fixed (by decide) (by decide) (fun _ _ h => (Option.some.inj h).symm) rfl
theorem wireNodeLeaf (sym : Sym) : Statement (.wireNodeLeaf sym) :=
  fixed (bits := encodeLeaf sym) (by simp [Instr.format]) (by simp) (fun _ _ h => (Option.some.inj h).symm)
    (by simp [encodeLeaf, Instr.tableBits])
theorem wireCode (b : Byte) : Statement (.wireCode b) := fun _ _ _ =>
  ⟨by simp [Instr.format], fun _ hn => (by cases hn), by simp⟩
theorem wireEosCode : Statement .wireEosCode := fun _ _ _ =>
  ⟨by simp [Instr.format], fun _ hn => (by cases hn), by simp⟩
theorem wirePadding : Statement .wirePadding := by
  intro c bits h
  cases h
  refine ⟨by simp [Instr.format], fun n hn => (by cases hn), fun _ => ?_⟩
  simp [padLength]
  omega

theorem srcRead (n : Nat) : Statement (.srcRead n) := fun _ _ h => by cases h
theorem srcReset : Statement .srcReset := fun _ _ h => by cases h
theorem snkWrite (n : Nat) (v : Word) : Statement (.snkWrite n v) := fun _ _ h => by cases h
theorem snkClose : Statement .snkClose := fun _ _ h => by cases h

end Laws.Encoding

end Sys2Proof
end

