-- ==== Sys2Proof/Laws/Queue.lean ====
section
/-! SUPPORT. The priority queue and BUILD (R28, R150 to R156). -/

namespace Sys2Proof

/-- R24 (b): a tree weighs as much as its leaves together. -/
theorem Tree.weight_eq_sum {t : Tree} (h : t.weightsAdd = true) : t.weight = (t.leaves.map Prod.snd).sum := by
  induction t with
  | leaf s w => simp [Tree.weight, Tree.leaves]
  | internal w l r ihl ihr =>
    simp only [Tree.weightsAdd, Bool.and_eq_true, beq_iff_eq] at h
    rw [Tree.weight, h.1.1, ihl h.1.2, ihr h.2, Tree.leaves, List.map_append, List.sum_append]

theorem Tree.syms_eq_leaves (t : Tree) : t.syms = t.leaves.map Prod.fst := by
  induction t with
  | leaf s w => rfl
  | internal w l r ihl ihr => simp [Tree.syms, Tree.leaves, ihl, ihr]

end Sys2Proof

namespace Sys2Proof.Machine

open Safety

/-! ## R28: the order -/

theorem entryBefore_iff (a b : PqEntry) :
    entryBefore a b = true ↔ a.weight < b.weight ∨ (a.weight = b.weight ∧ a.seq.toNat < b.seq.toNat) := by
  simp [entryBefore]

theorem entryBefore_asymm {a b : PqEntry} (h : entryBefore a b = true) : entryBefore b a = false := by
  rw [Bool.eq_false_iff, ne_eq, entryBefore_iff]
  rw [entryBefore_iff] at h
  omega

theorem entryBefore_of_not_after {a b c : PqEntry} (h : entryBefore a b = true) (hc : entryBefore c b = false) :
    entryBefore c a = false := by
  rw [entryBefore_iff] at h
  rw [Bool.eq_false_iff, ne_eq, entryBefore_iff] at hc ⊢
  omega

/-! ## R151 -/

theorem popMin_eq_none {l : List PqEntry} : popMin l = none ↔ l = [] := by
  cases l with
  | nil => simp [popMin]
  | cons e es =>
    rw [popMin]
    cases popMin es with
    | none => simp
    | some p => simp only; split <;> simp

/-- R151: the entry removed is one that no other is before, and the others stay, in their order. -/
theorem popMin_some {l : List PqEntry} {m : PqEntry} {rest : List PqEntry} (h : popMin l = some (m, rest)) :
    (m :: rest).Perm l ∧ rest.Sublist l ∧ ∀ e ∈ rest, entryBefore e m = false := by
  induction l generalizing m rest with
  | nil => simp [popMin] at h
  | cons e es ih =>
    rw [popMin] at h
    cases hp : popMin es with
    | none =>
      rw [hp] at h
      simp only [Option.some.injEq, Prod.mk.injEq] at h
      obtain ⟨rfl, rfl⟩ := h
      rw [popMin_eq_none.1 hp]
      simp
    | some p =>
      obtain ⟨m', rest'⟩ := p
      obtain ⟨h1, h2, h3⟩ := ih hp
      rw [hp] at h
      simp only at h
      split at h
      · next hb =>
        simp only [Option.some.injEq, Prod.mk.injEq] at h
        obtain ⟨rfl, rfl⟩ := h
        refine ⟨List.Perm.refl _, List.sublist_cons_self _ _, fun x hx => ?_⟩
        rcases List.mem_cons.1 (h1.mem_iff.2 hx) with rfl | hx'
        · exact entryBefore_asymm hb
        · exact entryBefore_of_not_after hb (h3 x hx')
      · next hb =>
        simp only [Option.some.injEq, Prod.mk.injEq] at h
        obtain ⟨rfl, rfl⟩ := h
        refine ⟨(List.Perm.swap e m' rest').trans (h1.cons e), h2.cons_cons e, fun x hx => ?_⟩
        rcases List.mem_cons.1 hx with rfl | hx'
        · simpa using hb
        · exact h3 x hx'

/-! ## R152: the leaves -/

/-- The leaves of all queued trees. -/
def forest (l : List PqEntry) : List (Sym × Nat) := l.flatMap fun e => e.tree.leaves

theorem insertLeaves_spec (cs : List Nat) (k : Nat) (w : Work) :
    let ls := ((cs.zipIdx k).filter fun c => decide (0 < c.1)).map fun c => (BitVec.ofNat 9 c.2, c.1)
    ∃ pq, insertLeaves k cs w =
        { w with pq := w.pq ++ pq, seq := w.seq + BitVec.ofNat 10 ls.length, nnodes := w.nnodes + ls.length } ∧
      forest pq = ls ∧ pq.length = ls.length ∧ ∀ e ∈ pq, e.tree.weightsAdd = true := by
  induction cs generalizing k w with
  | nil => exact ⟨[], by simp [insertLeaves], rfl, rfl, by simp⟩
  | cons c cs ih =>
    simp only [List.zipIdx_cons]
    rw [insertLeaves]
    by_cases hc : 0 < c
    · obtain ⟨pq, h1, h2, h3, h4⟩ := ih (k + 1) { pqInsert (.leaf (BitVec.ofNat 9 k) c) w with nnodes := w.nnodes + 1 }
      rw [if_pos hc, h1]
      refine ⟨⟨c, w.seq, .leaf (BitVec.ofNat 9 k) c⟩ :: pq, ?_, ?_, ?_, ?_⟩
      · simp only [hc, decide_true, List.filter_cons_of_pos, List.map_cons, List.length_cons, pqInsert, Tree.weight,
          List.append_assoc, List.singleton_append, BitVec.ofNat_add]
        congr 1
        · omega
        · rw [BitVec.add_assoc, BitVec.add_comm 1#10]
      · simp [forest, hc, Tree.leaves] at h2 ⊢
        exact h2
      · simpa [hc] using h3
      · simp [Tree.weightsAdd]
        exact h4
    · rw [if_neg hc]
      simpa [hc] using ih (k + 1) w

/-! ## R153: the merges -/

theorem pqRemoveMin_some {w w' : Work} {t : Tree} (h : pqRemoveMin w = some (t, w')) :
    ∃ e rest, popMin w.pq = some (e, rest) ∧ t = e.tree ∧ w' = { w with pq := rest, ret := some e.tree } := by
  unfold pqRemoveMin at h
  cases hp : popMin w.pq with
  | none => rw [hp] at h; cases h
  | some p =>
    rw [hp] at h
    cases h
    exact ⟨p.1, p.2, rfl, rfl, rfl⟩

theorem pqRemoveMin_of_nonempty {w : Work} (h : w.pq ≠ []) : ∃ t w', pqRemoveMin w = some (t, w') := by
  unfold pqRemoveMin
  cases hp : popMin w.pq with
  | none => exact absurd (popMin_eq_none.1 hp) h
  | some p => exact ⟨_, _, rfl⟩

/-- R153: with enough passes one entry is left; the leaves are those there were, and the weights add up. -/
theorem merge_spec (n : Nat) (w : Work) (hne : w.pq ≠ []) (hn : w.pq.length ≤ n + 1)
    (hadd : ∀ e ∈ w.pq, e.tree.weightsAdd = true) :
    ∃ e ret, merge n w =
        { w with
          pq := [e], seq := w.seq + BitVec.ofNat 10 (w.pq.length - 1), nnodes := w.nnodes + (w.pq.length - 1),
          ret := ret } ∧
      e.tree.leaves.Perm (forest w.pq) ∧ e.tree.weightsAdd = true := by
  induction n generalizing w with
  | zero =>
    match hw : w.pq, hne, hn with
    | [e], _, _ =>
      refine ⟨e, w.ret, ?_, by simp [forest], hadd e (by simp [hw])⟩
      rw [merge]
      cases w
      simp_all
    | e :: e' :: l, _, hn => simp at hn
  | succ n ih =>
    rw [merge]
    by_cases h1 : w.pq.length ≤ 1
    · rw [if_pos h1]
      match hw : w.pq, hne, h1 with
      | [e], _, _ =>
        refine ⟨e, w.ret, ?_, by simp [forest], hadd e (by simp [hw])⟩
        cases w
        simp_all
      | e :: e' :: l, _, h1 => simp at h1
    · rw [if_neg h1]
      obtain ⟨a, w1, ha⟩ := pqRemoveMin_of_nonempty hne
      obtain ⟨ea, ra, hpa, rfl, rfl⟩ := pqRemoveMin_some ha
      obtain ⟨hperm1, -, -⟩ := popMin_some hpa
      have hl1 := hperm1.length_eq
      simp only [List.length_cons] at hl1
      have hra : ra ≠ [] := by rintro rfl; simp at hl1; omega
      obtain ⟨b, w2, hb⟩ := pqRemoveMin_of_nonempty (w := { w with pq := ra, ret := some ea.tree }) hra
      obtain ⟨eb, rb, hpb, rfl, rfl⟩ := pqRemoveMin_some hb
      obtain ⟨hperm2, -, -⟩ := popMin_some hpb
      simp only at hperm2
      have hl2 := hperm2.length_eq
      simp only [List.length_cons] at hl2
      rw [ha]
      simp only
      rw [hb]
      simp only
      have hmem : ∀ e ∈ ea :: eb :: rb, e.tree.weightsAdd = true := fun e he =>
        hadd e (hperm1.mem_iff.1 ((hperm2.cons ea).mem_iff.1 he))
      obtain ⟨e, ret, h1', h2', h3'⟩ := ih
        (pqInsert (.internal (ea.tree.weight + eb.tree.weight) ea.tree eb.tree)
          { w with pq := rb, nnodes := w.nnodes + 1, ret := some eb.tree })
        (by simp) (by simp; omega)
        (by
          intro e he
          simp only [pqInsert_pq, List.mem_append, List.mem_singleton] at he
          rcases he with he | rfl
          · exact hmem e (by simp [he])
          · simp [Tree.weightsAdd, hmem ea (by simp), hmem eb (by simp)])
      refine ⟨e, ret, ?_, h2'.trans ?_, h3'⟩
      · rw [h1']
        simp only [pqInsert, List.length_append, List.length_cons, List.length_nil]
        have : w.pq.length - 1 = rb.length + (0 + 1) - 1 + 1 := by omega
        rw [this]
        congr 1
        · omega
        · rw [BitVec.ofNat_add, BitVec.add_assoc, BitVec.add_comm 1#10]
      · simp only [pqInsert_pq, forest, List.flatMap_append, List.flatMap_cons, List.flatMap_nil, List.append_nil,
          Tree.leaves]
        refine (List.perm_append_comm).trans ?_
        have h := (hperm1.flatMap_right fun e => e.tree.leaves).symm
        have h' := (hperm2.flatMap_right fun e => e.tree.leaves).symm
        simp only [List.flatMap_cons] at h h'
        simpa [List.append_assoc] using (h.trans (h'.append_left _)).symm

/-- R152 to R154: what BUILD leaves where some counter is positive. -/
theorem build_spec (w : Work) (h : presentSymbols w.freq ≠ []) :
    ∃ r, pqRemoveMin w.merged =
        some (r, { w with
          pq := []
          seq := BitVec.ofNat 10 (2 * (presentSymbols w.freq).length - 1)
          nnodes := 2 * (presentSymbols w.freq).length - 1
          tree := none
          ret := some r }) ∧
      r.leaves.Perm (presentSymbols w.freq) ∧ r.weightsAdd = true := by
  obtain ⟨pq, h1, h2, h3, h4⟩ := insertLeaves_spec w.freq.toList 0 w.clearBuild
  simp only [Work.clearBuild_pq, Work.clearBuild_seq, Work.clearBuild_nnodes, List.nil_append, Nat.zero_add,
    BitVec.zero_add] at h1
  change _ = presentSymbols w.freq at h2
  change _ = (presentSymbols w.freq).length at h3
  change insertLeaves 0 w.freq.toList w.clearBuild =
    { w.clearBuild with
      pq := pq, seq := BitVec.ofNat 10 (presentSymbols w.freq).length,
      nnodes := (presentSymbols w.freq).length } at h1
  have hlen : 0 < (presentSymbols w.freq).length := List.length_pos_iff.2 h
  have hpq : pq ≠ [] := by rintro rfl; simp at h3; omega
  unfold Work.merged
  simp only [h1]
  obtain ⟨e, ret, m1, m2, m3⟩ := merge_spec pq.length
    { w.clearBuild with
      pq := pq, seq := BitVec.ofNat 10 (presentSymbols w.freq).length,
      nnodes := (presentSymbols w.freq).length } hpq (by simp) h4
  rw [m1]
  refine ⟨e.tree, ?_, by simpa [h2] using m2, m3⟩
  simp only [pqRemoveMin, popMin, h3, Work.clearBuild]
  have hsum : (presentSymbols w.freq).length + ((presentSymbols w.freq).length - 1)
      = 2 * (presentSymbols w.freq).length - 1 := by omega
  rw [← BitVec.ofNat_add, hsum]

/-! ## R157: the tree the rules lead to -/

theorem takesLeast_of_popMin {l rest : List PqEntry} {m : PqEntry} (h : popMin l = some (m, rest)) : TakesLeast l m rest := by
  obtain ⟨h1, h2, h3⟩ := popMin_some h
  exact ⟨h1, h2, fun e he => by rw [← entryBefore_iff, h3 e he]; simp⟩

/-- R152: the queue step 1 leaves: the leaves in ascending order, numbered. -/
theorem insertLeaves_pq (cs : List Nat) (k : Nat) (w : Work) (n : Nat) (hw : w.seq = BitVec.ofNat 10 n) :
    let ls := ((cs.zipIdx k).filter fun c => decide (0 < c.1)).map fun c => (BitVec.ofNat 9 c.2, c.1)
    (insertLeaves k cs w).pq = w.pq ++ (ls.zipIdx n).map fun x => ⟨x.1.2, BitVec.ofNat 10 x.2, .leaf x.1.1 x.1.2⟩ := by
  induction cs generalizing k w n with
  | nil => simp [insertLeaves]
  | cons c cs ih =>
    rw [insertLeaves]
    by_cases hc : 0 < c
    · rw [if_pos hc]
      have := ih (k+1) { pqInsert (.leaf (BitVec.ofNat 9 k) c) w with nnodes := w.nnodes + 1 } (n+1) (by simp [pqInsert, hw, BitVec.ofNat_add])
      simp only at this
      rw [this]
      simp [pqInsert, hc, hw, Tree.weight]
    · rw [if_neg hc]
      have := ih (k+1) w n hw
      simp only at this
      rw [this]
      simp [hc]

/-- R153: the merge loop follows the merge rules. -/
theorem greedy_of_merge (n : Nat) (w : Work) (hne : w.pq ≠ []) (hn : w.pq.length ≤ n + 1) :
    ∃ e, (merge n w).pq = [e] ∧ GreedyMerge w.pq w.seq e.tree := by
  induction n generalizing w with
  | zero =>
    match hw : w.pq, hne, hn with
    | [e], _, _ => exact ⟨e, rfl, .root e _⟩
    | e :: e' :: l, _, hn => simp at hn
  | succ n ih =>
    rw [merge]
    by_cases h1 : w.pq.length ≤ 1
    · rw [if_pos h1]
      match hw : w.pq, hne, h1 with
      | [e], _, _ => exact ⟨e, rfl, .root e _⟩
      | e :: e' :: l, _, h1 => simp at h1
    · rw [if_neg h1]
      obtain ⟨a, w1, ha⟩ := pqRemoveMin_of_nonempty hne
      obtain ⟨ea, ra, hpa, rfl, rfl⟩ := pqRemoveMin_some ha
      have hperm1 := (popMin_some hpa).1
      have hl1 := hperm1.length_eq
      simp only [List.length_cons] at hl1
      have hra : ra ≠ [] := by rintro rfl; simp at hl1; omega
      obtain ⟨b, w2, hb⟩ := pqRemoveMin_of_nonempty (w := { w with pq := ra, ret := some ea.tree }) hra
      obtain ⟨eb, rb, hpb, rfl, rfl⟩ := pqRemoveMin_some hb
      have hperm2 := (popMin_some hpb).1
      have hl2 := hperm2.length_eq
      simp only [List.length_cons] at hl2
      rw [ha]
      simp only
      rw [hb]
      simp only
      obtain ⟨e, h1', h2'⟩ := ih
        (pqInsert (.internal (ea.tree.weight + eb.tree.weight) ea.tree eb.tree)
          { w with pq := rb, nnodes := w.nnodes + 1, ret := some eb.tree })
        (by simp) (by simp; omega)
      exact ⟨e, h1', .pass _ _ _ _ _ _ _ (takesLeast_of_popMin hpa) (takesLeast_of_popMin hpb) h2'⟩

/-- R28: where the sequence numbers are unique, so is the entry taken. -/
theorem takesLeast_unique {l r r' : List PqEntry} {m m' : PqEntry} (h : TakesLeast l m r) (h' : TakesLeast l m' r')
    (hnd : (l.map PqEntry.seq).Nodup) : m = m' ∧ r = r' := by
  obtain ⟨h1, h2, h3⟩ := h
  obtain ⟨k1, k2, k3⟩ := h'
  have hlnd : l.Nodup := List.Nodup.of_map _ hnd
  have hm : m ∈ l := h1.mem_iff.1 (by simp)
  have hm' : m' ∈ l := k1.mem_iff.1 (by simp)
  have heq : m = m' := by
    by_contra hne
    have a1 : m' ∈ r := by
      have := h1.mem_iff.2 hm'
      rcases List.mem_cons.1 this with h | h
      · exact absurd h.symm hne
      · exact h
    have a2 : m ∈ r' := by
      have := k1.mem_iff.2 hm
      rcases List.mem_cons.1 this with h | h
      · exact absurd h hne
      · exact h
    have b1 := h3 _ a1
    have b2 := k3 _ a2
    have : m.seq ≠ m'.seq := fun hs => hne (List.inj_on_of_nodup_map hnd hm hm' hs)
    have : m.seq.toNat ≠ m'.seq.toNat := fun hs => this (BitVec.eq_of_toNat_eq hs)
    omega
  subst heq
  refine ⟨rfl, ?_⟩
  have hr : ∀ {x}, x.Sublist l → (m :: x).Perm l → x = l.filter (· ≠ m) := by
    intro x hs hp
    have hnd1 := hp.nodup_iff.2 hlnd
    have hmx : m ∉ x := (List.nodup_cons.1 hnd1).1
    have hx : x = x.filter (· ≠ m) := by
      rw [List.filter_eq_self.2]; intro a ha; simp; rintro rfl; exact hmx ha
    have hs' : x.Sublist (l.filter (· ≠ m)) := by rw [hx]; exact hs.filter _
    refine hs'.eq_of_length ?_
    have hlen := (hp.filter (· ≠ m)).length_eq
    rw [List.filter_cons_of_neg (by simp), ← hx] at hlen
    exact hlen
  rw [hr h2 h1, hr k2 k1]

/-- R157: the merge rules lead to one tree. -/
theorem greedy_unique {l : List PqEntry} {n : BitVec 10} {t t' : Tree} (h : GreedyMerge l n t) (h' : GreedyMerge l n t')
    (hlt : ∀ e ∈ l, e.seq.toNat < n.toNat) (hnd : (l.map PqEntry.seq).Nodup) (hb : n.toNat + l.length < 1024) : t = t' := by
  induction h generalizing t' with
  | root e n =>
    cases h' with
    | root => rfl
    | pass _ l1 l2 _ a b _ h1 h2 h3 =>
      have e1 := h1.1.length_eq
      have e2 := h2.1.length_eq
      simp at e1 e2; subst e1; simp at e2
  | pass l l1 l2 n a b t h1 h2 h3 ih =>
    cases h' with
    | root e =>
      have e1 := h1.1.length_eq
      have e2 := h2.1.length_eq
      simp at e1 e2; subst e1; simp at e2
    | pass _ l1' l2' _ a' b' _ k1 k2 k3 =>
      obtain ⟨rfl, rfl⟩ := takesLeast_unique h1 k1 hnd
      have hnd1 : (l1.map PqEntry.seq).Nodup := hnd.sublist (h1.2.1.map _)
      obtain ⟨rfl, rfl⟩ := takesLeast_unique h2 k2 hnd1
      have hnd2 : (l2.map PqEntry.seq).Nodup := hnd1.sublist (h2.2.1.map _)
      have hl1 := h1.1.length_eq
      have hl2 := h2.1.length_eq
      simp at hl1 hl2
      have hn1 : (n + 1#10).toNat = n.toNat + 1 := by rw [BitVec.toNat_add]; simp; omega
      apply ih k3
      · intro e he
        rw [hn1]
        rcases List.mem_append.1 he with he | he
        · have := hlt e (h1.2.1.mem (h2.2.1.mem he)); omega
        · simp at he; subst he; simp
      · rw [List.map_append, List.nodup_append]
        refine ⟨hnd2, by simp, ?_⟩
        intro x hx y hy
        simp at hy; subst hy
        obtain ⟨e, he, rfl⟩ := List.mem_map.1 hx
        have := hlt e (h1.2.1.mem (h2.2.1.mem he))
        intro h; rw [h] at this; omega
      · rw [hn1]; simp; omega

/-- R13: at most 257 leaves. -/
theorem present_length (f : Vector Nat 257) : (presentSymbols f).length ≤ 257 := by
  unfold presentSymbols
  rw [List.length_map]
  refine (List.length_filter_le _ _).trans ?_
  simp

end Sys2Proof.Machine
end

