-- ==== Sys2Proof/Laws/Trees.lean ====
section
/-! SUPPORT. Paths, leaves and code words of a tree (R105, R114, R170, R172). -/

namespace Sys2Proof

open Safety

/-- R173: the path to a symbol leads to a leaf that carries it. -/
theorem Tree.leafAt_path {t : Tree} {x : Sym} {p : List Bool} (h : t.path x = some p) : t.leafAt p = some x := by
  induction t generalizing p with
  | leaf s w =>
    simp only [Tree.path] at h
    split at h
    · next hs => cases h; simp [Tree.leafAt, Tree.follow, hs]
    · cases h
  | internal w l r ihl ihr =>
    simp only [Tree.path] at h
    split at h
    · next q hq => cases h; exact ihl hq
    · cases hr : r.path x with
      | none => rw [hr] at h; cases h
      | some q => rw [hr] at h; cases h; exact ihr hr

/-- R114 (d): a code word ends at the first leaf. -/
theorem decodeCode_leafAt {t : Tree} {p rest : List Bool} {x : Sym} (h : t.leafAt p = some x) :
    decodeCode t (p ++ rest) = .ok (if x = Config.eos then .wireEosCode else .wireCode (x.setWidth 8), rest) := by
  induction t generalizing p with
  | leaf s w =>
    cases p with
    | nil => simp [Tree.leafAt, Tree.follow] at h; subst h; rfl
    | cons b p => simp [Tree.leafAt, Tree.follow] at h
  | internal w l r ihl ihr =>
    cases p with
    | nil => simp [Tree.leafAt, Tree.follow] at h
    | cons b p =>
      cases b
      · exact ihl h
      · exact ihr h

theorem Tree.follow_of_leafAt {t : Tree} {p : List Bool} {x : Sym} (h : t.leafAt p = some x) : ∃ wx, t.follow p = some (.leaf x wx) := by
  rw [Tree.leafAt] at h
  split at h
  · next s' wx heq => exact ⟨wx, by rw [heq]; simp_all⟩
  · simp at h

/-- R13: a path is shorter than the number of leaves. -/
theorem Tree.path_length {t : Tree} {x : Sym} {p : List Bool} (h : t.path x = some p) : p.length + 1 ≤ t.leaves.length := by
  induction t generalizing p with
  | leaf s w =>
    simp only [Tree.path] at h
    split at h <;> cases h
    simp [Tree.leaves]
  | internal w l r ihl ihr =>
    simp only [Tree.path] at h
    have hr0 : 1 ≤ r.leaves.length := by have := r.size_eq_leaves; have := r.size_pos; omega
    have hl0 : 1 ≤ l.leaves.length := by have := l.size_eq_leaves; have := l.size_pos; omega
    split at h
    · next q hq => cases h; have := ihl hq; simp [Tree.leaves]; omega
    · cases hr : r.path x with
      | none => rw [hr] at h; cases h
      | some q => rw [hr] at h; cases h; have := ihr hr; simp [Tree.leaves]; omega

theorem Tree.path_eq_none {t : Tree} {x : Sym} : t.path x = none ↔ x ∉ t.syms := by
  induction t with
  | leaf s w => simp [Tree.path, Tree.syms]; exact ⟨fun h hh => h hh.symm, fun h hh => h hh.symm⟩
  | internal w l r ihl ihr =>
    simp only [Tree.path, Tree.syms, List.mem_append, not_or]
    rw [← ihl, ← ihr]
    cases l.path x <;> simp

theorem Tree.lastPath_eq_none {t : Tree} {x : Sym} : t.lastPath x = none ↔ x ∉ t.syms := by
  induction t with
  | leaf s w => simp [Tree.lastPath, Tree.syms]; exact ⟨fun h hh => h hh.symm, fun h hh => h hh.symm⟩
  | internal w l r ihl ihr =>
    simp only [Tree.lastPath, Tree.syms, List.mem_append, not_or]
    rw [← ihl, ← ihr]
    cases r.lastPath x <;> simp

/-- R24 (e): where no symbol occurs twice there is one path. -/
theorem Tree.lastPath_eq_path {t : Tree} (h : t.syms.Nodup) (x : Sym) : t.lastPath x = t.path x := by
  induction t with
  | leaf s w => rfl
  | internal w l r ihl ihr =>
    simp only [Tree.syms] at h
    rw [List.nodup_append] at h
    obtain ⟨h1, h2, h3⟩ := h
    simp only [Tree.lastPath, Tree.path, ihl h1, ihr h2]
    cases hl : l.path x with
    | none => cases hr : r.path x <;> rfl
    | some p =>
      have hxl : x ∈ l.syms := by by_contra hh; rw [Tree.path_eq_none.2 hh] at hl; cases hl
      have hxr : x ∉ r.syms := fun hh => h3 x hxl x hh rfl
      rw [Tree.path_eq_none.2 hxr]; rfl

theorem Tree.path_of_mem {t : Tree} {x : Sym} (h : x ∈ t.syms) : ∃ p, t.path x = some p := by
  cases hp : t.path x with
  | none => exact absurd h (Tree.path_eq_none.1 hp)
  | some p => exact ⟨p, rfl⟩

/-- R141: no literal is the end-of-stream symbol. -/
theorem byte_ne_eos (b : Byte) : b.setWidth 9 ≠ Config.eos := by
  intro h
  have := congrArg BitVec.toNat h
  simp at this
  omega

end Sys2Proof
end

