-- ==== Sys2Proof/Laws/Walks.lean ====
section
/-! SUPPORT. The decoder's walk while ports work (R202 to R208), and the walk that makes the code table (R170, R171). -/

namespace Sys2Proof.Machine

open Safety

/-- R202: one body bit, from a cursor inside the tree. -/
theorem decodeBit_ok {root c : Tree} {s : State} (h : PortsWork s) {b : Bool} {post : List Bool}
    (hr : s.mem.src.rest = b :: post) (hc : s.work.cur = some c) :
    decodeBit root s =
      .ok (outcomeAt (childOf c b))
        (s.ran { s.work with cur := some (childOf c b) } (s.mem.src.pos + 1) [] [.srcRead 1 (.value b.toNat)]) := by
  rw [decodeBit, srcRead_bit h hr, Res.bind_ok]
  cases b <;> simp [hc]

/-- R204: no body bit is left. -/
theorem decodeBit_eod {root : Tree} {s : State} (h : PortsWork s) (hr : s.mem.src.rest = []) :
    decodeBit root s =
      .raise ⟨Kind.truncatedStream, 0#4, 0#32⟩ (s.ran s.work s.mem.src.pos [] [.srcRead 1 .eod]) := by
  rw [decodeBit, srcRead_eod h (by simp [hr]), Res.bind_ok]

theorem decodeLoop_eod {root : Tree} {n : Nat} {s : State} (h : PortsWork s) (hr : s.mem.src.rest = []) :
    decodeLoop root n s =
      .raise ⟨Kind.truncatedStream, 0#4, 0#32⟩ (s.ran s.work s.mem.src.pos [] [.srcRead 1 .eod]) := by
  cases n <;> rw [decodeLoop, decodeBit_eod h hr, Res.bind_raise]

theorem follow_cons_internal {w : Nat} {l r : Tree} {b : Bool} {bs : List Bool} :
    (Tree.internal w l r).follow (b :: bs) = (childOf (.internal w l r) b).follow bs := by
  cases b <;> rfl

/-- R202, R119: a code word that leads to a literal. -/
theorem decodeLoop_literal {root : Tree} {x : Sym} {wx : Nat} (hx : x ≠ Config.eos) (p : List Bool) {n : Nat} {c : Tree}
    {s : State} {post : List Bool} (h : PortsWork s) (ho : s.mem.snk.closed = false)
    (hi : ∃ w l r, c = .internal w l r) (hr : s.mem.src.rest = p ++ post) (hc : s.work.cur = some c)
    (hp : c.follow p = some (.leaf x wx)) :
    decodeLoop root (p.length + n) s =
      decodeLoop root n
        (s.ran { s.work with cur := some root } (s.mem.src.pos + p.length) (bitsOf 8 x.toNat)
          (readBits p ++ [.snkWrite 8 x.toNat true])) := by
  induction p generalizing c s with
  | nil => obtain ⟨w, l, r, rfl⟩ := hi; simp [Tree.follow] at hp
  | cons b p ih =>
    obtain ⟨w, l, r, rfl⟩ := hi
    rw [follow_cons_internal] at hp
    rw [List.length_cons, show p.length + 1 + n = (p.length + n) + 1 by omega, decodeLoop,
      decodeBit_ok h hr hc, Res.bind_ok]
    cases hchild : childOf (.internal w l r) b with
    | leaf y wy =>
      rw [hchild] at hp
      cases p with
      | cons b' p' => simp [Tree.follow] at hp
      | nil =>
        simp only [Tree.follow, Option.some.injEq, Tree.leaf.injEq] at hp
        obtain ⟨rfl, rfl⟩ := hp
        simp only [outcomeAt, if_neg hx, putLiteral, List.length_nil, Nat.zero_add]
        rw [snkWrite_ok (h.ran _ _ _ _) (by simpa using ho), Res.bind_ok, Res.bind_ok]
        simp [readBits]
    | internal w' l' r' =>
      rw [hchild] at hp
      simp only [outcomeAt]
      rw [ih (h.ran _ _ _ _) (by simpa using ho) ⟨w', l', r', rfl⟩ (by rw [ran_rest, hr]; simp) rfl hp]
      simp [readBits, Nat.add_assoc, Nat.add_comm 1]

/-- R202, R206: a code word that leads to the EOS leaf ends the walk, and nothing after it is read. -/
theorem decodeLoop_eos {root : Tree} {wx : Nat} (p : List Bool) {n : Nat} {c : Tree} {s : State} {post : List Bool}
    (h : PortsWork s) (hi : ∃ w l r, c = .internal w l r) (hr : s.mem.src.rest = p ++ post)
    (hc : s.work.cur = some c) (hp : c.follow p = some (.leaf Config.eos wx)) :
    decodeLoop root (p.length + n) s =
      .ok () (s.ran { s.work with cur := some (.leaf Config.eos wx) } (s.mem.src.pos + p.length) [] (readBits p)) := by
  induction p generalizing c s with
  | nil => obtain ⟨w, l, r, rfl⟩ := hi; simp [Tree.follow] at hp
  | cons b p ih =>
    obtain ⟨w, l, r, rfl⟩ := hi
    rw [follow_cons_internal] at hp
    rw [List.length_cons, show p.length + 1 + n = (p.length + n) + 1 by omega, decodeLoop,
      decodeBit_ok h hr hc, Res.bind_ok]
    cases hchild : childOf (.internal w l r) b with
    | leaf y wy =>
      rw [hchild] at hp
      cases p with
      | cons b' p' => simp [Tree.follow] at hp
      | nil =>
        simp only [Tree.follow, Option.some.injEq, Tree.leaf.injEq] at hp
        obtain ⟨rfl, rfl⟩ := hp
        simp [outcomeAt, readBits]
    | internal w' l' r' =>
      rw [hchild] at hp
      simp only [outcomeAt]
      rw [ih (h.ran _ _ _ _) ⟨w', l', r', rfl⟩ (by rw [ran_rest, hr]; simp) rfl hp]
      simp [readBits, Nat.add_assoc, Nat.add_comm 1]

/-- R204: the bits end inside a code word. -/
theorem decodeLoop_inside {root : Tree} (p : List Bool) {c : Tree} {s : State} (h : PortsWork s)
    (hi : ∃ w l r, c = .internal w l r) (hr : s.mem.src.rest = p) (hc : s.work.cur = some c)
    (hp : c.insideAt p = true) :
    ∃ w, decodeLoop root p.length s =
      .raise ⟨Kind.truncatedStream, 0#4, 0#32⟩
        (s.ran w (s.mem.src.pos + p.length) [] (readBits p ++ [.srcRead 1 .eod])) := by
  induction p generalizing c s with
  | nil => exact ⟨s.work, by rw [decodeLoop_eod h hr]; rfl⟩
  | cons b p ih =>
    obtain ⟨w, l, r, rfl⟩ := hi
    rw [Tree.insideAt, follow_cons_internal] at hp
    rw [List.length_cons, decodeLoop, decodeBit_ok h hr hc, Res.bind_ok]
    cases hchild : childOf (.internal w l r) b with
    | leaf y wy =>
      rw [hchild] at hp
      cases p <;> simp [Tree.follow] at hp
    | internal w' l' r' =>
      rw [hchild] at hp
      simp only [outcomeAt]
      obtain ⟨w1, h1⟩ := ih (h.ran { s.work with cur := some (.internal w' l' r') } (s.mem.src.pos + 1) []
        [.srcRead 1 (.value b.toNat)]) ⟨w', l', r', rfl⟩ (by rw [ran_rest, hr]; simp) rfl hp
      exact ⟨w1, by rw [h1]; simp [readBits, Nat.add_assoc, Nat.add_comm 1]⟩

/-- R208: the code words of literals, one after the other. -/
theorem decodeLoop_literals {w : Nat} {l r : Tree} (xs : List (List Bool × Sym)) {n : Nat} {s : State}
    {post : List Bool} (h : PortsWork s) (ho : s.mem.snk.closed = false)
    (hr : s.mem.src.rest = codeBits xs ++ post) (hc : s.work.cur = some (.internal w l r))
    (hx : CodeWords (.internal w l r) xs) :
    decodeLoop (.internal w l r) ((codeBits xs).length + n) s =
      decodeLoop (.internal w l r) n
        (s.ran s.work (s.mem.src.pos + (codeBits xs).length) (literalsOf xs) (decodeTxns xs)) := by
  induction xs generalizing s with
  | nil => simp [codeBits, literalsOf, decodeTxns, State.ran_self]
  | cons x xs ih =>
    obtain ⟨hx1, hx2⟩ := hx x (by simp)
    have hf : ∃ wx, (Tree.internal w l r).follow x.1 = some (.leaf x.2 wx) := by
      rw [Tree.leafAt] at hx1
      split at hx1
      · next s' wx heq => exact ⟨wx, by rw [heq]; simp_all⟩
      · simp at hx1
    obtain ⟨wx, hf⟩ := hf
    have hr' : s.mem.src.rest = x.1 ++ (codeBits xs ++ post) := by
      rw [hr]; simp [codeBits]
    have hlen : (codeBits (x :: xs)).length + n = x.1.length + ((codeBits xs).length + n) := by
      simp [codeBits]; omega
    rw [hlen, decodeLoop_literal hx2 x.1 h ho ⟨w, l, r, rfl⟩ hr' hc hf,
      ih (h.ran _ _ _ _) (by simpa using ho) (by rw [ran_rest, hr']; simp) rfl (fun y hy => hx y (by simp [hy]))]
    have hw : { s.work with cur := some (Tree.internal w l r) } = s.work := by
      cases hs : s.work; simp_all
    simp [hw, codeBits, literalsOf, decodeTxns, Nat.add_assoc]

/-- R202, R206: literals, then an EOS leaf. -/
theorem decodeLoop_body {w : Nat} {l r : Tree} (xs : List (List Bool × Sym)) (p post : List Bool) {wx : Nat} {s : State}
    (h : PortsWork s) (ho : s.mem.snk.closed = false) (hr : s.mem.src.rest = codeBits xs ++ (p ++ post))
    (hc : s.work.cur = some (.internal w l r)) (hx : CodeWords (.internal w l r) xs)
    (hp : (Tree.internal w l r).follow p = some (.leaf Config.eos wx)) :
    decodeLoop (.internal w l r) s.mem.src.rest.length s =
      .ok () (s.ran { s.work with cur := some (.leaf Config.eos wx) } (s.mem.src.pos + (codeBits xs).length + p.length)
        (literalsOf xs) (decodeTxns xs ++ readBits p)) := by
  rw [show s.mem.src.rest.length = (codeBits xs).length + (p.length + post.length) by simp [hr],
    decodeLoop_literals xs h ho hr hc hx,
    decodeLoop_eos p (post := post) (h.ran _ _ _ _) ⟨w, l, r, rfl⟩ (by rw [ran_rest, hr]; simp) hc hp]
  simp

/-- R204: literals, then bits that end inside the tree. -/
theorem decodeLoop_cut {w : Nat} {l r : Tree} (xs : List (List Bool × Sym)) (p : List Bool) {s : State}
    (h : PortsWork s) (ho : s.mem.snk.closed = false) (hr : s.mem.src.rest = codeBits xs ++ p)
    (hc : s.work.cur = some (.internal w l r)) (hx : CodeWords (.internal w l r) xs)
    (hp : (Tree.internal w l r).insideAt p = true) :
    ∃ w1, decodeLoop (.internal w l r) s.mem.src.rest.length s =
      .raise ⟨Kind.truncatedStream, 0#4, 0#32⟩ (s.ran w1 (s.mem.src.pos + (codeBits xs).length + p.length)
        (literalsOf xs) (decodeTxns xs ++ readBits p ++ [.srcRead 1 .eod])) := by
  rw [show s.mem.src.rest.length = (codeBits xs).length + p.length by simp [hr],
    decodeLoop_literals xs h ho hr hc hx]
  obtain ⟨w1, h1⟩ := decodeLoop_inside p (root := .internal w l r) (h.ran s.work (s.mem.src.pos + (codeBits xs).length)
    (literalsOf xs) (decodeTxns xs)) ⟨w, l, r, rfl⟩ (by rw [ran_rest, hr]; simp) hc hp
  exact ⟨w1, by rw [h1]; simp⟩

/-! ## One code word -/

/-- R114 (d): the walk along one code word. -/
theorem walkCode_leaf {root : Tree} {x : Sym} {wx : Nat} (p : List Bool) {n : Nat} {c : Tree}
    {s : State} {post : List Bool} (h : PortsWork s)
    (hi : ∃ w l r, c = .internal w l r) (hr : s.mem.src.rest = p ++ post) (hc : s.work.cur = some c)
    (hp : c.follow p = some (.leaf x wx)) :
    walkCode root (p.length + n) s =
      .ok (if x = Config.eos then .eos else .symbol x) (s.ran { s.work with cur := some (.leaf x wx) } (s.mem.src.pos + p.length) [] (readBits p)) := by
  induction p generalizing c s with
  | nil => obtain ⟨w, l, r, rfl⟩ := hi; simp [Tree.follow] at hp
  | cons b p ih =>
    obtain ⟨w, l, r, rfl⟩ := hi
    rw [follow_cons_internal] at hp
    rw [List.length_cons, show p.length + 1 + n = (p.length + n) + 1 by omega, walkCode,
      decodeBit_ok h hr hc, Res.bind_ok]
    cases hchild : childOf (.internal w l r) b with
    | leaf y wy =>
      rw [hchild] at hp
      cases p with
      | cons b' p' => simp [Tree.follow] at hp
      | nil =>
        simp only [Tree.follow, Option.some.injEq, Tree.leaf.injEq] at hp
        obtain ⟨rfl, rfl⟩ := hp
        by_cases hy : y = Config.eos
        · simp [outcomeAt, hy, readBits]
        · simp [outcomeAt, hy, readBits]
    | internal w' l' r' =>
      rw [hchild] at hp
      simp only [outcomeAt]
      rw [ih (h.ran _ _ _ _) ⟨w', l', r', rfl⟩ (by rw [ran_rest, hr]; simp) rfl hp]
      simp [readBits, Nat.add_assoc, Nat.add_comm 1]

/-- R111, R112: one code word is read. -/
theorem readCode_leaf {w : Nat} {l r : Tree} {p post : List Bool} {x : Sym} {wx : Nat} {s : State} (h : PortsWork s)
    (ht : s.work.tree = some (.internal w l r)) (hr : s.mem.src.rest = p ++ post)
    (hp : (Tree.internal w l r).follow p = some (.leaf x wx)) :
    readCode s =
      .ok (if x = Config.eos then .eos else .symbol x)
        (s.ran { s.work with cur := some (.leaf x wx) } (s.mem.src.pos + p.length) [] (readBits p)) := by
  unfold readCode
  rw [ht]
  simp only
  have := walkCode_leaf (root := .internal w l r) p (n := post.length) (s := s.setWork { s.work with cur := some (.internal w l r) }) (post := post) h ⟨w, l, r, rfl⟩ hr rfl hp
  rw [show s.mem.src.rest.length = p.length + post.length by simp [hr], this]
  rfl

/-! ## GENCODES -/

/-- R33: the walk leaves the stack, the path and every other store but CODE as they were. -/
theorem walkCodes_eq (t : Tree) (w : Work) : walkCodes t w = { w with code := (walkCodes t w).code } := by
  induction t generalizing w with
  | leaf s n => rw [walkCodes]; unfold Work.recordCode; split <;> rfl
  | internal n l r ihl ihr =>
    rw [walkCodes, ihr, ihl]
    simp [Work.push, Work.turn, Work.pop, Work.up, Work.down]

theorem symIndex_eq {x : Sym} {i : Fin 257} : symIndex x = some i ↔ x = BitVec.ofNat 9 i.val := by
  unfold symIndex
  constructor
  · intro h
    split at h
    · next hx =>
      cases h
      exact BitVec.eq_of_toNat_eq (by simp)
    · cases h
  · rintro rfl
    have hi := i.isLt
    have : i.val % 512 = i.val := Nat.mod_eq_of_lt (by omega)
    simp [this]

/-- R170, R171: what the walk records. -/
theorem walkCodes_code (t : Tree) (w : Work) (i : Fin 257) :
    (walkCodes t w).code[i] =
      match t.lastPath (BitVec.ofNat 9 i.val) with
      | some p => ⟨true, w.path ++ p⟩
      | none => w.code[i] := by
  induction t generalizing w with
  | leaf s n =>
    rw [walkCodes, Tree.lastPath]
    by_cases hs : s = BitVec.ofNat 9 i.val
    · rw [if_pos hs]
      unfold Work.recordCode
      rw [symIndex_eq.2 hs]
      simp
    · rw [if_neg hs]
      unfold Work.recordCode
      cases hx : symIndex s with
      | none => rfl
      | some j =>
        have hj := symIndex_eq.1 hx
        have : j.val ≠ i.val := by rintro h; exact hs (by rw [hj, h])
        simp [this]
  | internal n l r ihl ihr =>
    rw [walkCodes, Tree.lastPath]
    simp only [Work.pop_code, Work.up_code]
    rw [ihr]
    cases hr : r.lastPath (BitVec.ofNat 9 i.val) with
    | some p =>
      simp only [Work.down_path, Work.turn_path, Work.up_path]
      rw [walkCodes_eq]
      simp
    | none =>
      simp only [Work.down_code, Work.turn_code, Work.up_code]
      rw [ihl]
      cases hl : l.lastPath (BitVec.ofNat 9 i.val) <;> simp

/-- R170: the code table GENCODES makes, for every tree of table symbols. -/
theorem gencodes_work (t : Tree) (w : Work) :
    walkCodes t w.clearCodes =
      { w with
        path := []
        code := Vector.ofFn fun i =>
          match t.lastPath (BitVec.ofNat 9 i.val) with
          | some p => ⟨true, p⟩
          | none => ⟨false, w.code[i].bits⟩ } := by
  rw [walkCodes_eq]
  have hc : (walkCodes t w.clearCodes).code = Vector.ofFn fun i =>
      match t.lastPath (BitVec.ofNat 9 i.val) with
      | some p => (⟨true, p⟩ : CodeEntry)
      | none => ⟨false, w.code[i].bits⟩ := by
    ext i hi
    have := walkCodes_code t w.clearCodes ⟨i, hi⟩
    simp only [Fin.getElem_fin] at this
    rw [this]
    simp only [Vector.getElem_ofFn, Work.clearCodes_path, Work.clearCodes_code, List.nil_append, Vector.getElem_map,
      Fin.getElem_fin]
  rw [hc]
  rfl

end Sys2Proof.Machine
end

