-- ==== Sys2Proof/Tests/Slice0.lean ====
section
/-! SUPPORT. The model's own tests. Expected results come from spec/95_test_vectors.md (the vector's id stands beside each)
or are worked out by hand from the rule named. -/

namespace Sys2Proof.Tests

open Machine Safety

/-! ## Helpers -/

/-- Reset, with the parameters the vectors use (95_test_vectors.md, Configuration). -/
def base : State := { State.reset with cfg := ⟨0xFACE8201#32, some 32, some 513⟩ }

/-- A state in a phase, with a source standing at a position. -/
def at_ (p : BitVec 4) (bits : List Bool) (pos : Nat := 0) : State :=
  { base with phase := p, mem := { base.mem with src := ⟨bits, pos⟩ } }

/-- The same with other stores. -/
def with_ (s : State) (f : Work → Work) : State := s.setWork (f s.work)

/-- A sink with these bits. -/
def sunk (s : State) (bits : List Bool) (closed : Bool := false) : State := s.setSnk ⟨bits, closed⟩

def bits (n v : Nat) : List Bool := bitsOf n v

/-- What an outcome's next state shows. -/
def look {α : Type} (o : Host.Outcome State Fault Refusal) (f : State → α) : Option α :=
  match o with
  | .next s => some (f s)
  | .fault _ => none
  | .refused _ => none

/-- Why an outcome is refused. -/
def why (o : Host.Outcome State Fault Refusal) : Option Refusal :=
  match o with
  | .next _ => none
  | .fault _ => none
  | .refused r => some r

/-- The next state, or another. -/
def nextOr (o : Host.Outcome State Fault Refusal) (d : State) : State :=
  match o with
  | .next s => s
  | .fault _ => d
  | .refused _ => d

theorem eq_nextOr {o : Host.Outcome State Fault Refusal} {d : State} (h : (look o fun _ => ()) = some ()) :
    o = .next (nextOr o d) := by
  cases o with
  | next s => rfl
  | fault => cases h
  | refused => cases h

/-- PHASE, CAUSE.KIND, CAUSE.SUB, INFO. -/
def control (s : State) : BitVec 4 × BitVec 3 × BitVec 4 × Word := (s.phase, s.causeKind, s.causeSub, s.info)

def freqOf (l : List (Nat × Nat)) : Vector Nat 257 :=
  Vector.ofFn fun i => ((l.find? fun c => c.1 == i.val).map Prod.snd).getD 0

def L (s : Nat) (w : Nat := 0) : Tree := .leaf (BitVec.ofNat 9 s) w
def I (w : Nat) (l r : Tree) : Tree := .internal w l r

/-- The tree of H4 and P1. -/
def treeH4 : Tree := I 0 (I 0 (L 66) (L 256)) (L 65)

/-- The code table of G4. -/
def codeG4 : Vector CodeEntry 257 := Vector.ofFn fun i =>
  if i.val = 65 then ⟨true, [true]⟩
  else if i.val = 66 then ⟨true, [false, false]⟩
  else if i.val = 256 then ⟨true, [false, true]⟩
  else ⟨false, []⟩

/-! ## Well-formed instructions: one ill-formed term for each check -/

theorem test_wf_weights : Instr.WellFormed (.pqInsert (I 3 (L 65 1) (L 66 1))) = false := by decide
theorem test_wf_symbols : Instr.WellFormed (.pqInsert (L 257 1)) = false := by decide
theorem test_wf_insert : Instr.WellFormed (.pqInsert (I 2 (L 65 1) (L 256 1))) = true := by decide
theorem test_wf_read : Instr.WellFormed (.srcRead 7) = false ∧ Instr.WellFormed (.srcRead 9) = true := by decide
theorem test_wf_write_low : Instr.WellFormed (.snkWrite 0 0#32) = false := by decide
theorem test_wf_write_high :
    Instr.WellFormed (.snkWrite 33 0#32) = false ∧ Instr.WellFormed (.snkWrite 32 0#32) = true := by decide

/-! ## Decoding: every constructor's word, written out from 30_encoding.md -/

-- R101 to R103: bits 31:2 are ignored
theorem test_decode_cmd :
    decodeTableWord 32 0b00000000000000000000000000000000 = some .cmdNop ∧
    decodeTableWord 32 0b00000000000000000000000000000001 = some .compress ∧
    decodeTableWord 32 0b00000000000000000000000000000010 = some .decompress ∧
    decodeTableWord 32 0b00000000000000000000000000000011 = some .cmdReserved ∧
    decodeTableWord 32 0b10000000000000000000000000000101 = some .compress := by decide

-- R104
theorem test_decode_phase_low :
    decodeTableWord 4 0x0 = some .idle ∧ decodeTableWord 4 0x1 = some .count ∧ decodeTableWord 4 0x2 = some .build ∧
    decodeTableWord 4 0x3 = some .gencodes ∧ decodeTableWord 4 0x4 = some .wrmagic ∧
    decodeTableWord 4 0x5 = some .wrhdr ∧ decodeTableWord 4 0x6 = some .rewind ∧
    decodeTableWord 4 0x7 = some .encode := by decide
theorem test_decode_phase_high :
    decodeTableWord 4 0x8 = some .close ∧ decodeTableWord 4 0x9 = some .chkmagic ∧
    decodeTableWord 4 0xA = some .rdhdr ∧ decodeTableWord 4 0xB = some .decode ∧ decodeTableWord 4 0xC = some .phaseC ∧
    decodeTableWord 4 0xD = some .phaseD ∧ decodeTableWord 4 0xE = some .done ∧
    decodeTableWord 4 0xF = some .fault := by decide

-- R106 with MAGIC = 0xFACE8201 (M4)
theorem test_decode_magic :
    decode ⟨0xFACE8201#32, none, 0⟩ .wireMagic
      ([true, true, true, true, true, false, true, false] ++ [true, true, false, false, true, true, true, false] ++
       [true, false, false, false, false, false, true, false] ++
       [false, false, false, false, false, false, false, true]) = .ok (.wireMagic, []) := by decide

-- R108, R109 (H1, H4)
theorem test_decode_node :
    decode ⟨0#32, none, 0⟩ .wireNode [false, true] = .ok (.wireNodeInternal, [true]) ∧
    decode ⟨0#32, none, 0⟩ .wireNode [true, false, false, true, false, false, false, false, true, false] =
      .ok (.wireNodeLeaf 66#9, []) ∧
    decodeTableWord 10 0b1100000000 = some (.wireNodeLeaf 256#9) := by decide

-- R111, R112 (E4, D3)
theorem test_decode_code :
    decode ⟨0#32, some treeH4, 0⟩ .wireBody [false, false, true] = .ok (.wireCode 66#8, [true]) ∧
    decode ⟨0#32, some treeH4, 0⟩ .wireBody [false, true] = .ok (.wireEosCode, []) ∧
    decode ⟨0#32, some (L 256), 0⟩ .wireBody [true] = .ok (.wireEosCode, [true]) := by decide

-- R119, R205 (D8): symbol 321 stands for the literal 65
theorem test_decode_code_high :
    decode ⟨0#32, some (I 0 (L 321) (L 256)), 0⟩ .wireBody [false] = .ok (.wireCode 65#8, []) := by decide

-- R113 (M6, M8)
theorem test_decode_padding :
    decode ⟨0#32, none, 71⟩ .wirePad [false] = .ok (.wirePadding, []) ∧
    decode ⟨0#32, none, 42⟩ .wirePad [false, false, false, false, false, false] = .ok (.wirePadding, []) := by decide

-- every way to be no instruction, by name
theorem test_decode_rejects :
    decode ⟨0#32, none, 0⟩ .cmd [true] = .error .tooShort ∧
    decode ⟨0#32, none, 0⟩ .wireMagic [true] = .error .magicMissing ∧
    decode ⟨1#32, none, 0⟩ .wireMagic (bits 32 2) = .error (.magicWrong 2#32) ∧
    decode ⟨0#32, none, 0⟩ .wireNode [] = .error .headerEndsAtFlag ∧
    decode ⟨0#32, none, 0⟩ .wireNode [true, true] = .error .headerEndsInSymbol ∧
    decode ⟨0#32, none, 0⟩ .wireBody [true] = .error .noTree ∧
    decode ⟨0#32, some (L 65), 0⟩ .wireBody [true] = .error (.leafRoot 65#9) ∧
    decode ⟨0#32, some treeH4, 0⟩ .wireBody [false] = .error .bodyEnds ∧
    decode ⟨0#32, none, 71⟩ .wirePad [true] = .error .notPadding := by decide

-- the encoder, against H4, E4 and M4
theorem test_encode :
    encode ⟨0#32, none, 0⟩ (.wireNodeLeaf 65#9) =
      some [true, false, false, true, false, false, false, false, false, true] ∧
    encode ⟨0#32, some treeH4, 0⟩ (.wireCode 66#8) = some [false, false] ∧
    encode ⟨0#32, some treeH4, 0⟩ .wireEosCode = some [false, true] ∧
    encode ⟨0#32, some (L 65), 0⟩ (.wireCode 65#8) = none ∧
    encode ⟨0#32, none, 0⟩ .rdhdr = some [true, false, true, false] := by decide

/-! ## Commands and the host -/

-- R226, V6
theorem test_compress_starts :
    look (step { base with phase := Phase.fault, causeKind := 3#3, info := 7#32, inputs := [.write 0 1#32] }) control =
      some (Phase.count, 0#3, 0#4, 0#32) := by decide
theorem test_compress_refused : why (exec .compress (sunk base [true])) = some .sinkNotFresh := by decide
-- R225
theorem test_decompress_starts : look (exec .decompress base) control = some (Phase.chkmagic, 0#3, 0#4, 0#32) := by
  decide
-- R83, X3
theorem test_decompress_shared :
    why (exec .decompress { base with mem := { base.mem with shared := true } }) = some .sharedStream := by decide
-- R83: no port transaction on one shared stream
theorem test_read_shared : why (exec (.srcRead 8) { base with mem := { base.mem with shared := true } }) = some .sharedStream := by
  decide
-- R226, X6
theorem test_busy_ignores :
    look (step { base with phase := Phase.encode, inputs := [.write 0 2#32] }) control =
      some (Phase.encode, 0#3, 0#4, 0#32) := by decide
-- R103
theorem test_reserved : look (step { base with inputs := [.write 0 7#32] }) control = some (Phase.idle, 0#3, 0#4, 0#32) := by
  decide
theorem test_nop : look (exec .cmdNop base) control = some (Phase.idle, 0#3, 0#4, 0#32) := by decide
-- P1, P4: the STATUS words at the end of a command
theorem test_status :
    ({ base with phase := Phase.done } : State).status = 0x000000E2#32 ∧
    ({ base with phase := Phase.fault } : State).status = 0x000000F4#32 ∧
    ({ base with phase := Phase.rdhdr } : State).status = 0x000000A1#32 := by decide
-- R39
theorem test_offsets :
    base.readOffset 0x10 = some 0xFACE8201#32 ∧ base.readOffset 0x14 = some 0#32 ∧ base.readOffset 0x06 = none := by decide
-- R270, X11
theorem test_reset_while_busy :
    look (step { sunk (at_ Phase.encode []) [true] with inputs := [.reset] }) (fun t => (control t, t.mem.snk)) =
      some ((Phase.idle, 0#3, 0#4, 0#32), ⟨[true], false⟩) := by decide

/-! ## Resting phases and the codes never produced -/

theorem test_resting :
    look (exec .idle base) control = some (control base) ∧ look (exec .done base) control = some (control base) ∧
    look (exec .fault base) control = some (control base) := by decide
theorem test_reserved_phases :
    why (exec .phaseC base) = some .phaseNeverProduced ∧ why (exec .phaseD base) = some .phaseNeverProduced := by decide

/-! ## Port transactions -/

-- M9, M10, M11
theorem test_read :
    look (exec (.srcRead 9) (at_ 0 (bits 16 0b1100000000000000) 1)) (fun t => (t.mem.src.pos, t.trace)) =
      some (10, [.srcRead 9 (.value 256)]) := by decide
theorem test_read_eod :
    look (exec (.srcRead 9) (at_ 0 (bits 8 0b11000000) 1)) (fun t => (t.mem.src.pos, t.trace)) =
      some (1, [.srcRead 9 .eod]) := by decide
-- M13
theorem test_rewind_port : look (exec .srcReset (at_ 0 (bits 40 7) 40)) (fun t => t.mem.src) = some ⟨bits 40 7, 0⟩ := by
  decide
-- M1, M5
theorem test_write :
    look (exec (.snkWrite 9 256#32) base) (fun t => t.mem.snk.bits) =
      some [true, false, false, false, false, false, false, false, false] := by decide
theorem test_write_low_bits :
    look (exec (.snkWrite 8 321#32) base) (fun t => t.mem.snk.bits) =
      some [false, true, false, false, false, false, false, true] := by decide
-- M6, M7
theorem test_close_port :
    look (exec .snkClose (sunk base (List.replicate 71 true))) (fun t => (t.mem.snk.bits.length, t.mem.snk.closed)) =
      some (72, true) := by decide +kernel
theorem test_close_port_whole :
    look (exec .snkClose (sunk base (List.replicate 160 true))) (fun t => (t.mem.snk.bits.length, t.mem.snk.closed)) =
      some (160, true) := by decide +kernel

/-! ## COUNT -/

-- C3
theorem test_count :
    look (exec .count (at_ Phase.count (bits 32 0x41414142)))
      (fun t => (t.phase, t.work.nbytes, t.work.freq[65], t.work.freq[66], t.work.freq[256], t.trace.length)) =
      some (Phase.build, 4, 3, 1, 1, 5) := by decide +kernel
-- C8 scaled down by hand from R143: CNT_W = 2 holds two bytes, the third read faults
theorem test_count_full :
    look (exec .count { at_ Phase.count (bits 32 0x07070707) with cfg := ⟨0#32, some 2, none⟩ })
      (fun t => (control t, t.trace.length, t.mem.src.pos)) =
      some ((Phase.fault, 5#3, 0#4, 0#32), 3, 24) := by decide +kernel

/-! ## The queue and BUILD -/

def q1 : List PqEntry := [⟨3, 0#10, L 65⟩, ⟨1, 1#10, L 66⟩, ⟨1, 2#10, L 256⟩]

-- Q1, Q3, Q4
theorem test_remove_min :
    look (exec .pqRemoveMin (with_ base fun w => { w with pq := q1 })) (fun t => (t.work.ret, t.work.pq)) =
      some (some (L 66), [⟨3, 0#10, L 65⟩, ⟨1, 2#10, L 256⟩]) := by decide
theorem test_remove_min_ties :
    look (exec .pqRemoveMin (with_ base fun w => { w with pq := [⟨2, 4#10, L 1⟩, ⟨2, 6#10, L 2⟩, ⟨2, 1#10, L 3⟩] }))
      (fun t => t.work.ret) = some (some (L 3)) := by decide
theorem test_insert :
    look (exec (.pqInsert (I 2 (L 66) (L 256))) (with_ base fun w => { w with pq := [⟨3, 0#10, L 65⟩], seq := 3#10 }))
      (fun t => (t.work.pq, t.work.seq)) =
      some ([⟨3, 0#10, L 65⟩, ⟨2, 3#10, I 2 (L 66) (L 256)⟩], 4#10) := by decide
-- B4, B5
theorem test_build :
    look (exec .build (with_ base fun w => { w with freq := freqOf [(65, 3), (66, 1), (256, 1)] }))
      (fun t => (t.work.tree, t.work.nnodes, t.phase)) =
      some (some (I 5 (I 2 (L 66 1) (L 256 1)) (L 65 3)), 5, Phase.gencodes) := by decide +kernel
theorem test_build_ties :
    look (exec .build (with_ base fun w => { w with freq := freqOf [(65, 1), (66, 1), (256, 1)] }))
      (fun t => t.work.tree) =
      some (some (I 3 (L 256 1) (I 2 (L 65 1) (L 66 1)))) := by decide +kernel

/-! ## GENCODES -/

-- G4, G1
theorem test_gencodes :
    look (exec .gencodes (with_ base fun w => { w with tree := some treeH4 }))
      (fun t => (t.work.code[65], t.work.code[66], t.work.code[256], t.work.code[0].valid, t.phase)) =
      some (⟨true, [true]⟩, ⟨true, [false, false]⟩, ⟨true, [false, true]⟩, false, Phase.wrmagic) := by decide +kernel
theorem test_gencodes_leaf :
    look (exec .gencodes (with_ base fun w => { w with tree := some (L 256) })) (fun t => t.work.code[256]) =
      some ⟨true, []⟩ := by decide +kernel

-- R115, R170: a symbol the table has no entry for does not keep the others from being recorded
theorem test_gencodes_beyond :
    look (exec .gencodes (with_ base fun w => { w with tree := some (I 0 (L 321) (L 65)) }))
      (fun t => (t.work.code[65], t.work.code[256].valid, t.work.path, t.phase)) =
      some (⟨true, [true]⟩, false, [], Phase.wrmagic) := by decide +kernel

/-! ## The header -/

-- H4
theorem test_wrhdr :
    look (exec .wrhdr (with_ base fun w => { w with tree := some treeH4 })) (fun t => (t.mem.snk.bits, t.phase)) =
      some (bits 32 0b00100100001011000000001001000001, Phase.rewind) := by decide
theorem test_rdhdr :
    look (exec .rdhdr (at_ Phase.rdhdr (bits 32 0b00100100001011000000001001000001)))
      (fun t => (t.work.tree, t.work.nnodes, t.mem.src.pos, t.phase)) =
      some (some treeH4, 5, 32, Phase.decode) := by decide
-- H13, H16
theorem test_rdhdr_cut :
    look (exec .rdhdr (at_ Phase.rdhdr (bits 9 0b110000000))) (fun t => (control t, t.mem.src.pos)) =
      some ((Phase.fault, 2#3, 1#4, 0#32), 1) := by decide

/-! ## Preamble, rewind, close -/

-- M4
theorem test_wrmagic :
    look (exec .wrmagic base) (fun t => (t.mem.snk.bits, t.phase)) =
      some (bits 32 0b11111010110011101000001000000001, Phase.wrhdr) := by decide
-- F1, F4
theorem test_chkmagic_wrong :
    look (exec .chkmagic (at_ Phase.chkmagic (bits 72 0xFACE8200242C0241E2))) (fun t => (control t, t.mem.src.pos)) =
      some ((Phase.fault, 1#3, 0#4, 0xFACE8200#32), 32) := by decide
theorem test_chkmagic_short :
    look (exec .chkmagic (at_ Phase.chkmagic (bits 24 0xFACE82))) (fun t => (control t, t.mem.src.pos)) =
      some ((Phase.fault, 1#3, 1#4, 0#32), 0) := by decide
theorem test_rewind :
    look (exec .rewind (at_ Phase.rewind (bits 8 0) 8)) (fun t => (t.mem.src.pos, t.phase)) = some (0, Phase.encode) := by
  decide
-- X8
theorem test_rewind_fails :
    look (exec .rewind { at_ Phase.rewind [] with answers := [.ioFail] }) control =
      some (Phase.fault, 4#3, 1#4, 0#32) := by decide
-- R223, R227
theorem test_close :
    look (exec .close (sunk base (List.replicate 71 true))) (fun t => (control t, t.mem.snk.bits.length)) =
      some ((Phase.done, 0#3, 0#4, 0#32), 72) := by decide +kernel

/-! ## ENCODE and DECODE -/

-- E4, E7
theorem test_encode_op :
    look (exec .encode (with_ (at_ Phase.encode (bits 32 0x41414142)) fun w => { w with code := codeG4 }))
      (fun t => (t.mem.snk.bits, t.phase)) =
      some ([true, true, true, false, false, false, true], Phase.close) := by decide +kernel
theorem test_encode_missing :
    look (exec .encode (with_ (at_ Phase.encode (bits 16 0x4143)) fun w => { w with code := codeG4 }))
      (fun t => (control t, t.mem.snk.bits)) =
      some ((Phase.fault, 4#3, 4#4, 0#32), [true]) := by decide +kernel
-- D3, D4
theorem test_decode_op :
    look (exec .decode (with_ (at_ Phase.decode [true, true, true, false, false, false, true, false]) fun w =>
        { w with tree := some treeH4 }))
      (fun t => (t.mem.snk.bits, t.mem.src.pos, t.phase)) =
      some (bits 32 0x41414142, 7, Phase.close) := by decide
theorem test_decode_cut :
    look (exec .decode (with_ (at_ Phase.decode [true, true, true, false, false]) fun w =>
        { w with tree := some treeH4 }))
      (fun t => (control t, t.mem.snk)) =
      some ((Phase.fault, 3#3, 0#4, 0#32), ⟨bits 32 0x41414142, false⟩) := by decide

/-! ## The records of the stream as instructions -/

theorem test_wire_magic_written : look (exec .wireMagic base) (fun t => t.mem.snk.bits) = some (bits 32 0xFACE8201) := by
  decide
theorem test_wire_magic_read :
    look (exec .wireMagic (at_ Phase.chkmagic (bits 32 0xFACE8201))) (fun t => (t.mem.src.pos, t.phase)) =
      some (32, Phase.chkmagic) := by decide
theorem test_wire_internal_written : look (exec .wireNodeInternal base) (fun t => t.mem.snk.bits) = some [false] := by
  decide
theorem test_wire_internal_read :
    look (exec .wireNodeInternal (at_ Phase.rdhdr [false, true])) (fun t => (t.mem.src.pos, t.work.nnodes)) =
      some (1, 1) := by decide
-- M3
theorem test_wire_leaf_written :
    look (exec (.wireNodeLeaf 66#9) base) (fun t => t.mem.snk.bits) = some (bits 10 0b1001000010) := by decide
theorem test_wire_leaf_read :
    look (exec (.wireNodeLeaf 66#9) (at_ Phase.rdhdr (bits 10 0b1001000010)))
      (fun t => (t.mem.src.pos, t.work.ret)) = some (10, some (L 66)) := by decide
theorem test_wire_code_written :
    look (exec (.wireCode 66#8) (with_ base fun w => { w with code := codeG4 })) (fun t => t.mem.snk.bits) =
      some [false, false] := by decide +kernel
theorem test_wire_code_read :
    look (exec (.wireCode 66#8) (with_ (at_ Phase.decode [false, false, true]) fun w => { w with tree := some treeH4 }))
      (fun t => (t.mem.src.pos, t.mem.snk.bits)) = some (2, bits 8 66) := by decide
theorem test_wire_eos_written :
    look (exec .wireEosCode (with_ base fun w => { w with code := codeG4 })) (fun t => t.mem.snk.bits) =
      some [false, true] := by decide +kernel
theorem test_wire_eos_read :
    look (exec .wireEosCode (with_ (at_ Phase.decode [false, true]) fun w => { w with tree := some treeH4 }))
      (fun t => (t.mem.src.pos, t.mem.snk.bits)) = some (2, []) := by decide
-- R113 (M8)
theorem test_wire_padding_written :
    look (exec .wirePadding (sunk base (List.replicate 42 true))) (fun t => (t.mem.snk.bits.drop 42, t.mem.snk.closed)) =
      some ([false, false, false, false, false, false], true) := by decide +kernel
-- R75
theorem test_wire_padding_read :
    look (exec .wirePadding (at_ Phase.decode [true, true])) (fun t => t.mem.src.pos) = some 0 := by decide

/-! ## A word of the opcode table is what the next step runs -/

theorem test_fetch_cmd : look (step (State.reset.withFetchWord 32 2)) (fun t => t.phase) = some Phase.chkmagic := by decide
theorem test_fetch_phase :
    look (step (State.reset.withFetchWord 4 1)) (fun t => t.phase) = some Phase.build ∧
    look (step (State.reset.withFetchWord 8 2)) (fun t => t.phase) = some Phase.gencodes ∧
    look (step (State.reset.withFetchWord 4 6)) (fun t => t.phase) = some Phase.encode := by decide +kernel
theorem test_fetch_node :
    look (step (State.reset.withFetchWord 10 0b1100000000)) (fun t => t.work.tree) = some (some (L 256)) := by decide

/-! ## Witnesses: for every statement that has hypotheses, a state and operands that meet all of them; where a statement has
clauses, each clause, at a value on the edge of its range. -/

/-- A next state with a property. -/
theorem runs {o : Host.Outcome State Fault Refusal} {p : State → Prop} [DecidablePred p]
    (h : look o (fun t => decide (p t)) = some true) : ∃ t, o = .next t ∧ p t := by
  cases o with
  | next t => exact ⟨t, rfl, by simpa [look] using h⟩
  | fault => cases h
  | refused => cases h

theorem ports_work {s : State} (h : s.answers = []) (hs : s.mem.shared = false := by rfl) : PortsWork s :=
  ⟨by simp [PortsAnswer, h], hs⟩

/-- The two trees used below: EOS left and 65 right, and one with an internal left child. -/
def treeTwo : Tree := I 0 (L 256) (L 65)

/-- A state whose tree is `t`. -/
def treed (s : State) (t : Tree) : State := with_ s fun w => { w with tree := some t }

/-- A state with the queue `q1`. -/
def queued : State := with_ base fun w => { w with pq := q1, seq := 3#10 }

/-- A state with the counters of C3. -/
def counted : State := with_ base fun w => { w with freq := freqOf [(65, 3), (66, 1), (256, 1)] }

theorem witness_DecodeInvertsEncode :
    (Instr.WellFormed (.wireNodeLeaf 511#9) = true ∧ Instr.format (.wireNodeLeaf 511#9) = some .wireNode ∧
      encode ⟨0#32, none, 0⟩ (.wireNodeLeaf 511#9) = some (true :: List.replicate 9 true)) ∧
    (Instr.WellFormed (.wireCode 255#8) = true ∧ Instr.format (.wireCode 255#8) = some .wireBody ∧
      encode ⟨0#32, some (I 0 (L 255) (L 256)), 0⟩ (.wireCode 255#8) = some [false]) ∧
    encode ⟨0#32, none, 1⟩ .wirePadding = some (List.replicate 7 false) := by decide

theorem witness_DecodedBitsAreTheEncoding :
    Format.wireNode ≠ .cmd ∧ Format.wireNode ≠ .wireBody ∧
    decode ⟨0#32, none, 0⟩ .wireNode [false] = .ok (.wireNodeInternal, []) ∧
    Format.phase ≠ .cmd ∧ Format.phase ≠ .wireBody ∧
    decode ⟨0#32, none, 0⟩ .phase [true, true, true, true] = .ok (.fault, []) := by decide

theorem witness_CodeWordsEndAtTheirLeaf :
    (treeH4.leafAt [false, true] = some Config.eos ∧ treeH4.leafAt [true] = some 65#9) ∧
    (⟨0#32, some treeH4, 0⟩ : Ctx).tree = some (.internal 0 (I 0 (L 66) (L 256)) (L 65)) := by decide

theorem witness_StepRunsTheInstruction :
    base.inputs = [] ∧ (base.setInputs [.tick]).inputs = .tick :: [] ∧
    (base.setInputs [.write 0 1#32]).inputs = .write 0 1#32 :: [] := by decide

theorem witness_RegisterMap :
    (0x14 ≤ 0x14) ∧ (base.setInputs [.write 0x14 7#32]).inputs = .write 0x14 7#32 :: [] ∧
    (base.setInputs [.write 0x04 7#32]).inputs = .write 0x04 7#32 :: [] ∧
    (base.setInputs [.write 0x10 7#32]).inputs = .write 0x10 7#32 :: [] := by decide

theorem witness_ReservedCommandHasNoEffect :
    (base.setInputs [.write 0 0xFFFFFFFF#32]).inputs = .write 0 0xFFFFFFFF#32 :: [] ∧
    (0xFFFFFFFF#32).extractLsb' 0 2 = 3#2 := by decide

theorem witness_CommandAcceptance :
    ((base.setInputs [.write 0 5#32]).inputs = .write 0 5#32 :: [] ∧ (at_ Phase.count []).busy = true ∧
      (at_ Phase.decode []).busy = true) ∧
    ((4#32).extractLsb' 0 2 = 0#2 ∧ (7#32).extractLsb' 0 2 = 3#2) ∧
    (Startable base ∧ Startable (at_ Phase.fault []) ∧ (5#32).extractLsb' 0 2 = 1#2 ∧
      (0xFFFFFFFE#32).extractLsb' 0 2 = 2#2) := by
  unfold Startable; decide

theorem witness_CommandsComplete :
    Startable base ∧ Startable (at_ Phase.done []) ∧ (at_ Phase.close []).busy = true := by
  unfold Startable; decide

/-- The shared stream of X3. -/
def sharedBase : State := { base with mem := { base.mem with shared := true } }

/-- The host puts a stream with one bit on both ports, then another source, and asks for DECOMPRESS. -/
def sharing : State := (at_ Phase.idle [true]).setInputs [.attachSnk true, .attachSrc [] [], .write 0 2#32]

theorem witness_BrokenPreconditionsAreRefused :
    (sharedBase.busy = false ∧ sharedBase.mem.shared = true) ∧
    ((sunk base [true]).busy = false ∧ (sunk base [true]).mem.shared = false ∧ (sunk base [true]).mem.snk.bits ≠ []) ∧
    ((sunk base [] true).busy = false ∧ (sunk base [] true).mem.shared = false ∧ (sunk base [] true).mem.snk.closed = true) ∧
    ((base.setInputs [.write 0x13 0#32]).inputs = .write 0x13 0#32 :: [] ∧ 0x13 < 0x14 ∧ 0x13 % 4 ≠ 0) ∧
    (NextAnswer (sunk base [] true) .ok ∧ writeWidthOk 32 = true ∧ writeWidthOk 33 = false ∧ writeWidthOk 0 = false) ∧
    (base.work.pq = [] ∧ base.work.tree = none) ∧
    (sharing.busy = false ∧ sharing.mem.src.bits ≠ [] ∧
      sharing.inputs = [.attachSnk true, .attachSrc [] [], .write 0 2#32] ∧ (2#32).extractLsb' 0 2 = 2#2) := by decide

theorem witness_BrokenPreconditionsAreRefused_shared :
    sharedBase.mem.shared = true ∧ ∃ t, exec .build (with_ sharedBase Work.markEos) = .next t ∧ t.trace = [] :=
  ⟨by decide, runs (by decide +kernel)⟩

theorem witness_BrokenPreconditionsAreRefused_counts : presentSymbols base.work.freq = [] := by decide +kernel

theorem witness_RestingPhasesWait :
    (at_ Phase.fault []).inputs = [] ∧ (at_ Phase.fault []).busy = false ∧ (at_ Phase.idle []).busy = false := by decide

theorem witness_RestingPhaseIsLeftOnlyByCommandOrReset :
    (base.setInputs [.write 0 2#32]).busy = false ∧
    (∃ t, step (base.setInputs [.write 0 2#32]) = .next t ∧ t.phase ≠ (base.setInputs [.write 0 2#32]).phase) ∧
    (∃ t, step ((at_ Phase.done []).setInputs [.reset]) = .next t ∧
      t.phase ≠ ((at_ Phase.done []).setInputs [.reset]).phase) :=
  ⟨by decide, runs (by decide), runs (by decide)⟩

theorem witness_ReservedPhaseCodesStop :
    (∃ t, exec .srcReset (at_ Phase.phaseC []) = .next t ∧ (t.phase = Phase.phaseC ∨ t.phase = Phase.phaseD)) ∧
    (∃ t, exec .srcReset (at_ Phase.phaseD []) = .next t ∧ (t.phase = Phase.phaseC ∨ t.phase = Phase.phaseD)) :=
  ⟨runs (by decide), runs (by decide)⟩

/-- A state whose next port transaction is answered so. -/
def answering (s : State) (a : PortAnswer) : State := { s with answers := [a] }

theorem witness_HardwareReset :
    (((at_ Phase.encode []).setInputs [.reset]).inputs = .reset :: []) ∧
    (NextAnswer (answering base .reset) .reset ∧ writeWidthOk 1 = true ∧ writeWidthOk 32 = true) := by decide

theorem witness_SourceRead :
    NextAnswer (at_ 0 (bits 8 1)) .ok ∧
    ((at_ 0 (bits 8 1)).mem.src.bits.length - (at_ 0 (bits 8 1)).mem.src.pos < 9) ∧
    ((at_ 0 (bits 8 1)).mem.src.rest = bits 8 1 ++ [] ∧ (bits 8 1).length = 8) := by decide

theorem witness_SourceReset : NextAnswer (at_ 0 [true] 1) .ok := by decide

theorem witness_SinkWrite :
    NextAnswer base .ok ∧ (1 ≤ 32 ∧ 32 ≤ 32) ∧ (1 ≤ 1 ∧ 1 ≤ 32) ∧ base.mem.snk.closed = false := by decide

theorem witness_SinkClose : NextAnswer (sunk base [true]) .ok := by decide

theorem witness_AbnormalAnswersEndTheInstruction :
    (∃ t, exec .rewind (answering base .ioFail) = .next t ∧
      (answersUsed (answering base .ioFail) t).getLast? = some .ioFail) ∧
    (∃ t, exec .rewind (answering base .reset) = .next t ∧
      (answersUsed (answering base .reset) t).getLast? = some .reset) :=
  ⟨runs (by decide), runs (by decide)⟩

theorem witness_OnlyAHungPortStops :
    exec .rewind (answering base .never) = .fault .portNeverAnswers ∧ NextAnswer (answering base .never) .never ∧
      writeWidthOk 1 = true ∧ writeWidthOk 32 = true :=
  ⟨rfl, by decide, by decide, by decide⟩

/-- Two bytes in a source and counters of `w` bits. -/
def narrow (w : Nat) : State := { at_ Phase.count (bits 16 0x0707) with cfg := ⟨0#32, some w, none⟩ }

theorem witness_CountTallies : PortsWork (narrow 2) ∧ CountFits (narrow 2).cfg (bytesLeft (narrow 2)).length :=
  ⟨ports_work rfl, fun w hw => by cases hw; decide⟩

theorem witness_CountInvariants : ∃ t, exec .count (narrow 2) = .next t ∧ t.phase = Phase.build :=
  runs (by decide +kernel)

theorem witness_CountCapacity :
    PortsWork (at_ 0 []) ∧ PortsWork { narrow 2 with mem := (at_ 0 (bits 24 0x010203)).mem } ∧
      bytesLeft { narrow 2 with mem := (at_ 0 (bits 24 0x010203)).mem } = [1#8, 2#8] ++ 3#8 :: [] ∧
      ([1#8, 2#8] : List Byte).length + 2 = 2 ^ 2 :=
  ⟨ports_work rfl, ports_work rfl, by decide, by decide⟩

theorem witness_QueueRemoveMin :
    queued.work.pq ≠ [] ∧ (queued.work.pq.map PqEntry.seq).Nodup := by decide

theorem witness_BuildMakesATreeOfTheCounts : presentSymbols counted.work.freq ≠ [] := by decide +kernel
theorem witness_BuildIsTheGreedyMerge :
    presentSymbols (with_ base Work.markEos).work.freq = [(256#9, 1)] ∧
    presentSymbols counted.work.freq = [(65#9, 3), (66#9, 1), (256#9, 1)] := by decide +kernel
theorem witness_BuiltTreeBounds : ∃ t, exec .build counted = .next t ∧ t.phase = Phase.gencodes := runs (by decide +kernel)

theorem witness_GencodesRecordsThePaths :
    (treed base treeH4).work.tree = some treeH4 ∧ treeH4.symsInTable = true ∧ treeH4.syms.Nodup ∧
    (treed base (I 0 (L 256) (L 256))).work.tree = some (I 0 (L 256) (L 256)) ∧
    (I 0 (L 256) (L 256)).symsInTable = true ∧
    (treed base (I 0 (L 257) (L 65))).work.tree = some (I 0 (L 257) (L 65)) ∧
    (I 0 (L 257) (L 65)).symsInTable = false := by decide

theorem witness_CodesAreACompletePrefixCode :
    2 ≤ (presentSymbols counted.work.freq).length ∧ counted.work.freq[(256 : Fin 257)] = 1 ∧
    ∃ t, exec .build counted = .next t ∧ ∃ u, exec .gencodes t = .next u := by
  refine ⟨by decide +kernel, by decide +kernel, nextOr (exec .build counted) base, ?_, ?_⟩
  · exact eq_nextOr (by decide +kernel)
  · exact ⟨_, eq_nextOr (d := base) (by decide +kernel)⟩

theorem witness_WrhdrWritesTheHeader :
    (treed base treeH4).work.tree = some treeH4 ∧ PortsWork (treed base treeH4) ∧
      (treed base treeH4).mem.snk.closed = false :=
  ⟨by decide, ports_work rfl, by decide⟩

theorem witness_HeaderRoundTrip :
    PortsWork (at_ Phase.rdhdr (encodeTree treeTwo ++ [true])) ∧ NodesFit base.cfg treeTwo.size ∧
    (at_ Phase.rdhdr (encodeTree treeTwo ++ [true])).mem.src.rest = encodeTree treeTwo ++ [true] ∧
    ∃ u, exec .rdhdr (at_ Phase.rdhdr (encodeTree treeTwo ++ [true])) = .next u ∧ u.phase = Phase.decode :=
  ⟨ports_work rfl, fun c hc => by cases hc; decide, by decide, runs (by decide)⟩

/-- A node store of `c` nodes. -/
def small (s : State) (c : Nat) : State := { s with cfg := ⟨0#32, none, some c⟩ }

-- the store holds exactly the flags there are; the last bit of the header is lost, or all of it
theorem witness_TruncatedHeader :
    (PortsWork (small (at_ Phase.rdhdr (encodeTree treeTwo).dropLast) 3) ∧
      NodesFit (small (at_ Phase.rdhdr (encodeTree treeTwo).dropLast) 3).cfg
        (treeTwo.flagsWithin (small (at_ Phase.rdhdr (encodeTree treeTwo).dropLast) 3).mem.src.rest.length) ∧
      encodeTree treeTwo = (small (at_ Phase.rdhdr (encodeTree treeTwo).dropLast) 3).mem.src.rest ++ [true] ∧
      [true] ≠ []) ∧
    (NodesFit (small base 0).cfg (treeTwo.flagsWithin (small base 0).mem.src.rest.length) ∧
      encodeTree treeTwo = (small base 0).mem.src.rest ++ encodeTree treeTwo ∧ encodeTree treeTwo ≠ []) :=
  ⟨⟨ports_work rfl, fun c hc => by cases hc; decide, by decide, by decide⟩,
    fun c hc => by cases hc; decide, by decide, by decide⟩

theorem witness_HeaderCapacity :
    PortsWork (small (at_ Phase.rdhdr (encodeTree treeTwo)) 2) ∧
    (small (at_ Phase.rdhdr (encodeTree treeTwo)) 2).cfg.nodeCap = some 2 ∧
    2 < treeTwo.flagsWithin (small (at_ Phase.rdhdr (encodeTree treeTwo)) 2).mem.src.rest.length ∧
    (small (at_ Phase.rdhdr (encodeTree treeTwo)) 2).mem.src.rest ++ [] = encodeTree treeTwo ++ [] :=
  ⟨ports_work rfl, by decide, by decide, by decide⟩

theorem witness_WrmagicAndRewindComplete : NextAnswer base .ok ∧ base.mem.snk.closed = false := by decide

theorem witness_CloseEndsTheCommand : NextAnswer (sunk base [true]) .ok := by decide

-- 31 bits, MAGIC itself, another word, a failed read
theorem witness_ChkmagicCases :
    (NextAnswer (at_ Phase.chkmagic (bits 31 0)) .ok ∧ (at_ Phase.chkmagic (bits 31 0)).mem.src.rest.length < 32) ∧
    ((at_ Phase.chkmagic (bits 32 0xFACE8201)).mem.src.rest = bitsOf 32 (0xFACE8201#32).toNat ++ [] ∧
      0xFACE8201#32 = (at_ Phase.chkmagic (bits 32 0xFACE8201)).cfg.magic) ∧
    ((at_ Phase.chkmagic (bits 32 0xFACE8200)).mem.src.rest = bitsOf 32 (0xFACE8200#32).toNat ++ [] ∧
      0xFACE8200#32 ≠ (at_ Phase.chkmagic (bits 32 0xFACE8200)).cfg.magic) ∧
    NextAnswer (answering base .ioFail) .ioFail := by decide

/-- A state that encodes these source bits with the codes of G4. -/
def encoding (l : List Bool) : State := with_ (at_ Phase.encode l) fun w => { w with code := codeG4 }

theorem witness_EncodeWritesTheBody :
    PortsWork (encoding (bits 16 0x4142)) ∧ (encoding (bits 16 0x4142)).mem.snk.closed = false ∧
    ∀ b ∈ bytesLeft (encoding (bits 16 0x4142)), (codeOf (encoding (bits 16 0x4142)).work.code b).valid = true :=
  ⟨ports_work rfl, by decide, by decide +kernel⟩

theorem witness_EncodeMissingCode :
    PortsWork (encoding (bits 16 0x4143)) ∧ (encoding (bits 16 0x4143)).mem.snk.closed = false ∧
    bytesLeft (encoding (bits 16 0x4143)) = [0x41#8] ++ 0x43#8 :: [] ∧
    (∀ x ∈ ([0x41#8] : List Byte), (codeOf (encoding (bits 16 0x4143)).work.code x).valid = true) ∧
    (codeOf (encoding (bits 16 0x4143)).work.code 0x43#8).valid = false :=
  ⟨ports_work rfl, by decide, by decide, by decide +kernel, by decide +kernel⟩

theorem witness_DecodeLeafRoot :
    (treed base (L 256)).work.tree = some (.leaf 256#9 0) ∧ (treed base (L 257)).work.tree = some (.leaf 257#9 0) ∧
    257#9 ≠ 256#9 := by decide

/-- A state that decodes these bits with the tree of H4. -/
def decoding (l : List Bool) : State := treed (at_ Phase.decode l) treeH4

theorem witness_DecodeFollowsTheWalk :
    PortsWork (decoding [true, false, true, false]) ∧ (decoding [true, false, true, false]).mem.snk.closed = false ∧
    (decoding [true, false, true, false]).work.tree = some (.internal 0 (I 0 (L 66) (L 256)) (L 65)) ∧
    CodeWords treeH4 [([true], 65#9)] ∧ treeH4.leafAt [false, true] = some Config.eos ∧
    (decoding [true, false, true, false]).mem.src.rest = codeBits [([true], 65#9)] ++ [false, true] ++ [false] :=
  ⟨ports_work rfl, by decide, by decide, by unfold CodeWords; decide, by decide, by decide⟩

-- inside a code word, and between two
theorem witness_DecodeTruncated :
    (PortsWork (decoding [true, false]) ∧ (decoding [true, false]).mem.snk.closed = false ∧
      (decoding [true, false]).work.tree = some (.internal 0 (I 0 (L 66) (L 256)) (L 65)) ∧
      CodeWords treeH4 [([true], 65#9)] ∧ treeH4.insideAt [false] = true ∧
      (decoding [true, false]).mem.src.rest = codeBits [([true], 65#9)] ++ [false]) ∧
    (CodeWords treeH4 [] ∧ treeH4.insideAt [] = true ∧ (decoding []).mem.src.rest = codeBits [] ++ []) :=
  ⟨⟨ports_work rfl, by decide, by decide, by unfold CodeWords; decide, by decide, by decide⟩,
    by unfold CodeWords; decide, by decide, by decide⟩

theorem witness_DecodeInvertsTheBody :
    (PortsWork (decoding [true, false, true, true]) ∧ (decoding [true, false, true, true]).mem.snk.closed = false ∧
      (decoding [true, false, true, true]).work.tree = some (.internal 0 (I 0 (L 66) (L 256)) (L 65)) ∧
      treeH4.syms.Nodup ∧ Config.eos ∈ treeH4.syms ∧ (∀ b ∈ ([65#8] : List Byte), b.setWidth 9 ∈ treeH4.syms) ∧
      (decoding [true, false, true, true]).mem.src.rest = bodyOf treeH4 [65#8] ++ [true]) ∧
    (treed base (L 256)).work.tree = some (.leaf Config.eos 0) :=
  ⟨⟨ports_work rfl, by decide, by decide, by decide, by decide, by decide, by decide⟩, by decide⟩

theorem witness_WireRecordsWritten :
    PortsWork (encoding []) ∧ (encoding []).mem.snk.closed = false ∧ (encoding []).phase ≠ Phase.chkmagic ∧
    (encoding []).phase ≠ Phase.rdhdr ∧ (encoding []).phase ≠ Phase.decode ∧
    (codeOf (encoding []).work.code 65#8).valid = true ∧ (codeOf (encoding []).work.code 67#8).valid = false :=
  ⟨ports_work rfl, by decide, by decide, by decide, by decide, by decide +kernel, by decide +kernel⟩

theorem witness_WireRecordsRead :
    (PortsWork (at_ Phase.chkmagic (bits 32 0xFACE8201)) ∧
      (at_ Phase.chkmagic (bits 32 0xFACE8201)).mem.snk.closed = false ∧
      (at_ Phase.chkmagic (bits 32 0xFACE8201)).phase = Phase.chkmagic ∧
      (at_ Phase.chkmagic (bits 32 0xFACE8201)).mem.src.rest =
        bitsOf 32 (at_ Phase.chkmagic (bits 32 0xFACE8201)).cfg.magic.toNat ++ []) ∧
    ((at_ Phase.rdhdr [false]).phase = Phase.rdhdr ∧
      nodesFull (at_ Phase.rdhdr [false]).cfg (at_ Phase.rdhdr [false]).work.nnodes = false ∧
      (at_ Phase.rdhdr [false]).mem.src.rest = false :: []) ∧
    (nodesFull (at_ Phase.rdhdr (bits 10 0x3FF)).cfg (at_ Phase.rdhdr (bits 10 0x3FF)).work.nnodes = false ∧
      (at_ Phase.rdhdr (bits 10 0x3FF)).mem.src.rest = true :: bitsOf 9 (511#9).toNat ++ []) ∧
    ((treed (at_ Phase.decode []) (L 256)).phase = Phase.decode ∧
      (treed (at_ Phase.decode []) (L 256)).work.tree = some (.leaf Config.eos 0)) ∧
    ((decoding [true]).work.tree = some (.internal 0 (I 0 (L 66) (L 256)) (L 65)) ∧
      (decoding [true]).mem.src.rest = [true] ++ [] ∧ 65#9 ≠ Config.eos ∧ treeH4.leafAt [true] = some 65#9) ∧
    ((decoding [false, true]).mem.src.rest = [false, true] ++ [] ∧ treeH4.leafAt [false, true] = some Config.eos) :=
  ⟨⟨ports_work rfl, by decide, by decide, by decide⟩, by decide⟩

theorem witness_EveryInstructionKeeps :
    base.mem.wf = true ∧
    (∃ t, exec .snkClose (sunk base [true]) = .next t ∧ t.mem.snk.closed ≠ (sunk base [true]).mem.snk.closed) ∧
    ((sunk base [] true).mem.snk.closed = true ∧
      ∃ t, exec .srcReset (sunk base [] true) = .next t ∧ t.mem.snk.closed = true) :=
  ⟨by decide, runs (by decide), by decide, runs (by decide)⟩

theorem witness_StreamFrames :
    (usesNoPort .build = true ∧ ∃ t, exec .build counted = .next t ∧ t.phase = Phase.gencodes) ∧
    (usesSourceOnly .rewind = true ∧ ∃ t, exec .rewind (at_ Phase.rewind [true] 1) = .next t ∧ t.phase = Phase.encode) ∧
    (usesSinkOnly .close = true ∧ ∃ t, exec .close (sunk base [true]) = .next t ∧ t.phase = Phase.done) :=
  ⟨⟨by decide, runs (by decide +kernel)⟩, ⟨by decide, runs (by decide)⟩, by decide, runs (by decide)⟩

theorem witness_StoreFrames_compress :
    (∃ t, exec .count (narrow 2) = .next t ∧ t.phase = Phase.build) ∧
    (∃ t, exec .build counted = .next t ∧ t.phase = Phase.gencodes) ∧
    (∃ t, exec .gencodes (treed base treeH4) = .next t ∧ t.phase = Phase.wrmagic) ∧
    (∃ t, exec .wrmagic base = .next t ∧ t.phase = Phase.wrhdr) ∧
    (∃ t, exec .wrhdr (treed base treeH4) = .next t ∧ t.phase = Phase.rewind) ∧
    (∃ t, exec .rewind base = .next t ∧ t.phase = Phase.encode) ∧
    (∃ t, exec .encode (encoding (bits 16 0x4142)) = .next t ∧ t.phase = Phase.close) :=
  ⟨runs (by decide +kernel), runs (by decide +kernel), runs (by decide +kernel), runs (by decide), runs (by decide),
    runs (by decide), runs (by decide +kernel)⟩

theorem witness_StoreFrames_decompress :
    (∃ t, exec .chkmagic (at_ Phase.chkmagic (bits 32 0xFACE8201)) = .next t ∧ t.phase = Phase.rdhdr) ∧
    (∃ t, exec .rdhdr (at_ Phase.rdhdr (encodeTree treeTwo)) = .next t ∧ t.phase = Phase.decode) ∧
    (∃ t, exec .decode (decoding [true, false, true]) = .next t ∧ t.phase = Phase.close) :=
  ⟨runs (by decide), runs (by decide), runs (by decide)⟩

theorem witness_CauseFrame :
    (∃ t, exec .close { base with causeKind := 3#3 } = .next t ∧ t.phase ≠ Phase.fault) ∧
    (∃ t, exec .rewind { base with causeKind := 3#3 } = .next t ∧ t.phase ≠ Phase.fault) :=
  ⟨runs (by decide), runs (by decide)⟩

-- (1, 0), (2, 2), and another
theorem witness_FaultTable :
    (∃ t, exec .chkmagic (at_ Phase.chkmagic (bits 32 1)) = .next t ∧
      (t.phase = Phase.fault ∧ (t.causeKind, t.causeSub) = (1#3, 0#4))) ∧
    (at_ Phase.chkmagic (bits 32 1)).phase ≠ Phase.fault ∧
    (∃ t, exec .decode (treed (at_ Phase.decode []) (L 257)) = .next t ∧
      (t.phase = Phase.fault ∧ (t.causeKind, t.causeSub) = (2#3, 2#4))) ∧
    (treed (at_ Phase.decode []) (L 257)).phase ≠ Phase.fault ∧
    (∃ t, exec .rdhdr (at_ Phase.rdhdr []) = .next t ∧
      (t.phase = Phase.fault ∧ (t.causeKind, t.causeSub) ≠ (1#3, 0#4) ∧ (t.causeKind, t.causeSub) ≠ (2#3, 2#4))) ∧
    (at_ Phase.rdhdr []).phase ≠ Phase.fault :=
  ⟨runs (by decide), by decide, runs (by decide), by decide, runs (by decide), by decide⟩

theorem witness_PhaseSuccessors :
    (∃ t, exec (decodePhase (at_ Phase.rewind []).phase) (at_ Phase.rewind []) = .next t ∧
      t.phase = successor (at_ Phase.rewind []).phase) ∧
    (∃ t, exec (decodePhase (at_ Phase.done []).phase) (at_ Phase.done []) = .next t ∧ t.phase = Phase.done) :=
  ⟨runs (by decide), runs (by decide)⟩

theorem base_inv : Inv base where
  phase_produced := by decide
  no_cause _ := by decide
  legal_cause h := absurd h (by decide)
  memory := by decide
  busy_streams h := absurd h (by decide)
  build_counts h := absurd h (by decide)
  built_tree h := absurd h (by decide)
  decode_tree h := absurd h (by decide)

theorem witness_InvariantKept : Inv base ∧ ∃ t, step base = .next t ∧ t.phase = Phase.idle :=
  ⟨base_inv, runs (by decide)⟩

/-- A running operation with the invariant, and the host about to attach a sink. -/
theorem witness_OnlyTheHostIsRefused :
    Inv { at_ Phase.rewind [] with inputs := [.attachSnk false] } ∧
    step { at_ Phase.rewind [] with inputs := [.attachSnk false] } = .refused .sinkAttachedWhileBusy := by
  refine ⟨⟨?_, ?_, ?_, ?_, ?_, ?_, ?_, ?_⟩, by rfl⟩
  · decide
  · intro _; decide
  · intro h; exact absurd h (by decide)
  · decide
  · intro _; decide
  · intro h; exact absurd h (by decide)
  · intro h; exact absurd h (by decide)
  · intro h; exact absurd h (by decide)

theorem witness_EveryCommandEnds :
    Inv (at_ Phase.count [true]) ∧ PortsAnswer (at_ Phase.count [true]) ∧ (at_ Phase.count [true]).inputs = [] := by
  refine ⟨⟨?_, ?_, ?_, ?_, ?_, ?_, ?_, ?_⟩, (ports_work rfl).1, by decide⟩
  · decide
  · intro _; decide
  · intro h; exact absurd h (by decide)
  · decide
  · intro _; decide
  · intro h; exact absurd h (by decide)
  · intro h; exact absurd h (by decide)
  · intro h; exact absurd h (by decide)

/-- COMPRESS about to start on a source of one byte and three bits, with counters that just suffice. -/
def compressing (l : List Bool) : State :=
  { at_ Phase.idle l with inputs := [.write 0 1#32], cfg := ⟨0xFACE8201#32, some 2, some 513⟩ }

theorem witness_CompressWritesTheStream :
    Startable (compressing (bits 23 0)) ∧ PortsWork (compressing (bits 23 0)) ∧
    (compressing (bits 23 0)).inputs = [.write 0 1#32] ∧
    (compressing (bits 23 0)).mem.src = ⟨bitsOfBytes [0#8, 0#8] ++ bits 7 0, 0⟩ ∧ (bits 7 0).length < 8 ∧
    CountFits (compressing (bits 23 0)).cfg ([0#8, 0#8] : List Byte).length :=
  ⟨by unfold Startable; decide, ports_work rfl, by decide, by decide, by decide, fun w hw => by cases hw; decide⟩

-- P4: the stream of the empty source
theorem witness_RoundTrip :
    ∃ t, core.run 9 (compressing []) = .next t ∧ t.phase = Phase.done ∧
      Startable (compressing []) ∧ PortsWork (compressing []) ∧ (compressing []).inputs = [.write 0 1#32] ∧
      (compressing []).mem.src = ⟨bitsOfBytes [], 0⟩ ∧
      ∃ s', Startable s' ∧ PortsWork s' ∧ s'.inputs = [.write 0 2#32] ∧ s'.mem.src = ⟨t.mem.snk.bits ++ [true], 0⟩ ∧
        s'.cfg.magic = (compressing []).cfg.magic ∧ NodesFit s'.cfg 513 := by
  obtain ⟨t, ht, hd⟩ := runs (o := core.run 9 (compressing [])) (p := fun t => t.phase = Phase.done) (by decide +kernel)
  refine ⟨t, ht, hd, by unfold Startable; decide, ports_work rfl, by decide, by decide,
    { base with inputs := [.write 0 2#32], mem := { base.mem with src := ⟨t.mem.snk.bits ++ [true], 0⟩ } },
    ⟨rfl, rfl, rfl⟩, ports_work rfl, rfl, rfl, rfl, ?_⟩
  intro c hc
  cases hc
  decide

theorem witness_StoresDoNotMatter :
    (compressing []).busy = false ∧ SameButStores (compressing []) (treed (compressing []) treeH4) := by
  unfold SameButStores; decide

end Sys2Proof.Tests
end

section
/-! SUPPORT. What a step does, one lemma per shared operation: the cases of PHASE, the operations on the ports, and the
operations of COMPRESS while ports work. -/

namespace Sys2Proof.Machine

open Safety

/-! ## PHASE -/

/-- R34: the phases in which the block rests. -/
theorem resting_cases {s : State} (h : s.busy = false) :
    s.phase = Phase.idle ∨ s.phase = Phase.done ∨ s.phase = Phase.fault := by
  unfold State.busy at h
  generalize s.phase = p at h ⊢
  revert p
  decide

/-- R34, R104: the phases in which it does not. -/
theorem busy_cases {s : State} (h : s.busy = true) :
    s.phase = Phase.count ∨ s.phase = Phase.build ∨ s.phase = Phase.gencodes ∨ s.phase = Phase.wrmagic ∨
      s.phase = Phase.wrhdr ∨ s.phase = Phase.rewind ∨ s.phase = Phase.encode ∨ s.phase = Phase.close ∨
      s.phase = Phase.chkmagic ∨ s.phase = Phase.rdhdr ∨ s.phase = Phase.decode ∨ s.phase = Phase.phaseC ∨
      s.phase = Phase.phaseD := by
  unfold State.busy at h
  generalize s.phase = p at h ⊢
  revert p
  decide

/-- R31, R271: a block that rests does nothing of its own. -/
theorem exec_resting {s : State} (h : s.busy = false) : exec (decodePhase s.phase) s = .next s := by
  rcases resting_cases h with hp | hp | hp <;> rw [hp] <;> rfl

/-- R37, R226: the step of a CMD write. -/
theorem step_command {s : State} {v : Word} {rest : List HostEvent} (h : s.inputs = .write 0 v :: rest) :
    step s = exec (decodeCmd v) (s.setInputs rest) := by
  rw [step, fetch, h]
  rfl

/-- A run of one step more begins with that step. -/
theorem run_of_step {M : Host.Core} {s t : M.State} {k : Nat} {o : Host.Outcome M.State M.Fault M.Refusal}
    (h : M.step s = .next t) (hk : M.run k t = o) : M.run (k + 1) s = o := by
  rw [Host.Core.run, h]
  exact hk

/-- A run ends where a step is refused. -/
theorem run_refused {M : Host.Core} {s : M.State} {r : M.Refusal} (h : M.step s = .refused r) (k : Nat) :
    M.run (k + 1) s = .refused r := by
  rw [Host.Core.run, h]

/-! ## BUILD -/

/-- R152: the symbols a leaf is made for. -/
theorem mem_presentSymbols {f : Vector Nat 257} {x : Sym × Nat} :
    x ∈ presentSymbols f ↔ ∃ i : Fin 257, 0 < f[i] ∧ x = (BitVec.ofNat 9 i.val, f[i]) := by
  simp only [presentSymbols, List.mem_map, List.mem_filter, decide_eq_true_eq]
  constructor
  · rintro ⟨⟨c, k⟩, ⟨hm, hpos⟩, rfl⟩
    obtain ⟨hk, hc⟩ := List.mem_zipIdx' hm
    rw [Vector.length_toList] at hk
    rw [Vector.getElem_toList] at hc
    exact ⟨⟨k, hk⟩, by simpa [← hc] using hpos, by simp [hc]⟩
  · rintro ⟨i, hpos, rfl⟩
    exact ⟨(f[i], i.val), ⟨List.mk_mem_zipIdx_iff_getElem?.2 (by simp), hpos⟩, rfl⟩

/-- R24 (e): no symbol is present twice. -/
theorem presentSymbols_nodup (f : Vector Nat 257) : ((presentSymbols f).map Prod.fst).Nodup := by
  have hix : ((f.toList.zipIdx.filter fun c => decide (0 < c.1)).map Prod.snd).Nodup :=
    (List.nodup_zipIdx_map_snd _).sublist (List.filter_sublist.map _)
  rw [presentSymbols, List.map_map]
  change (List.map (BitVec.ofNat 9 ∘ Prod.snd) _).Nodup
  rw [← List.map_map]
  refine hix.map_on fun a ha b hb hab => ?_
  have small : ∀ k ∈ (f.toList.zipIdx.filter fun c => decide (0 < c.1)).map Prod.snd, k < 512 := by
    intro k hk
    obtain ⟨⟨c, j⟩, hm, rfl⟩ := List.mem_map.1 hk
    have := (List.mem_zipIdx' (List.mem_of_mem_filter hm)).1
    rw [Vector.length_toList] at this
    simp only; omega
  have := congrArg BitVec.toNat hab
  rwa [BitVec.toNat_ofNat, BitVec.toNat_ofNat, Nat.mod_eq_of_lt (small a ha), Nat.mod_eq_of_lt (small b hb)] at this

/-- R151, R152: where no counter is positive nothing is queued. -/
theorem merged_empty {w : Work} (h : presentSymbols w.freq = []) : w.merged.pq = [] := by
  obtain ⟨pq, heq, -, hlen, -⟩ := insertLeaves_spec w.freq.toList 0 w.clearBuild
  change pq.length = (presentSymbols w.freq).length at hlen
  rw [h, List.length_nil, List.length_eq_zero_iff] at hlen
  have hleaves : (insertLeaves 0 w.freq.toList w.clearBuild).pq = [] := by rw [heq, hlen]; rfl
  rw [Work.merged, hleaves]
  exact hleaves

/-- R152 to R154, R157: BUILD where some counter is positive: the tree the merge rules lead to, on the present symbols. -/
theorem execBuild_ok {s : State} (h : presentSymbols s.work.freq ≠ []) :
    ∃ r, execBuild s =
        .next ((s.setWork { s.work with
          pq := []
          seq := BitVec.ofNat 10 (2 * (presentSymbols s.work.freq).length - 1)
          nnodes := 2 * (presentSymbols s.work.freq).length - 1
          tree := some r
          ret := some r }).setPhase Phase.gencodes) ∧
      r.leaves.Perm (presentSymbols s.work.freq) ∧ r.weightsAdd = true ∧
      GreedyMerge (leafEntries s.work.freq) (BitVec.ofNat 10 (presentSymbols s.work.freq).length) r := by
  obtain ⟨r, hrem, hperm, hadd⟩ := build_spec s.work h
  refine ⟨r, by rw [execBuild, hrem], hperm, hadd, ?_⟩
  obtain ⟨pq, heq, -, -, -⟩ := insertLeaves_spec s.work.freq.toList 0 s.work.clearBuild
  have hpq : (insertLeaves 0 s.work.freq.toList s.work.clearBuild).pq = leafEntries s.work.freq := by
    rw [insertLeaves_pq _ _ _ 0 rfl]
    rfl
  have hseq : (insertLeaves 0 s.work.freq.toList s.work.clearBuild).seq =
      BitVec.ofNat 10 (presentSymbols s.work.freq).length := by
    rw [heq]
    exact BitVec.zero_add _
  have hne : (insertLeaves 0 s.work.freq.toList s.work.clearBuild).pq ≠ [] := by
    rw [hpq]
    simpa [leafEntries] using h
  obtain ⟨e, hone, hgreedy⟩ := greedy_of_merge _ _ hne (Nat.le_succ _)
  rw [hpq, hseq] at hgreedy
  change s.work.merged.pq = [e] at hone
  obtain ⟨m, rest, hpop, rfl, -⟩ := pqRemoveMin_some hrem
  rw [hone] at hpop
  cases hpop
  exact hgreedy

/-- R151: BUILD completes only where some counter is positive. -/
theorem presentSymbols_of_build {s t : State} (h : execBuild s = .next t) : presentSymbols s.work.freq ≠ [] := by
  intro hp
  rw [execBuild, pqRemoveMin, merged_empty hp] at h
  cases h

/-- R24 (e): a symbol that BUILD makes a leaf for is in the code table. -/
theorem symsInTable_of_perm {r : Tree} {f : Vector Nat 257} (h : r.leaves.Perm (presentSymbols f)) :
    r.symsInTable = true := by
  rw [Tree.symsInTable, List.all_eq_true]
  intro x hx
  rw [Tree.syms_eq_leaves, (h.map Prod.fst).mem_iff, List.mem_map] at hx
  obtain ⟨y, hy, rfl⟩ := hx
  obtain ⟨i, -, rfl⟩ := mem_presentSymbols.1 hy
  have := i.isLt
  simp only [BitVec.toNat_ofNat, decide_eq_true_eq]
  omega

theorem syms_nodup_of_perm {r : Tree} {f : Vector Nat 257} (h : r.leaves.Perm (presentSymbols f)) : r.syms.Nodup := by
  rw [Tree.syms_eq_leaves, (h.map Prod.fst).nodup_iff]
  exact presentSymbols_nodup f

/-- R152: a symbol has a leaf if its counter is positive. -/
theorem mem_syms_of_perm {r : Tree} {f : Vector Nat 257} (h : r.leaves.Perm (presentSymbols f)) {i : Fin 257}
    (hi : 0 < f[i]) : BitVec.ofNat 9 i.val ∈ r.syms := by
  rw [Tree.syms_eq_leaves, (h.map Prod.fst).mem_iff]
  exact List.mem_map.2 ⟨_, mem_presentSymbols.2 ⟨i, hi, rfl⟩, rfl⟩

/-! ## The counters -/

@[simp] theorem tally_eos (bs : List Byte) : (tally bs)[eosIndex] = 1 := by
  simp [tally, eosIndex]

theorem tally_literal {bs : List Byte} {b : Byte} (h : b ∈ bs) : 0 < (tally bs)[byteIndex b] := by
  have hne : b.toNat ≠ 256 := Nat.ne_of_lt b.isLt
  simp only [tally, byteIndex, Fin.getElem_fin, Vector.getElem_ofFn, if_neg hne, List.countP_pos_iff]
  exact ⟨b, h, by simp⟩

/-- R141: some counter is positive after COUNT. -/
theorem present_of_eos {f : Vector Nat 257} (h : f[eosIndex] = 1) : presentSymbols f ≠ [] :=
  List.ne_nil_of_mem (mem_presentSymbols.2 ⟨eosIndex, by omega, rfl⟩)

/-- R68: the bits after the last whole byte are dropped. -/
theorem bytesOfBits_bitsOfBytes_append (bs : List Byte) {tail : List Bool} (h : tail.length < 8) :
    bytesOfBits (bitsOfBytes bs ++ tail) = bs := by
  induction bs with
  | nil => exact bytesOfBits_short h
  | cons b bs ih =>
    rw [bitsOfBytes, List.flatMap_cons, List.append_assoc, bytesOfBits_append, ← bitsOfBytes, ih]

/-! ## The operations of COMPRESS, while ports work -/

/-- R140, R141, R142: COUNT on a source that fits. -/
theorem execCount_ok {s : State} (h : PortsWork s) (hfit : CountFits s.cfg (bytesLeft s).length) :
    execCount s =
      .next ((s.ran { s.work with freq := tally (bytesLeft s), nbytes := (bytesLeft s).length }
        (s.mem.src.pos + 8 * (bytesLeft s).length) []
        (readBytes (bytesLeft s) ++ [.srcRead 8 .eod])).setPhase Phase.build) := by
  have hloop := countLoop_ok (h.setWork s.work.clearCounts) (bs := bytesLeft s) rfl (by simpa using hfit)
  rw [execCount, ← bytesLeft_length, hloop, Res.bind_ok, Res.thenPhase_ok, State.ran_setWork]
  simp only [State.ran_work, State.setWork_work, counted_eq_tally]
  rfl

/-- R170: GENCODES on a tree of table symbols changes PATH and CODE. -/
theorem execGencodes_ok {s : State} {r : Tree} (ht : s.work.tree = some r) (hs : r.symsInTable = true) :
    execGencodes s = .next ((s.setWork (walkCodes r s.work.clearCodes)).setPhase Phase.wrmagic) := by
  simp only [execGencodes, ht, hs, if_true]

/-- R220 -/
theorem execWrmagic_ok {s : State} (h : PortsWork s) (ho : s.mem.snk.closed = false) :
    execWrmagic s =
      .next ((s.ran s.work s.mem.src.pos (bitsOf 32 s.cfg.magic.toNat)
        [.snkWrite 32 s.cfg.magic.toNat true]).setPhase Phase.wrhdr) := by
  rw [execWrmagic, writeMagic, snkWrite_ok h ho, Res.thenPhase_ok]

/-- R180 -/
theorem execWrhdr_ok {s : State} {r : Tree} (h : PortsWork s) (ho : s.mem.snk.closed = false)
    (ht : s.work.tree = some r) :
    execWrhdr s = .next ((s.ran s.work s.mem.src.pos (encodeTree r) (headerWrites r)).setPhase Phase.rewind) := by
  simp only [execWrhdr, ht, emitTree_ok r h ho, Res.thenPhase_ok]

/-- R222 -/
theorem execRewind_ok {s : State} (h : PortsWork s) :
    execRewind s = .next ((s.ran s.work 0 [] [.srcReset true]).setPhase Phase.encode) := by
  rw [execRewind, srcReset_ok h, Res.thenPhase_ok]

/-- R200: ENCODE where every byte left has a code. -/
theorem execEncode_ok {s : State} (h : PortsWork s) (ho : s.mem.snk.closed = false)
    (hv : ∀ b ∈ bytesLeft s, (codeOf s.work.code b).valid = true) :
    execEncode s =
      .next ((s.ran s.work (s.mem.src.pos + 8 * (bytesLeft s).length)
        (codesOf s.work.code (bytesLeft s) ++ s.work.code[eosIndex].bits)
        (encodeTxns s.work.code (bytesLeft s) ++ .srcRead 8 .eod ::
          putBits s.work.code[eosIndex].bits)).setPhase Phase.close) := by
  rw [execEncode, ← bytesLeft_length, encodeLoop_ok h ho rfl hv, Res.bind_ok, putEos,
    putCode_ok (h.ran _ _ _ _) (by simpa using ho), Res.thenPhase_ok]
  simp

/-- R223, R227 -/
theorem execClose_ok {s : State} (h : PortsWork s) :
    execClose s =
      .next ((s.ran s.work s.mem.src.pos (List.replicate (padLength s.mem.snk.bits.length) false)
        [.snkClose true]).setSnk
          ⟨s.mem.snk.bits ++ List.replicate (padLength s.mem.snk.bits.length) false, true⟩).complete := by
  rw [execClose, snkClose_ok h, Res.bind_ok, Res.outcome_ok]

/-! ## The code table of a tree -/

/-- R171: the code table holds for every symbol of the tree the path to its leaf. -/
def HoldsCodes (r : Tree) (code : Vector CodeEntry 257) : Prop :=
  ∀ i : Fin 257, BitVec.ofNat 9 i.val ∈ r.syms → code[i] = ⟨true, pathOf r (BitVec.ofNat 9 i.val)⟩

/-- R170, R171: GENCODES makes the code table of a tree in which no symbol occurs twice. -/
theorem holdsCodes_walkCodes {r : Tree} (h : r.syms.Nodup) (w : Work) : HoldsCodes r (walkCodes r w.clearCodes).code := by
  intro i hi
  obtain ⟨p, hp⟩ := Tree.path_of_mem hi
  rw [walkCodes_code, Tree.lastPath_eq_path h, pathOf, hp]
  rfl

theorem byte_eq_index (b : Byte) : BitVec.ofNat 9 (byteIndex b).val = b.setWidth 9 := BitVec.ofNat_toNat 9 b

theorem HoldsCodes.literal {r : Tree} {code : Vector CodeEntry 257} (h : HoldsCodes r code) {b : Byte}
    (hb : b.setWidth 9 ∈ r.syms) : codeOf code b = ⟨true, pathOf r (b.setWidth 9)⟩ := by
  rw [← byte_eq_index] at hb ⊢
  exact h (byteIndex b) hb

theorem HoldsCodes.eos {r : Tree} {code : Vector CodeEntry 257} (h : HoldsCodes r code) (he : Config.eos ∈ r.syms) :
    code[eosIndex].bits = pathOf r Config.eos := by rw [h eosIndex he]; rfl

/-- R112, R200: the codes of the bytes and the terminator are the body. -/
theorem HoldsCodes.body {r : Tree} {code : Vector CodeEntry 257} (h : HoldsCodes r code) {bs : List Byte}
    (hb : ∀ b ∈ bs, b.setWidth 9 ∈ r.syms) (he : Config.eos ∈ r.syms) :
    codesOf code bs ++ code[eosIndex].bits = bodyOf r bs := by
  rw [codesOf, bodyOf, h.eos he]
  congr 1
  exact List.flatMap_congr fun b hm => by rw [h.literal (hb b hm)]

/-! ## COMPRESS, operation by operation -/

/-- The state of the machine before the operation `p` of a command while ports work and the host is silent: the source has the
bits `src` and stands at `pos`, the open sink holds `out`. -/
structure Running (c : Params) (src : List Bool) (p : BitVec 4) (pos : Nat) (out : List Bool) (s : State) : Prop where
  ports : PortsWork s
  inputs : s.inputs = []
  cfg : s.cfg = c
  phase : s.phase = p
  source : s.mem.src = ⟨src, pos⟩
  sink : s.mem.snk = ⟨out, false⟩

section
variable {c : Params} {src : List Bool} {p : BitVec 4} {pos : Nat} {out : List Bool} {s : State} {bs : List Byte}
  {r : Tree}

theorem Running.sink_open (h : Running c src p pos out s) : s.mem.snk.closed = false := by rw [h.sink]

theorem Running.pos_eq (h : Running c src p pos out s) : s.mem.src.pos = pos := by rw [h.source]

theorem Running.bytesLeft_eq (h : Running c src p 0 out s) : bytesLeft s = bytesOfBits src := by
  rw [bytesLeft, h.source]
  rfl

/-- R31: the step is the operation PHASE names. -/
theorem Running.step_eq (h : Running c src p pos out s) : step s = exec (decodePhase p) s := by
  rw [step, fetch, h.inputs, h.phase]

/-- Transactions that were answered normally, and the next operation. -/
theorem Running.ran (h : Running c src p pos out s) (w : Work) (pos' : Nat) (o : List Bool) (l : List Txn)
    (q : BitVec 4) : Running c src q pos' (out ++ o) ((s.ran w pos' o l).setPhase q) where
  ports := h.ports.ran w pos' o l
  inputs := h.inputs
  cfg := h.cfg
  phase := rfl
  source := by simp [h.source]
  sink := by simp [h.sink]

/-- No transaction, and the next operation. -/
theorem Running.setWork (h : Running c src p pos out s) (w : Work) (q : BitVec 4) :
    Running c src q pos out ((s.setWork w).setPhase q) := by
  simpa [State.setWork_eq_ran, h.pos_eq] using h.ran w pos [] [] q

/-- R226: a command that can start is accepted. -/
theorem acceptCommand_startable (h : Startable s) (p : BitVec 4) :
    acceptCommand p s = .next ((s.setCause 0#3 0#4 0#32).setPhase p) := by
  obtain ⟨hrest, htwo, hfresh⟩ := h
  simp [acceptCommand, hrest, htwo, hfresh]

/-- R224, R226: the write of OP = 01. -/
theorem compress_starts (h : Startable s) (hp : PortsWork s) (hi : s.inputs = [.write 0 1#32]) :
    ∃ t, step s = .next t ∧ Running s.cfg s.mem.src.bits Phase.count s.mem.src.pos [] t :=
  ⟨((s.setInputs []).setCause 0#3 0#4 0#32).setPhase Phase.count,
    (step_command hi).trans (acceptCommand_startable (s := s.setInputs []) h Phase.count),
    hp, rfl, rfl, rfl, rfl, h.2.2⟩

/-- R140, R142 -/
theorem Running.count (h : Running c src Phase.count 0 out s) (hb : bytesOfBits src = bs) (hf : CountFits c bs.length) :
    ∃ t, step s = .next t ∧ Running c src Phase.build (8 * bs.length) out t ∧ t.work.freq = tally bs := by
  have hl : bytesLeft s = bs := h.bytesLeft_eq.trans hb
  have hrun := execCount_ok h.ports (by rw [hl, h.cfg]; exact hf)
  rw [hl, h.pos_eq, Nat.zero_add] at hrun
  exact ⟨_, h.step_eq.trans hrun, by simpa using h.ran _ _ [] _ _, rfl⟩

/-- R152 to R154, R157 -/
theorem Running.build (h : Running c src Phase.build pos out s) (hf : presentSymbols s.work.freq ≠ []) :
    ∃ t r, step s = .next t ∧ Running c src Phase.gencodes pos out t ∧ t.work.tree = some r ∧
      r.leaves.Perm (presentSymbols s.work.freq) ∧
      GreedyMerge (leafEntries s.work.freq) (BitVec.ofNat 10 (presentSymbols s.work.freq).length) r := by
  obtain ⟨r, hrun, hperm, -, hgreedy⟩ := execBuild_ok hf
  exact ⟨_, r, h.step_eq.trans hrun, h.setWork _ _, rfl, hperm, hgreedy⟩

/-- R170 -/
theorem Running.gencodes (h : Running c src Phase.gencodes pos out s) (ht : s.work.tree = some r)
    (hs : r.symsInTable = true) (hn : r.syms.Nodup) :
    ∃ t, step s = .next t ∧ Running c src Phase.wrmagic pos out t ∧ t.work.tree = some r ∧ HoldsCodes r t.work.code := by
  refine ⟨_, h.step_eq.trans (execGencodes_ok ht hs), h.setWork _ _, ?_, holdsCodes_walkCodes hn _⟩
  rw [State.setPhase_work, State.setWork_work, walkCodes_eq]
  exact ht

/-- R220 -/
theorem Running.wrmagic (h : Running c src Phase.wrmagic pos out s) :
    ∃ t, step s = .next t ∧ Running c src Phase.wrhdr pos (out ++ bitsOf 32 c.magic.toNat) t ∧ t.work = s.work := by
  have hrun := execWrmagic_ok h.ports h.sink_open
  rw [h.pos_eq, h.cfg] at hrun
  exact ⟨_, h.step_eq.trans hrun, h.ran _ _ _ _ _, rfl⟩

/-- R180 -/
theorem Running.wrhdr (h : Running c src Phase.wrhdr pos out s) (ht : s.work.tree = some r) :
    ∃ t, step s = .next t ∧ Running c src Phase.rewind pos (out ++ encodeTree r) t ∧ t.work = s.work := by
  have hrun := execWrhdr_ok h.ports h.sink_open ht
  rw [h.pos_eq] at hrun
  exact ⟨_, h.step_eq.trans hrun, h.ran _ _ _ _ _, rfl⟩

/-- R222 -/
theorem Running.rewind (h : Running c src Phase.rewind pos out s) :
    ∃ t, step s = .next t ∧ Running c src Phase.encode 0 out t ∧ t.work = s.work :=
  ⟨_, h.step_eq.trans (execRewind_ok h.ports), by simpa using h.ran s.work 0 [] _ _, rfl⟩

/-- R200, R112 -/
theorem Running.encode (h : Running c src Phase.encode 0 out s) (hb : bytesOfBits src = bs)
    (hc : HoldsCodes r s.work.code) (hbs : ∀ b ∈ bs, b.setWidth 9 ∈ r.syms) (he : Config.eos ∈ r.syms) :
    ∃ t, step s = .next t ∧ Running c src Phase.close (8 * bs.length) (out ++ bodyOf r bs) t := by
  have hl : bytesLeft s = bs := h.bytesLeft_eq.trans hb
  have hrun := execEncode_ok h.ports h.sink_open (by rw [hl]; exact fun b hm => by rw [hc.literal (hbs b hm)])
  rw [hl, h.pos_eq, Nat.zero_add, hc.body hbs he] at hrun
  exact ⟨_, h.step_eq.trans hrun, h.ran _ _ _ _ _⟩

/-- R223, R227 -/
theorem Running.close (h : Running c src Phase.close pos out s) :
    ∃ t, step s = .next t ∧ t.mem.snk = ⟨out ++ List.replicate (padLength out.length) false, true⟩ ∧
      t.phase = Phase.done ∧ t.causeKind = 0#3 ∧ t.causeSub = 0#4 ∧ t.info = 0#32 ∧ t.mem.src.pos = pos := by
  have hrun := execClose_ok h.ports
  rw [h.sink, h.pos_eq] at hrun
  exact ⟨_, h.step_eq.trans hrun, rfl, rfl, rfl, rfl, rfl, rfl⟩

end

end Sys2Proof.Machine

namespace Sys2Proof

open Machine Safety

/-- Settles O58, operation by operation: the nine steps of the command, each by what its operation does while ports work. -/
theorem compressWritesTheStream : Obligations.CompressWritesTheStream := by
  unfold Obligations.CompressWritesTheStream
  intro s bs tail hstart hports hinputs hsrc htail hfit
  have hbytes := bytesOfBits_bitsOfBytes_append bs htail
  obtain ⟨s1, e1, h1⟩ := compress_starts hstart hports hinputs
  rw [hsrc] at h1
  obtain ⟨s2, e2, h2, hfreq⟩ := h1.count hbytes hfit
  have hpresent : presentSymbols s2.work.freq ≠ [] := present_of_eos (by rw [hfreq, tally_eos])
  obtain ⟨s3, r, e3, h3, htree3, hperm, hgreedy⟩ := h2.build hpresent
  rw [hfreq] at hperm hgreedy
  obtain ⟨s4, e4, h4, htree4, hcodes⟩ := h3.gencodes htree3 (symsInTable_of_perm hperm) (syms_nodup_of_perm hperm)
  obtain ⟨s5, e5, h5, hwork5⟩ := h4.wrmagic
  obtain ⟨s6, e6, h6, hwork6⟩ := h5.wrhdr (by rw [hwork5]; exact htree4)
  obtain ⟨s7, e7, h7, hwork7⟩ := h6.rewind
  have hlits : ∀ b ∈ bs, b.setWidth 9 ∈ r.syms := fun b hb => by
    rw [← byte_eq_index]
    exact mem_syms_of_perm hperm (tally_literal hb)
  have heos : Config.eos ∈ r.syms := mem_syms_of_perm hperm (i := eosIndex) (by rw [tally_eos]; exact Nat.one_pos)
  obtain ⟨s8, e8, h8⟩ := h7.encode hbytes (by rw [hwork7, hwork6, hwork5]; exact hcodes) hlits heos
  obtain ⟨t, e9, hsink, hrest⟩ := h8.close
  refine ⟨t, r, _, ?_, hgreedy, rfl, hsink, hrest⟩
  exact run_of_step (M := core) e1 <| run_of_step e2 <| run_of_step e3 <| run_of_step e4 <| run_of_step e5 <|
    run_of_step e6 <| run_of_step e7 <| run_of_step e8 <| run_of_step e9 rfl

end Sys2Proof
end

section
/-! SUPPORT. What is refused: from a state with the invariant no operation of the block, and on one shared stream every port
transaction (R18, R83, R276). -/

namespace Sys2Proof.Machine

open Safety

/-! ## The block is not refused -/

/-- An instruction whose part is refused for no reason of its own, on two streams. -/
theorem ExecAs.ne_refused {i : Instr} {s : State} {x : Res Unit} {g : State → State} (h : ExecAs i s x g)
    (hx : x.Meets s fun _ => False) (htwo : s.mem.shared = false) (r : Refusal) : exec i s ≠ .refused r := by
  intro hr
  rw [h.refused hr] at hx
  rcases hx with hx | ⟨-, hshared⟩
  · exact hx
  · simp [htwo] at hshared

/-- R83: SnkClose is refused only on one shared stream. -/
theorem snkClose_ne_refuse {s : State} (htwo : s.mem.shared = false) (r : Refusal) : snkClose s ≠ .refuse r := by
  rcases snkClose_cases s with ⟨hs, -⟩ | ⟨-, hc⟩ | ⟨-, hc⟩ | ⟨-, hc⟩ | ⟨-, hc⟩
  · simp [htwo] at hs
  all_goals rw [hc]; nofun

/-- R44: each operation finds the stores the operations before it leave: from a state with the invariant the operation PHASE
names has a meaning. -/
theorem exec_phase_ne_refused {s : State} (h : Inv s) (r : Refusal) : exec (decodePhase s.phase) s ≠ .refused r := by
  cases hb : s.busy with
  | false => rw [exec_resting hb]; nofun
  | true =>
    obtain ⟨htwo, hopen⟩ := h.busy_streams hb
    have hwrite : s.mem.snk.closed = true → False := by simp [hopen]
    have hasTree {i : Instr} {t : Tree} (ht : s.work.tree = some t) (hn : usesNoPort i = false)
        (hc : i ≠ .close ∧ i ≠ .snkClose ∧ i ≠ .wirePadding) (hi : ∃ p, decodePhase p = i) :
        exec i s ≠ .refused r := by
      obtain ⟨x, g, hx, hmeets, -⟩ := exec_form i s (fun _ => False) hn hc hwrite (by simp [ht]) (.inl hi)
      exact hx.ne_refused hmeets htwo r
    rcases busy_cases hb with hp | hp | hp | hp | hp | hp | hp | hp | hp | hp | hp | hp | hp <;> rw [hp]
    · -- COUNT
      exact ExecAs.ne_refused (i := .count) rfl
        ((countLoop_meets _ _ _).setWork.bind fun _ _ _ _ => Res.meets_ok _ _ _ _) htwo r
    · -- BUILD
      obtain ⟨t, hrun, -⟩ := execBuild_ok (present_of_eos (h.build_counts hp))
      exact fun hr => nomatch hrun.symm.trans hr
    · -- GENCODES
      obtain ⟨t, ht, hsym⟩ := h.built_tree (.inl hp)
      exact fun hr => nomatch (execGencodes_ok ht hsym).symm.trans hr
    · -- WRMAGIC
      obtain ⟨t, ht, -⟩ := h.built_tree (.inr (.inl hp))
      exact hasTree ht rfl (by decide) ⟨_, rfl⟩
    · -- WRHDR
      obtain ⟨t, ht, -⟩ := h.built_tree (.inr (.inr hp))
      exact hasTree ht rfl (by decide) ⟨_, rfl⟩
    · -- REWIND
      exact ExecAs.ne_refused (i := .rewind) rfl (srcReset_meets _ _) htwo r
    · -- ENCODE
      refine ExecAs.ne_refused (i := .encode) rfl
        ((encodeLoop_meets _ _ _ hwrite).bind fun _ t k _ => putCode_meets _ _ _ ?_) htwo r
      rw [k.closed]
      exact hwrite
    · -- CLOSE
      obtain ⟨hd, -⟩ | ⟨g, hg, -⟩ := exec_closing .close s (.inl rfl)
      · cases hd
      · exact fun hr => snkClose_ne_refuse htwo r (hg.refused hr)
    · -- CHKMAGIC
      exact ExecAs.ne_refused (i := .chkmagic) rfl (checkMagic_meets _ _) htwo r
    · -- RDHDR
      exact ExecAs.ne_refused (i := .rdhdr) rfl
        ((parseTree_meets _ _ _).setWork.bind fun _ _ _ _ => Res.meets_ok _ _ _ _) htwo r
    · -- DECODE
      obtain ⟨t, ht⟩ := h.decode_tree hp
      exact hasTree ht rfl (by decide) ⟨_, rfl⟩
    · exact absurd hp h.phase_produced.1
    · exact absurd hp h.phase_produced.2

/-! ## The host's breaches -/

/-- R83, R276: why a command is refused. -/
theorem acceptCommand_refused {p : BitVec 4} {s : State} {r : Refusal} (h : acceptCommand p s = .refused r) :
    r = .sharedStream ∨ r = .sinkNotFresh := by
  unfold acceptCommand at h
  split at h
  · cases h
  · split at h
    · cases h; exact .inl rfl
    · split at h
      · cases h; exact .inr rfl
      · cases h

/-- R102, R103: a command word is one of the four values of OP. -/
theorem decodeCmd_cases (v : Word) :
    decodeCmd v = .cmdNop ∨ decodeCmd v = .compress ∨ decodeCmd v = .decompress ∨ decodeCmd v = .cmdReserved := by
  unfold decodeCmd
  split <;> simp

/-- R39, R83, R276: why a host write is refused. -/
theorem step_write_refused {s : State} {offset : Nat} {v : Word} {rest : List HostEvent} {r : Refusal}
    (hi : s.inputs = .write offset v :: rest) (h : step s = .refused r) : hostBreach r := by
  rw [step, fetch, hi] at h
  simp only [hostWrite] at h
  cases ho : Reg.ofOffset offset with
  | none => rw [ho] at h; cases h; simp [hostBreach]
  | some g =>
    rw [ho] at h
    cases g with
    | cmd =>
      simp only at h
      rcases decodeCmd_cases v with hv | hv | hv | hv <;> rw [hv] at h
      · cases h
      · rcases acceptCommand_refused h with rfl | rfl <;> simp [hostBreach]
      · rcases acceptCommand_refused h with rfl | rfl <;> simp [hostBreach]
      · cases h
    | status | cause | info | magicReg | reserved => cases h

/-- R276: why an attachment of a sink is refused. -/
theorem attachSnk_refused {b : Bool} {s : State} {r : Refusal} (h : attachSnk b s = .refused r) :
    r = .sinkAttachedWhileBusy := by
  unfold attachSnk at h
  split at h <;> cases h
  rfl

/-- The invariant says nothing of what the host will do. -/
theorem inv_setInputs {s : State} (h : Inv s) (l : List HostEvent) : Inv (s.setInputs l) :=
  ⟨h.phase_produced, h.no_cause, h.legal_cause, h.memory, h.busy_streams, h.build_counts, h.built_tree, h.decode_tree⟩

end Sys2Proof.Machine

namespace Sys2Proof

open Machine Safety

/-- Settles O56: what the block itself does is never refused (exec_phase_ne_refused), which leaves the host's actions. -/
theorem onlyTheHostIsRefused : Obligations.OnlyTheHostIsRefused := by
  unfold Obligations.OnlyTheHostIsRefused
  intro s r hinv hr
  cases hi : s.inputs with
  | nil =>
    rw [step, fetch, hi] at hr
    exact absurd hr (exec_phase_ne_refused hinv r)
  | cons e rest =>
    suffices h : hostBreach r ∧ e ≠ .tick ∧ e ≠ .reset from ⟨h.1, e, rest, rfl, h.2⟩
    cases e with
    | write offset v => exact ⟨step_write_refused hi hr, by simp, by simp⟩
    | tick =>
      rw [step, fetch, hi] at hr
      exact absurd hr (exec_phase_ne_refused (inv_setInputs hinv rest) r)
    | reset => rw [step, fetch, hi] at hr; cases hr
    | attachSrc before after => rw [step, fetch, hi] at hr; cases hr
    | attachSnk shared =>
      rw [step, fetch, hi] at hr
      rw [attachSnk_refused hr]
      simp [hostBreach]

end Sys2Proof
end

section
/-! SUPPORT. The bounds of a built tree (R13), and what is refused where a precondition is broken (R18). -/

namespace Sys2Proof.Machine

open Safety

/-! ## One shared stream (R83) -/

section
variable {s : State} (h : s.mem.shared = true)
include h

theorem shared_setWork (w : Work) : (s.setWork w).mem.shared = true := h

theorem srcRead_shared (n : Nat) : srcRead n s = .refuse .sharedStream := transact_shared h _ _ _
theorem srcReset_shared : srcReset s = .refuse .sharedStream := transact_shared h _ _ _
theorem snkWrite_shared (n v : Nat) : snkWrite n v s = .refuse .sharedStream := transact_shared h _ _ _
theorem snkClose_shared : snkClose s = .refuse .sharedStream := transact_shared h _ _ _

theorem readFlag_shared : readFlag s = .refuse .sharedStream := by rw [readFlag, srcRead_shared h, Res.bind_refuse]
theorem checkMagic_shared : checkMagic s = .refuse .sharedStream := by rw [checkMagic, srcRead_shared h, Res.bind_refuse]

theorem countLoop_shared (n : Nat) : countLoop n s = .refuse .sharedStream := by
  cases n <;> rw [countLoop, srcRead_shared h, Res.bind_refuse]

theorem encodeLoop_shared (n : Nat) : encodeLoop n s = .refuse .sharedStream := by
  cases n <;> rw [encodeLoop, srcRead_shared h, Res.bind_refuse]

theorem parseTree_shared (n : Nat) : parseTree n s = .refuse .sharedStream := by
  cases n <;> rw [parseTree, readFlag_shared h, Res.bind_refuse]

theorem decodeBit_shared (root : Tree) : decodeBit root s = .refuse .sharedStream := by
  rw [decodeBit, srcRead_shared h, Res.bind_refuse]

theorem decodeLoop_shared (root : Tree) (n : Nat) : decodeLoop root n s = .refuse .sharedStream := by
  cases n <;> rw [decodeLoop, decodeBit_shared h, Res.bind_refuse]

theorem walkCode_shared (root : Tree) (n : Nat) : walkCode root n s = .refuse .sharedStream := by
  cases n <;> rw [walkCode, decodeBit_shared h, Res.bind_refuse]

theorem writeLeaf_shared (x : Sym) : writeLeaf x s = .refuse .sharedStream := by
  rw [writeLeaf, snkWrite_shared h, Res.bind_refuse]

theorem emitTree_shared (t : Tree) : emitTree t s = .refuse .sharedStream := by
  cases t with
  | leaf x w => exact writeLeaf_shared h x
  | internal w l r => rw [emitTree, writeInternal, snkWrite_shared h, Res.bind_refuse]

end

/-! ## What is left of an instruction on one shared stream -/

/-- No port transaction was made: the streams, the trace and the answers are the same. -/
def Untouched (s t : State) : Prop := t.mem = s.mem ∧ t.trace = s.trace ∧ t.answers = s.answers

theorem Untouched.refl {s : State} : Untouched s s := ⟨rfl, rfl, rfl⟩

/-- A part of an operation ends with no port transaction made, or is refused. -/
def Res.Quiet {α : Type} (s : State) : Res α → Prop
  | .ok _ t => Untouched s t
  | .raise _ t => Untouched s t
  | .cut _ => False
  | .stop _ => False
  | .refuse _ => True

theorem Res.Quiet.of_refuse {α : Type} {s : State} {x : Res α} {r : Refusal} (h : x = .refuse r) : x.Quiet s := by
  rw [h]
  trivial

/-- The next part begins in a state where nothing was touched. -/
theorem Res.Quiet.bind {α β : Type} {s : State} {x : Res α} {f : α → State → Res β} (hx : x.Quiet s)
    (hf : ∀ a t, Untouched s t → (f a t).Quiet s) : (x.bind f).Quiet s := by
  cases x with
  | ok a t => exact hf a t hx
  | raise | cut | stop | refuse => exact hx

/-- What an instruction leaves whose part makes no port transaction. -/
theorem Res.Quiet.untouched {s t : State} {x : Res Unit} (hx : x.Quiet s) (ht : x.outcome = .next t) :
    Untouched s t := by
  cases x with
  | ok a u => cases ht; exact hx
  | raise r u => cases ht; exact hx
  | cut => exact hx.elim
  | stop => exact hx.elim
  | refuse => cases ht

theorem Res.Quiet.thenPhase {s t : State} {x : Res Unit} {p : BitVec 4} (hx : x.Quiet s)
    (ht : x.thenPhase p = .next t) : Untouched s t :=
  (hx.bind (f := fun _ u => .ok () (u.setPhase p)) fun _ _ hu => hu).untouched ht

section
variable {s : State} (h : s.mem.shared = true)
include h

/-- R200: only a code of no bits is written without a transaction. -/
theorem putCode_quiet (bits : List Bool) : (putCode bits s).Quiet s := by
  cases bits with
  | nil => exact Untouched.refl
  | cons b bits => rw [putCode, snkWrite_shared h]; trivial

theorem putByte_quiet (b : Byte) : (putByte b s).Quiet s := by
  unfold putByte
  split
  · exact putCode_quiet h _
  · exact Untouched.refl

/-- R203: only a leaf root is tested without a transaction. -/
theorem readCode_quiet : (readCode s).Quiet s := by
  unfold readCode
  split
  · trivial
  · split <;> exact Untouched.refl
  · exact .of_refuse (walkCode_shared (shared_setWork h _) _ _)

theorem readEos_quiet : (readEos s).Quiet s :=
  (readCode_quiet h).bind fun o t ht => by
    cases o with
    | eos => exact ht
    | symbol | inside => trivial

theorem readByte_quiet (b : Byte) : (readByte b s).Quiet s :=
  (readCode_quiet h).bind fun o t ht => by
    cases o with
    | symbol x =>
      simp only
      split
      · have ht : t.mem.shared = true := by rw [ht.1]; exact h
        rw [putLiteral, snkWrite_shared ht]
        trivial
      · trivial
    | eos | inside => trivial

theorem readInternal_shared : readInternal s = .refuse .sharedStream := by
  rw [readInternal, readFlag_shared h, Res.bind_refuse]

theorem readLeaf_shared (x : Sym) : readLeaf x s = .refuse .sharedStream := by
  rw [readLeaf, readFlag_shared h, Res.bind_refuse]

end

/-- An instruction is refused where its part is. -/
theorem ExecAs.refuses {i : Instr} {s : State} {x : Res Unit} {g : State → State} {r : Refusal} (h : ExecAs i s x g)
    (hx : x = .refuse r) : exec i s = .refused r := by
  rw [h, hx]
  rfl

/-- R83, D16: the instructions that begin with a port transaction. -/
theorem exec_shared_refused {s : State} (h : s.mem.shared = true) :
    (∀ n, exec (.srcRead n) s = .refused .sharedStream) ∧ exec .srcReset s = .refused .sharedStream ∧
    (∀ n v, writeWidthOk n = true → exec (.snkWrite n v) s = .refused .sharedStream) ∧
    exec .snkClose s = .refused .sharedStream ∧ exec .count s = .refused .sharedStream ∧
    exec .wrmagic s = .refused .sharedStream ∧ exec .rewind s = .refused .sharedStream ∧
    exec .encode s = .refused .sharedStream ∧ exec .close s = .refused .sharedStream ∧
    exec .chkmagic s = .refused .sharedStream ∧ exec .rdhdr s = .refused .sharedStream := by
  refine ⟨fun n => ?_, ?_, fun n v hw => ?_, ?_, ?_, ?_, ?_, ?_, ?_, ?_, ?_⟩
  · exact ExecAs.refuses (outcome_as _) (by rw [srcRead_shared h, Res.bind_refuse])
  · exact ExecAs.refuses (outcome_as _) (srcReset_shared h)
  · simp only [exec, execSnkWrite, hw, if_true, snkWrite_shared h, Res.outcome_refuse]
  · exact ExecAs.refuses (outcome_as _) (snkClose_shared h)
  · exact ExecAs.refuses rfl (by rw [countLoop_shared (shared_setWork h _), Res.bind_refuse])
  · exact ExecAs.refuses rfl (snkWrite_shared h _ _)
  · exact ExecAs.refuses rfl (srcReset_shared h)
  · exact ExecAs.refuses rfl (by rw [encodeLoop_shared h, Res.bind_refuse])
  · exact ExecAs.refuses rfl (snkClose_shared h)
  · exact ExecAs.refuses rfl (checkMagic_shared h)
  · exact ExecAs.refuses rfl (by rw [parseTree_shared (shared_setWork h _), Res.bind_refuse])

/-- R83: an instruction that has a next state on one shared stream made no port transaction. -/
theorem exec_shared_untouched {i : Instr} {s t : State} (h : s.mem.shared = true) (ht : exec i s = .next t) :
    Untouched s t := by
  obtain ⟨hread, hreset, hwrite, hsclose, hcount, hmagic, hrewind, hencode, hclose, hcheck, hparse⟩ :=
    exec_shared_refused h
  have refused {r : Refusal} (hr : exec i s = .refused r) : Untouched s t := nomatch hr.symm.trans ht
  cases i with
  | cmdNop | compress | decompress | cmdReserved | idle | build | gencodes | phaseC | phaseD | done | fault
    | pqInsert _ | pqRemoveMin =>
    obtain rfl | ⟨_, -, rfl⟩ | ⟨_, -, rfl⟩ | ⟨_, _, _, -, rfl⟩ := exec_noPort _ s t rfl ht <;> exact Untouched.refl
  | srcRead n => exact refused (hread n)
  | srcReset => exact refused hreset
  | snkWrite n v =>
    by_cases hw : writeWidthOk n = true
    · exact refused (hwrite n v hw)
    · exact refused (r := .widthOutOfRange) (by simp [exec, execSnkWrite, hw])
  | snkClose => exact refused hsclose
  | count => exact refused hcount
  | wrmagic => exact refused hmagic
  | rewind => exact refused hrewind
  | encode => exact refused hencode
  | close => exact refused hclose
  | chkmagic => exact refused hcheck
  | rdhdr => exact refused hparse
  | wrhdr =>
    simp only [exec, execWrhdr] at ht
    split at ht
    · cases ht
    · exact (Res.Quiet.of_refuse (emitTree_shared h _)).thenPhase ht
  | decode =>
    simp only [exec, execDecode] at ht
    split at ht
    · cases ht
    · split at ht <;> cases ht <;> exact Untouched.refl
    · exact (Res.Quiet.of_refuse (decodeLoop_shared (shared_setWork h _) _ _)).thenPhase ht
  | wireMagic =>
    simp only [exec, execWireMagic] at ht
    split at ht
    · exact (Res.Quiet.of_refuse (checkMagic_shared h)).untouched ht
    · exact (Res.Quiet.of_refuse (snkWrite_shared h _ _)).untouched ht
  | wireNodeInternal =>
    simp only [exec, execWireNodeInternal] at ht
    split at ht
    · exact (Res.Quiet.of_refuse (readInternal_shared h)).untouched ht
    · exact (Res.Quiet.of_refuse (snkWrite_shared h _ _)).untouched ht
  | wireNodeLeaf x =>
    simp only [exec, execWireNodeLeaf] at ht
    split at ht
    · exact (Res.Quiet.of_refuse (readLeaf_shared h x)).untouched ht
    · exact (Res.Quiet.of_refuse (writeLeaf_shared h x)).untouched ht
  | wireCode b =>
    simp only [exec, execWireCode] at ht
    split at ht
    · exact (readByte_quiet h b).untouched ht
    · exact (putByte_quiet h b).untouched ht
  | wireEosCode =>
    simp only [exec, execWireEosCode] at ht
    split at ht
    · exact (readEos_quiet h).untouched ht
    · exact (putCode_quiet h _).untouched ht
  | wirePadding =>
    simp only [exec, execWirePadding] at ht
    split at ht
    · cases ht; exact Untouched.refl
    · exact (Res.Quiet.of_refuse (snkClose_shared h)).untouched ht

/-! ## The host -/

/-- R39: no register stands at an offset below 0x14 that is no multiple of 4. -/
theorem ofOffset_between : ∀ n < 0x14, n % 4 ≠ 0 → Reg.ofOffset n = none := by decide

theorem step_write_between {s : State} {n : Nat} {v : Word} {rest : List HostEvent}
    (hi : s.inputs = .write n v :: rest) (hn : n < 0x14) (h4 : n % 4 ≠ 0) :
    step s = .refused .offsetBetweenRegisters := by
  rw [step, fetch, hi]
  simp only [hostWrite, ofOffset_between n hn h4]

/-- R101, R102: a command word whose OP is 01 or 10. -/
theorem decodeCmd_of_op {v : Word} (h : v.extractLsb' 0 2 = 1#2 ∨ v.extractLsb' 0 2 = 2#2) :
    decodeCmd v = .compress ∨ decodeCmd v = .decompress := by
  have hop : (v.extractLsb' 0 2).toNat = v.toNat % 4 := by simp
  rcases h with h | h <;> rw [h] at hop
  · exact .inl (by rw [decodeCmd, ← hop]; rfl)
  · exact .inr (by rw [decodeCmd, ← hop]; rfl)

/-- R83, D16 -/
theorem acceptCommand_shared {s : State} (hb : s.busy = false) (h : s.mem.shared = true) (p : BitVec 4) :
    acceptCommand p s = .refused .sharedStream := by
  simp [acceptCommand, hb, h]

/-- R276, D16 -/
theorem acceptCommand_notFresh {s : State} (hb : s.busy = false) (htwo : s.mem.shared = false)
    (h : s.mem.snk.bits ≠ [] ∨ s.mem.snk.closed = true) (p : BitVec 4) :
    acceptCommand p s = .refused .sinkNotFresh := by
  rw [acceptCommand, hb, htwo, if_neg (by simp), if_neg (by simp), if_pos h]

theorem step_attachSnk {s : State} {shared : Bool} {rest : List HostEvent} (h : s.inputs = .attachSnk shared :: rest) :
    step s = attachSnk shared (s.setInputs rest) := by
  rw [step, fetch, h]

theorem step_attachSrc {s : State} {before after : List Bool} {rest : List HostEvent}
    (h : s.inputs = .attachSrc before after :: rest) : step s = attachSrc before after (s.setInputs rest) := by
  rw [step, fetch, h]

@[simp] theorem busy_setInputs (s : State) (l : List HostEvent) : (s.setInputs l).busy = s.busy := rfl

/-- R272, R276: while the block rests a sink is attached. -/
theorem attachSnk_resting {s : State} (h : s.busy = false) (shared : Bool) :
    attachSnk shared s =
      .next { s with mem := { s.mem with snk := ⟨if shared then s.mem.src.bits else [], false⟩, shared := shared } } :=
  if_neg (by simp [h])

/-- R83, R276 (log entry 33): a stream with bits that stood at both ports is no fresh sink for a command after another source
was attached. -/
theorem formerly_shared_refused {s : State} {v : Word} {before after : List Bool} (hb : s.busy = false)
    (hbits : s.mem.src.bits ≠ [])
    (hi : s.inputs = [.attachSnk true, .attachSrc before after, .write 0 v])
    (hop : v.extractLsb' 0 2 = 1#2 ∨ v.extractLsb' 0 2 = 2#2) : core.run 3 s = .refused .sinkNotFresh := by
  obtain ⟨s1, e1, hb1, hi1, hs1⟩ : ∃ s1, step s = .next s1 ∧ s1.busy = false ∧
      s1.inputs = [.attachSrc before after, .write 0 v] ∧ s1.mem.snk.bits = s.mem.src.bits :=
    ⟨_, (step_attachSnk hi).trans (attachSnk_resting ((busy_setInputs s _).trans hb) true), hb, rfl, rfl⟩
  obtain ⟨s2, e2, hb2, hi2, htwo, hs2⟩ : ∃ s2, step s1 = .next s2 ∧ s2.busy = false ∧ s2.inputs = [.write 0 v] ∧
      s2.mem.shared = false ∧ s2.mem.snk = s1.mem.snk :=
    ⟨_, step_attachSrc hi1, hb1, rfl, rfl, rfl⟩
  have hfresh : s2.mem.snk.bits ≠ [] := by rw [hs2, hs1]; exact hbits
  have e3 : step s2 = .refused .sinkNotFresh := by
    rw [step_command hi2]
    rcases decodeCmd_of_op hop with hv | hv <;> rw [hv] <;>
      exact acceptCommand_notFresh (s := s2.setInputs []) hb2 htwo (.inl hfresh) _
  exact run_of_step (M := core) e1 (run_of_step (M := core) e2 (run_refused (M := core) e3 0))

/-! ## The operations on the stores -/

/-- R151, R152: BUILD where no counter is positive. -/
theorem execBuild_empty {s : State} (h : presentSymbols s.work.freq = []) : execBuild s = .refused .emptyQueue := by
  rw [execBuild, pqRemoveMin, merged_empty h]
  rfl

end Sys2Proof.Machine

namespace Sys2Proof

open Machine Safety

/-- Settles O30: BUILD makes a leaf for each of the at most 257 symbols present, and every bound follows from that number. -/
theorem builtTreeBounds : Obligations.BuiltTreeBounds := by
  unfold Obligations.BuiltTreeBounds
  intro s t h
  obtain ⟨r, hrun, hperm, -⟩ := execBuild_ok (presentSymbols_of_build h)
  cases hrun.symm.trans h
  have hleaves : r.leaves.length ≤ 257 := hperm.length_eq ▸ present_length s.work.freq
  have hsize := r.size_eq_leaves
  have hheader := encodeTree_length r
  refine ⟨r, rfl, hleaves, by omega, by omega, by omega, by omega, fun x p hp => ?_⟩
  have := Tree.path_length hp
  omega

/-- Settles O11, clause by clause. -/
theorem brokenPreconditionsAreRefused : Obligations.BrokenPreconditionsAreRefused := by
  unfold Obligations.BrokenPreconditionsAreRefused
  intro s
  refine ⟨fun hb hs => ?_, fun hb htwo hf => ?_, fun hs => ?_, fun n v rest => step_write_between, fun n v => ⟨?_, ?_⟩,
    fun hq => ?_, execBuild_empty, fun ht => ?_, fun v before after => formerly_shared_refused⟩
  · exact ⟨acceptCommand_shared hb hs _, acceptCommand_shared hb hs _⟩
  · exact ⟨acceptCommand_notFresh hb htwo hf _, acceptCommand_notFresh hb htwo hf _⟩
  · obtain ⟨h1, h2, h3, h4, h5, h6, h7, h8, h9, h10, h11⟩ := exec_shared_refused hs
    exact ⟨h1, h2, h3, h4, h5, h6, h7, h8, h9, h10, h11, fun i t => exec_shared_untouched hs⟩
  · rintro ⟨htwo, hok⟩ hc hw
    simp [exec, execSnkWrite, hw, snkWrite, transact, htwo, hok, hc]
  · intro hw
    simp [exec, execSnkWrite, hw]
  · simp [exec, execPqRemoveMin, pqRemoveMin, hq, popMin]
  · simp [exec, execGencodes, execWrhdr, execDecode, ht]

end Sys2Proof
end

section
/-! SUPPORT. The queue and BUILD (R28, R151 to R157): the sequence numbers of the leaves, and what PQ_REMOVE_MIN takes. -/

namespace Sys2Proof.Machine

open Safety

/-- R152: the leaves are numbered in order, from 0. -/
theorem leafEntries_seq (f : Vector Nat 257) :
    (leafEntries f).map PqEntry.seq = (List.range (presentSymbols f).length).map (BitVec.ofNat 10) := by
  rw [leafEntries, List.map_map, List.range_eq_range', ← List.zipIdx_map_snd 0 (presentSymbols f), List.map_map]
  rfl

theorem leafEntries_length (f : Vector Nat 257) : (leafEntries f).length = (presentSymbols f).length := by
  simp [leafEntries]

/-- R13, R15: a number of leaves is a sequence number, nothing wraps. -/
theorem toNat_leafCount {f : Vector Nat 257} {k : Nat} (h : k ≤ (presentSymbols f).length) :
    (BitVec.ofNat 10 k).toNat = k := by
  have := present_length f
  rw [BitVec.toNat_ofNat]
  exact Nat.mod_eq_of_lt (by omega)

/-- R152: each leaf's number is less than the number of leaves. -/
theorem leafEntries_seq_lt {f : Vector Nat 257} {e : PqEntry} (he : e ∈ leafEntries f) :
    e.seq.toNat < (presentSymbols f).length := by
  have hmem := List.mem_map_of_mem (f := PqEntry.seq) he
  rw [leafEntries_seq] at hmem
  obtain ⟨k, hk, hseq⟩ := List.mem_map.1 hmem
  rw [List.mem_range] at hk
  rw [← hseq, toNat_leafCount hk.le]
  exact hk

/-- R152: no number is given to two leaves. -/
theorem leafEntries_seq_nodup (f : Vector Nat 257) : ((leafEntries f).map PqEntry.seq).Nodup := by
  rw [leafEntries_seq]
  refine List.nodup_range.map_on fun a ha b hb hab => ?_
  rw [List.mem_range] at ha hb
  have := congrArg BitVec.toNat hab
  rwa [toNat_leafCount ha.le, toNat_leafCount hb.le] at this

/-- R157: from the leaves of the counters the merge rules lead to one tree. -/
theorem greedy_unique_of_leaves {f : Vector Nat 257} {r r' : Tree}
    (h : GreedyMerge (leafEntries f) (BitVec.ofNat 10 (presentSymbols f).length) r)
    (h' : GreedyMerge (leafEntries f) (BitVec.ofNat 10 (presentSymbols f).length) r') : r' = r := by
  refine greedy_unique h' h (fun e he => ?_) (leafEntries_seq_nodup f) ?_
  · rw [toNat_leafCount le_rfl]
    exact leafEntries_seq_lt he
  · have := present_length f
    rw [toNat_leafCount le_rfl, leafEntries_length]
    omega

/-- R28: where the sequence numbers are unique, an entry that no other is before is before every other. -/
theorem takesLeast_before {l rest : List PqEntry} {m : PqEntry} (h : TakesLeast l m rest)
    (hnd : (l.map PqEntry.seq).Nodup) {e : PqEntry} (he : e ∈ rest) :
    m.weight < e.weight ∨ (m.weight = e.weight ∧ m.seq.toNat < e.seq.toNat) := by
  obtain ⟨hperm, -, hleast⟩ := h
  have hseq : m.seq ∉ rest.map PqEntry.seq := (List.nodup_cons.1 ((hperm.map PqEntry.seq).nodup_iff.2 hnd)).1
  have hne : m.seq.toNat ≠ e.seq.toNat := fun heq =>
    hseq (BitVec.eq_of_toNat_eq heq ▸ List.mem_map_of_mem he)
  have := hleast e he
  omega

end Sys2Proof.Machine

namespace Sys2Proof

open Machine Safety

/-- Settles O29: the merge loop follows the rules (execBuild_ok), and the leaves' numbers are distinct and below the next
one, so the rules leave no choice (greedy_unique). -/
theorem buildIsTheGreedyMerge : Obligations.BuildIsTheGreedyMerge := by
  unfold Obligations.BuildIsTheGreedyMerge
  intro s hpresent
  obtain ⟨r, hrun, -, -, hgreedy⟩ := execBuild_ok hpresent
  exact ⟨_, r, hrun, rfl, hgreedy, fun r' => greedy_unique_of_leaves hgreedy⟩

/-- Settles O28: what BUILD leaves (execBuild_ok); the root's weight is the sum over its leaves, which are the symbols
present. -/
theorem buildMakesATreeOfTheCounts : Obligations.BuildMakesATreeOfTheCounts := by
  unfold Obligations.BuildMakesATreeOfTheCounts
  intro s hpresent
  obtain ⟨r, hrun, hperm, hadd, -⟩ := execBuild_ok hpresent
  refine ⟨r, hrun, hperm, hadd, ?_⟩
  rw [Tree.weight_eq_sum hadd]
  exact (hperm.map Prod.snd).sum_eq

/-- Settles O27: the entry popMin takes from a queue that is not empty. -/
theorem queueRemoveMin : Obligations.QueueRemoveMin := by
  unfold Obligations.QueueRemoveMin
  intro s hne
  obtain ⟨t, w, hrem⟩ := pqRemoveMin_of_nonempty hne
  obtain ⟨e, rest, hpop, rfl, rfl⟩ := pqRemoveMin_some hrem
  have hleast := takesLeast_of_popMin hpop
  refine ⟨e, rest, hleast, ?_, fun hnd x hx => takesLeast_before hleast hnd hx⟩
  simp only [exec, execPqRemoveMin, hrem]
  rfl

end Sys2Proof
end

section
/-! SUPPORT. What the next state of an instruction can be, said once for every instruction: what it keeps, or where it ends
(R40, R76, R224 to R227, R240, R270). -/

namespace Sys2Proof.Machine

open Safety

/-- R65: the state after SnkClose was answered normally. -/
def State.sealed (s : State) : State :=
  (s.answered.setSnk ⟨s.mem.snk.bits ++ List.replicate (padLength s.mem.snk.bits.length) false, true⟩).log (.snkClose true)

/-- The next states of an instruction begun in `s`. -/
inductive NextOf (i : Instr) (s : State) : State → Prop where
  /-- It keeps what parts of operations keep, PHASE among it. -/
  | kept (u : State) : Keeps s u → NextOf i s u
  /-- An operation of the block hands over to its successor. -/
  | moved (u : State) (p : BitVec 4) (n : Nat) : Keeps s u → decodePhase p = i → restingPhase p = false →
      NextOf i s { u.setPhase (successor p) with freeIx := n }
  /-- A command is accepted. -/
  | started (p : BitVec 4) : i = .compress ∧ p = Phase.count ∨ i = .decompress ∧ p = Phase.chkmagic →
      NextOf i s ((s.setCause 0#3 0#4 0#32).setPhase p)
  /-- The sink is closed. -/
  | sealed : i = .snkClose ∨ i = .wirePadding → NextOf i s s.sealed
  /-- The sink is closed and the command ends. -/
  | completed : i = .close → NextOf i s s.sealed.complete
  /-- A fault is entered. -/
  | faulted (u : State) (r : Raise) : Keeps s u → legalCause r.kind r.sub = true → NextOf i s (u.enterFault r)
  /-- Reset cuts it off. -/
  | reset (u : State) : Keeps s u → UsedLast .reset s u → NextOf i s u.hardReset

theorem Keeps.log {s : State} (x : Txn) : Keeps s (s.log x) :=
  ⟨rfl, rfl, rfl, rfl, rfl, rfl, rfl, rfl, rfl, id, List.prefix_refl _, rfl, List.suffix_cons _ _⟩

/-- R31, R102, R226: an instruction that makes no port transaction. -/
theorem nextOf_noPort {i : Instr} {s t : State} (hn : usesNoPort i = true) (h : exec i s = .next t) : NextOf i s t := by
  obtain rfl | ⟨p, hp, rfl⟩ | ⟨w, -, rfl⟩ | ⟨w, p, n, ⟨rfl, rfl⟩ | ⟨rfl, rfl⟩, rfl⟩ := exec_noPort i s t hn h
  · exact .kept _ Keeps.refl
  · exact .started p hp
  · exact .kept _ (Keeps.refl.setWork w)
  · exact .moved (s.setWork w) Phase.build n (Keeps.refl.setWork w) rfl rfl
  · exact .moved (s.setWork w) Phase.gencodes n (Keeps.refl.setWork w) rfl rfl

/-- R65, R223, R113: an instruction that closes the sink. -/
theorem nextOf_closing {i : Instr} {s t : State} (hi : i = .close ∨ i = .snkClose ∨ i = .wirePadding)
    (h : exec i s = .next t) : NextOf i s t := by
  obtain ⟨-, -, hsame⟩ | ⟨g, hg, hclose⟩ := exec_closing i s hi
  · obtain rfl : s = t := by simpa [hsame] using h
    exact .kept _ Keeps.refl
  · obtain ⟨u, hx, rfl⟩ | ⟨r, u, hx, rfl⟩ | ⟨u, hx, rfl⟩ := hg.next h <;>
      obtain ⟨-, hc⟩ | ⟨-, hc⟩ | ⟨-, hc⟩ | ⟨-, hc⟩ | ⟨ha, hc⟩ := snkClose_cases s <;>
      cases hc.symm.trans hx
    · obtain ⟨rfl, rfl⟩ | ⟨hne, rfl⟩ := hclose
      · exact .completed rfl
      · exact .sealed (hi.resolve_left hne)
    · exact .faulted _ _ (Keeps.answered.trans (Keeps.log _)) rfl
    · exact .reset _ Keeps.answered (s.answer_last ha (by simp))

/-- R69: in a resting phase the block makes no port transaction. -/
theorem busy_of_usesPort {p : BitVec 4} (h : usesNoPort (decodePhase p) = false) : restingPhase p = false := by
  revert p
  decide

/-- Every instruction. -/
theorem nextOf_exec {i : Instr} {s t : State} (h : exec i s = .next t) : NextOf i s t := by
  by_cases hn : usesNoPort i = true
  · exact nextOf_noPort hn h
  by_cases hc : i = .close ∨ i = .snkClose ∨ i = .wirePadding
  · exact nextOf_closing hc h
  obtain ⟨x, g, hx, hmeets, hg⟩ := exec_form i s (fun _ => True) (by simpa using hn) (by simpa using hc)
    (fun _ => trivial) (fun _ => trivial) (.inr fun _ => trivial)
  obtain ⟨u, rfl, rfl⟩ | ⟨r, u, rfl, rfl⟩ | ⟨u, rfl, rfl⟩ := hx.next h
  · obtain rfl | ⟨p, hp, rfl⟩ := hg
    · exact .kept _ hmeets.1
    · exact .moved u p u.freeIx hmeets.1 hp (busy_of_usesPort (by simpa [hp] using hn))
  · exact .faulted u r hmeets.1 hmeets.2.1
  · exact .reset u hmeets.1 hmeets.2

/-! ## The streams -/

/-- R40, R45, R60, R65, R76: what no instruction changes, and which may close the sink. -/
def Protects (i : Instr) (s t : State) : Prop :=
  t.mem.src.bits = s.mem.src.bits ∧ t.mem.shared = s.mem.shared ∧ s.mem.snk.bits <+: t.mem.snk.bits ∧
    (s.mem.snk.closed = true → t.mem.snk.closed = true) ∧
    (t.mem.snk.closed ≠ s.mem.snk.closed → i = .close ∨ i = .snkClose ∨ i = .wirePadding) ∧
    t.cfg = s.cfg ∧ t.inputs = s.inputs ∧ s.trace <:+ t.trace ∧ (s.mem.wf = true → t.mem.wf = true)

theorem Keeps.protects {s t : State} (k : Keeps s t) (i : Instr) : Protects i s t :=
  ⟨k.srcBits, k.shared, k.snkBits, k.closed.trans, fun hne => absurd k.closed hne, k.cfg, k.inputs, k.trace, k.wf⟩

theorem protects_sealed {i : Instr} {s : State} (hi : i = .close ∨ i = .snkClose ∨ i = .wirePadding) :
    Protects i s s.sealed :=
  ⟨rfl, rfl, List.prefix_append _ _, fun _ => rfl, fun _ => hi, rfl, rfl, List.suffix_cons _ _, wf_close⟩

/-! ## PHASE -/

/-- R104: no code has the operation of another. -/
theorem decodePhase_injective {p q : BitVec 4} (h : decodePhase p = decodePhase q) : p = q := by
  revert p q
  decide

/-- R224, R225: where the part `x` of an operation leads. -/
theorem phase_of_thenPhase {x : Res Unit} {p : BitVec 4} {t : State} (h : x.thenPhase p = .next t) :
    t.phase = p ∨ t.phase = Phase.fault ∨ t.phase = Phase.idle := by
  cases x with
  | ok a u => cases h; exact .inl rfl
  | raise r u => cases h; exact .inr (.inl rfl)
  | cut u => cases h; exact .inr (.inr rfl)
  | stop | refuse => cases h

/-- R31, R224, R225: the operation of a phase in which the block does not rest leaves that phase. -/
theorem phase_of_busy {s t : State} (hb : s.busy = true) (h : exec (decodePhase s.phase) s = .next t) :
    t.phase = successor s.phase ∨ t.phase = Phase.fault ∨ t.phase = Phase.idle := by
  rcases busy_cases hb with hp | hp | hp | hp | hp | hp | hp | hp | hp | hp | hp | hp | hp <;> rw [hp] at h ⊢
  · exact phase_of_thenPhase (p := Phase.build) h
  · change execBuild s = .next t at h
    unfold execBuild at h
    split at h <;> cases h
    exact .inl rfl
  · change execGencodes s = .next t at h
    unfold execGencodes at h
    split at h <;> cases h
    exact .inl rfl
  · exact phase_of_thenPhase (p := Phase.wrhdr) h
  · change execWrhdr s = .next t at h
    unfold execWrhdr at h
    split at h
    · cases h
    · exact phase_of_thenPhase h
  · exact phase_of_thenPhase (p := Phase.encode) h
  · exact phase_of_thenPhase (p := Phase.close) h
  · change ((snkClose s).bind fun _ u => .ok () u.complete).outcome = .next t at h
    generalize snkClose s = x at h
    cases x with
    | ok a u => cases h; exact .inl rfl
    | raise r u => cases h; exact .inr (.inl rfl)
    | cut u => cases h; exact .inr (.inr rfl)
    | stop | refuse => cases h
  · exact phase_of_thenPhase (p := Phase.rdhdr) h
  · exact phase_of_thenPhase (p := Phase.decode) h
  · change execDecode s = .next t at h
    unfold execDecode at h
    split at h
    · cases h
    · split at h <;> cases h
      · exact .inl rfl
      · exact .inr (.inl rfl)
    · exact phase_of_thenPhase h
  · cases h
  · cases h

/-- R224, R225: no operation hands over to IDLE. -/
theorem successor_ne_idle {p : BitVec 4} (h : p ≠ Phase.idle) : successor p ≠ Phase.idle := by
  revert p
  decide

/-- R270: a command is cut off only by a reset. -/
theorem reset_of_idle {s t : State} (hb : s.busy = true) (h : exec (decodePhase s.phase) s = .next t)
    (hi : t.phase = Phase.idle) : UsedLast .reset s t := by
  have hne : s.phase ≠ Phase.idle := fun hp => by simp [State.busy, restingPhase, hp] at hb
  cases nextOf_exec h with
  | kept _ k => exact absurd (k.phase.symm.trans hi) hne
  | moved u p n k hp =>
    obtain rfl := decodePhase_injective hp
    exact absurd hi (successor_ne_idle hne)
  | started p hp =>
    obtain ⟨-, rfl⟩ | ⟨-, rfl⟩ := hp <;> cases hi
  | sealed => exact absurd hi hne
  | completed => cases hi
  | faulted => cases hi
  | reset u k hu => exact hu

end Sys2Proof.Machine

namespace Sys2Proof

open Machine Safety

/-- Settles O48, by what the next state of an instruction can be. -/
theorem everyInstructionKeeps : Obligations.EveryInstructionKeeps := by
  unfold Obligations.EveryInstructionKeeps
  intro i s t h
  change Protects i s t
  cases nextOf_exec h with
  | kept _ k => exact k.protects i
  | moved u p n k => exact (k.protects i :)
  | started p => exact (Keeps.refl.protects i : Protects i s s)
  | sealed hi => exact protects_sealed (.inr hi)
  | completed hi => exact (protects_sealed (.inl hi) :)
  | faulted u r k => exact (k.protects i :)
  | reset u k => exact (k.protects i :)

/-- Settles O51, by what the next state of an instruction can be. -/
theorem causeFrame : Obligations.CauseFrame := by
  unfold Obligations.CauseFrame
  intro i s t h hf
  cases nextOf_exec h with
  | kept u k => exact .inl ⟨k.causeKind, k.causeSub, k.info⟩
  | moved u p n k => exact .inl ⟨k.causeKind, k.causeSub, k.info⟩
  | started p hp =>
    obtain ⟨rfl, -⟩ | ⟨rfl, -⟩ := hp
    · exact .inr ⟨rfl, rfl, rfl, .inl rfl⟩
    · exact .inr ⟨rfl, rfl, rfl, .inr (.inl rfl)⟩
  | sealed => exact .inl ⟨rfl, rfl, rfl⟩
  | completed hi => exact .inr ⟨rfl, rfl, rfl, .inr (.inr (.inl hi))⟩
  | faulted => exact absurd rfl hf
  | reset => exact .inr ⟨rfl, rfl, rfl, .inr (.inr (.inr rfl))⟩

/-- Settles O53: a resting phase stays (exec_resting), any other is left for its successor, FAULT or IDLE (phase_of_busy), for
IDLE only by a reset. -/
theorem phaseSuccessors : Obligations.PhaseSuccessors := by
  unfold Obligations.PhaseSuccessors
  intro s t h
  cases hb : s.busy with
  | false =>
    rw [exec_resting hb] at h
    cases h
    obtain hp | hp | hp := resting_cases hb <;> exact .inl (by rw [hp]; rfl)
  | true =>
    obtain hp | hp | hp := phase_of_busy hb h
    · exact .inl hp
    · exact .inr (.inl hp)
    · exact .inr (.inr ⟨hp, (used_of_last (reset_of_idle hb h hp)).2.2⟩)

end Sys2Proof
end

section
/-! SUPPORT. What each operation leaves in the working stores when it completes, whatever the ports did (R21, R24, R29, R140,
R152, R170, R180, R181, R200, R202). -/

namespace Sys2Proof.Machine

open Safety

/-! ## The parts of operations -/

theorem srcReset_eq_ok {s u : State} {a : Unit} (h : srcReset s = .ok a u) : u.work = s.work := by
  cases transact_eq_ok h
  rfl

theorem writeLeaf_eq_ok {x : Sym} {s u : State} {a : Unit} (h : writeLeaf x s = .ok a u) : u.work = s.work := by
  obtain ⟨_, v, h1, h2⟩ := Res.bind_eq_ok h
  exact (snkWrite_eq_ok h2).1.trans (snkWrite_eq_ok h1).1

/-- R180, R33: the walk leaves the stack as it was. -/
theorem emitTree_eq_ok {t : Tree} {s u : State} {a : Unit} (h : emitTree t s = .ok a u) : u.work = s.work := by
  induction t generalizing s u a with
  | leaf x w => exact writeLeaf_eq_ok h
  | internal w l r ihl ihr =>
    obtain ⟨_, v1, h1, h2⟩ := Res.bind_eq_ok h
    obtain ⟨_, v2, h3, h4⟩ := Res.bind_eq_ok h2
    obtain ⟨_, v3, h5, h6⟩ := Res.bind_eq_ok h4
    cases h6
    have e1 : v1.work = s.work := (snkWrite_eq_ok h1).1
    have e2 : v2.work = s.work.push (some (.internal w l r)) := by rw [ihl h3, State.setWork_work, e1]
    have e3 : v3.work = (s.work.push (some (.internal w l r))).turn (some (.internal w l r)) := by
      rw [ihr h5, State.setWork_work, e2]
    rw [State.setWork_work, e3]
    rfl

theorem putCode_eq_ok {bits : List Bool} {s u : State} {a : Unit} (h : putCode bits s = .ok a u) : u.work = s.work := by
  induction bits generalizing s with
  | nil => cases h; rfl
  | cons b bits ih =>
    obtain ⟨_, v, h1, h2⟩ := Res.bind_eq_ok h
    exact (ih h2).trans (snkWrite_eq_ok h1).1

theorem putByte_eq_ok {b : Byte} {s u : State} {a : Unit} (h : putByte b s = .ok a u) : u.work = s.work := by
  unfold putByte at h
  split at h
  · exact putCode_eq_ok h
  · cases h

theorem encodeLoop_eq_ok {n : Nat} {s u : State} {a : Unit} (h : encodeLoop n s = .ok a u) : u.work = s.work := by
  induction n generalizing s with
  | zero =>
    obtain ⟨_, v, h1, h2⟩ := Res.bind_eq_ok h
    cases h2
    exact (srcRead_eq_ok h1).1
  | succ n ih =>
    obtain ⟨r, v, h1, h2⟩ := Res.bind_eq_ok h
    have e1 : v.work = s.work := (srcRead_eq_ok h1).1
    cases r with
    | none => cases h2; exact e1
    | some x =>
      obtain ⟨_, v2, h3, h4⟩ := Res.bind_eq_ok h2
      exact (ih h4).trans ((putByte_eq_ok h3).trans e1)

/-- R202: the decoder's loop writes only CUR. -/
def OnlyCur (w v : Work) : Prop := v = { w with cur := v.cur }

theorem OnlyCur.trans {w v x : Work} (h : OnlyCur w v) (k : OnlyCur v x) : OnlyCur w x := by
  unfold OnlyCur at *
  rw [k, h]

theorem OnlyCur.setCur (w : Work) (c : Option Tree) : OnlyCur w { w with cur := c } := rfl

theorem decodeBit_eq_ok {root : Tree} {s u : State} {o : BitOutcome} (h : decodeBit root s = .ok o u) :
    OnlyCur s.work u.work := by
  obtain ⟨b, v, h1, h2⟩ := Res.bind_eq_ok h
  have e1 : v.work = s.work := (srcRead_eq_ok h1).1
  cases b with
  | none => cases h2
  | some x => cases h2; rw [← e1]; exact .setCur _ _

theorem putLiteral_eq_ok {root : Tree} {x : Sym} {s u : State} {a : Unit} (h : putLiteral root x s = .ok a u) :
    OnlyCur s.work u.work := by
  obtain ⟨_, v, h1, h2⟩ := Res.bind_eq_ok h
  cases h2
  rw [← (snkWrite_eq_ok h1).1]
  exact .setCur _ _

theorem decodeLoop_eq_ok {root : Tree} {n : Nat} {s u : State} {a : Unit} (h : decodeLoop root n s = .ok a u) :
    OnlyCur s.work u.work := by
  induction n generalizing s with
  | zero =>
    obtain ⟨_, v, h1, h2⟩ := Res.bind_eq_ok h
    cases h2
  | succ n ih =>
    obtain ⟨o, v, h1, h2⟩ := Res.bind_eq_ok h
    have e1 := decodeBit_eq_ok h1
    cases o with
    | inside => exact e1.trans (ih h2)
    | eos => cases h2; exact e1
    | symbol x =>
      obtain ⟨_, v2, h3, h4⟩ := Res.bind_eq_ok h2
      exact e1.trans ((putLiteral_eq_ok h3).trans (ih h4))

theorem checkMagic_eq_ok {s u : State} {a : Unit} (h : checkMagic s = .ok a u) : u.work = s.work := by
  obtain ⟨m, v, h1, h2⟩ := Res.bind_eq_ok h
  have e1 : v.work = s.work := (srcRead_eq_ok h1).1
  cases m with
  | none => cases h2
  | some x =>
    simp only at h2
    split at h2 <;> cases h2
    exact e1

/-! ## The operations -/

section
variable {s t : State}

/-- R140 to R144 -/
theorem execCount_work (h : execCount s = .next t) (ht : t.phase = Phase.build) :
    t.work = { s.work with freq := tally (bytesLeft s), nbytes := (bytesLeft s).length } := by
  obtain ⟨u, hx, rfl⟩ := thenPhase_next h ht (by decide) (by decide)
  obtain ⟨_, v, hloop, hmark⟩ := Res.bind_eq_ok hx
  cases hmark
  have hw := countLoop_eq_ok _ (s := s.setWork s.work.clearCounts) (bytesLeft_length s).symm hloop
  rw [State.setPhase_work, State.setWork_work, hw]
  exact counted_eq_tally _ _

/-- R152 to R154 -/
theorem execBuild_work (h : execBuild s = .next t) :
    (∃ r, t.work.tree = some r ∧ r.symsInTable = true) ∧
      t.work = { s.work with
        pq := t.work.pq, seq := t.work.seq, nnodes := t.work.nnodes, tree := t.work.tree, ret := t.work.ret } := by
  obtain ⟨r, hrun, hperm, -⟩ := execBuild_ok (presentSymbols_of_build h)
  cases hrun.symm.trans h
  exact ⟨⟨r, rfl, symsInTable_of_perm hperm⟩, rfl⟩

/-- R170: the walk changes CODE and PATH, a symbol beyond the table `codeBeyond`. -/
theorem execGencodes_work (h : execGencodes s = .next t) :
    t.work = { s.work with code := t.work.code, path := t.work.path, codeBeyond := t.work.codeBeyond } := by
  unfold execGencodes at h
  split at h
  · cases h
  · next r _ =>
    cases h
    obtain ⟨c, hc⟩ : ∃ c, walkCodes r s.work.clearCodes = { s.work with code := c, path := [] } :=
      ⟨_, walkCodes_eq r s.work.clearCodes⟩
    rw [hc]
    split <;> rfl

theorem execWrmagic_work (h : execWrmagic s = .next t) (ht : t.phase = Phase.wrhdr) : t.work = s.work := by
  obtain ⟨u, hx, rfl⟩ := thenPhase_next h ht (by decide) (by decide)
  exact (snkWrite_eq_ok hx).1

theorem execWrhdr_work (h : execWrhdr s = .next t) (ht : t.phase = Phase.rewind) : t.work = s.work := by
  unfold execWrhdr at h
  split at h
  · cases h
  · obtain ⟨u, hx, rfl⟩ := thenPhase_next h ht (by decide) (by decide)
    exact (emitTree_eq_ok hx :)

theorem execRewind_work (h : execRewind s = .next t) (ht : t.phase = Phase.encode) : t.work = s.work := by
  obtain ⟨u, hx, rfl⟩ := thenPhase_next h ht (by decide) (by decide)
  exact (srcReset_eq_ok hx :)

theorem execEncode_work (h : execEncode s = .next t) (ht : t.phase = Phase.close) : t.work = s.work := by
  obtain ⟨u, hx, rfl⟩ := thenPhase_next h ht (by decide) (by decide)
  obtain ⟨_, v, hloop, heos⟩ := Res.bind_eq_ok hx
  exact (putCode_eq_ok heos).trans (encodeLoop_eq_ok hloop)

theorem execChkmagic_work (h : execChkmagic s = .next t) (ht : t.phase = Phase.rdhdr) : t.work = s.work := by
  obtain ⟨u, hx, rfl⟩ := thenPhase_next h ht (by decide) (by decide)
  exact (checkMagic_eq_ok hx :)

/-- R181 -/
theorem execRdhdr_work (h : execRdhdr s = .next t) (ht : t.phase = Phase.decode) :
    ∃ r, t.work = { s.work with nnodes := r.size, tree := some r } := by
  obtain ⟨u, hx, rfl⟩ := thenPhase_next h ht (by decide) (by decide)
  obtain ⟨r, v, hparse, hset⟩ := Res.bind_eq_ok hx
  cases hset
  obtain ⟨-, -, hw⟩ := parseTree_eq_ok _ hparse
  refine ⟨r, ?_⟩
  simp only [State.setPhase_work, State.setWork_work, hw, Work.clearTree, Nat.zero_add]

theorem execDecode_work (h : execDecode s = .next t) (ht : t.phase = Phase.close) : OnlyCur s.work t.work := by
  unfold execDecode at h
  split at h
  · cases h
  · split at h <;> cases h
    · rfl
    · cases ht
  · obtain ⟨u, hx, rfl⟩ := thenPhase_next h ht (by decide) (by decide)
    exact (OnlyCur.setCur _ _).trans (decodeLoop_eq_ok hx :)

end

end Sys2Proof.Machine

namespace Sys2Proof

open Machine Safety

/-- Settles O50, operation by operation. -/
theorem storeFrames : Obligations.StoreFrames := by
  unfold Obligations.StoreFrames
  intro s t
  refine ⟨fun h ht => ?_, fun h => (execBuild_work h).2, execGencodes_work, execWrmagic_work, execWrhdr_work,
    execRewind_work, execEncode_work, execChkmagic_work, fun h ht => ?_, execDecode_work⟩
  · rw [execCount_work h ht]
  · obtain ⟨r, hw⟩ := execRdhdr_work h ht
    rw [hw]

end Sys2Proof
end

section
/-! SUPPORT. The invariant of the machine (R31, R35, R36, R40, R44, R65, R104, R141, R240): reset has it, every operation of the
block and every action of the host keeps it. -/

namespace Sys2Proof.Machine

open Safety

/-! ## Resting states -/

theorem busy_eq_false {s : State} : s.busy = false ↔ restingPhase s.phase = true := by simp [State.busy]

/-- R44: nothing is asked of the stores of a block that rests. -/
theorem inv_of_resting {s : State} (hr : restingPhase s.phase = true) (hm : s.mem.wf = true)
    (hc : s.phase ≠ Phase.fault → s.causeKind = 0#3 ∧ s.causeSub = 0#4 ∧ s.info = 0#32)
    (hl : s.phase = Phase.fault → legalCause s.causeKind s.causeSub = true) : Inv s := by
  have hne {p : BitVec 4} (hp : restingPhase p = false) : s.phase ≠ p := fun h => by simp [← h, hr] at hp
  exact {
    phase_produced := ⟨hne rfl, hne rfl⟩
    no_cause := hc
    legal_cause := hl
    memory := hm
    busy_streams := fun hb => by simp [State.busy, hr] at hb
    build_counts := fun h => absurd h (hne rfl)
    built_tree := fun h => by
      obtain h | h | h := h
      all_goals exact absurd h (hne rfl)
    decode_tree := fun h => absurd h (hne rfl) }

/-- R43, R270 -/
theorem inv_of_idle {s : State} (hp : s.phase = Phase.idle) (hm : s.mem.wf = true)
    (hc : s.causeKind = 0#3 ∧ s.causeSub = 0#4 ∧ s.info = 0#32) : Inv s :=
  inv_of_resting (by rw [hp]; rfl) hm (fun _ => hc) fun hf => by rw [hp] at hf; cases hf

/-! ## The operations of the block -/

theorem successor_produced {p : BitVec 4} (h : p ≠ Phase.phaseC ∧ p ≠ Phase.phaseD) :
    successor p ≠ Phase.phaseC ∧ successor p ≠ Phase.phaseD := by
  revert p
  decide

/-- R224, R225: the operation before each operation that reads the stores. -/
theorem successor_eq {p q : BitVec 4} (h : successor p = q) :
    (q = Phase.build → p = Phase.count) ∧ (q = Phase.gencodes → p = Phase.build) ∧
      (q = Phase.wrmagic → p = Phase.gencodes) ∧ (q = Phase.wrhdr → p = Phase.wrmagic) ∧
      (q = Phase.decode → p = Phase.rdhdr) := by
  subst h
  revert p
  decide

/-- R224, R225: FAULT is no operation's successor. -/
theorem successor_ne_fault {p : BitVec 4} (h : restingPhase p = false) : successor p ≠ Phase.fault := by
  revert p
  decide

/-- R223: CLOSE is the only operation that closes the sink. -/
theorem closing_phase {p : BitVec 4}
    (h : decodePhase p = .close ∨ decodePhase p = .snkClose ∨ decodePhase p = .wirePadding) : decodePhase p = .close := by
  revert p
  decide

/-- R240: whatever instruction enters FAULT records a cause of the table. -/
theorem legalCause_of_next {i : Instr} {s t : State} (h : exec i s = .next t) (hs : s.phase ≠ Phase.fault)
    (ht : t.phase = Phase.fault) : legalCause t.causeKind t.causeSub = true := by
  cases nextOf_exec h with
  | kept _ k => exact absurd (k.phase.symm.trans ht) hs
  | moved u p n k hp hr => exact absurd ht (successor_ne_fault hr)
  | started p hp => obtain ⟨-, rfl⟩ | ⟨-, rfl⟩ := hp <;> cases ht
  | sealed => exact absurd ht hs
  | completed => cases ht
  | faulted u r k hl => exact hl
  | reset => cases ht

section
variable {s t : State} (hb : s.busy = true) (h : exec (decodePhase s.phase) s = .next t)
include hb h

/-- R31: where the operation leads to a phase in which the block does not rest, it completed, and that phase is next. -/
theorem successor_of_running (ht : restingPhase t.phase = false) : successor s.phase = t.phase := by
  obtain hp | hp | hp := phase_of_busy hb h
  · exact hp.symm
  · simp [hp, restingPhase] at ht
  · simp [hp, restingPhase] at ht

/-- R141: COUNT leaves the end-of-stream count 1. -/
theorem counts_of_running (ht : t.phase = Phase.build) : t.work.freq[eosIndex] = 1 := by
  have hp := (successor_eq (successor_of_running hb h (by rw [ht]; rfl))).1 ht
  rw [hp] at h
  rw [execCount_work h ht]
  exact tally_eos _

/-- R181: RDHDR makes a tree. -/
theorem parsed_of_running (ht : t.phase = Phase.decode) : ∃ r, t.work.tree = some r := by
  obtain ⟨-, -, -, -, hrdhdr⟩ := successor_eq (successor_of_running hb h (by rw [ht]; rfl))
  rw [hrdhdr ht] at h
  obtain ⟨r, hw⟩ := execRdhdr_work h ht
  exact ⟨r, by rw [hw]⟩

variable (hinv : Inv s)
include hinv

/-- R64, R83: while a command runs the streams stay two, the sink open. -/
theorem streams_of_running (ht : t.busy = true) : t.mem.shared = false ∧ t.mem.snk.closed = false := by
  obtain ⟨-, hshared, -, -, hcloses, -⟩ := everyInstructionKeeps _ s t h
  obtain ⟨htwo, hopen⟩ := hinv.busy_streams hb
  refine ⟨hshared.trans htwo, ?_⟩
  by_contra hclosed
  have hclose : decodePhase s.phase = .close := closing_phase (hcloses fun he => hclosed (he.trans hopen))
  have hs : s.phase = Phase.close := decodePhase_injective hclose
  have hdone := successor_of_running hb h (by simpa [State.busy] using ht)
  rw [hs] at hdone
  simp [State.busy, ← hdone, successor, restingPhase] at ht

/-- R154, R24 (e): BUILD makes a tree of table symbols, GENCODES and WRMAGIC leave it. -/
theorem tree_of_running (ht : t.phase = Phase.gencodes ∨ t.phase = Phase.wrmagic ∨ t.phase = Phase.wrhdr) :
    ∃ r, t.work.tree = some r ∧ r.symsInTable = true := by
  have hrun : restingPhase t.phase = false := by obtain ht | ht | ht := ht <;> rw [ht] <;> rfl
  obtain ⟨-, hbuild, hgencodes, hwrmagic, -⟩ := successor_eq (successor_of_running hb h hrun)
  obtain ht | ht | ht := ht
  · rw [hbuild ht] at h
    exact (execBuild_work h).1
  · have hp := hgencodes ht
    rw [hp] at h
    rw [execGencodes_work h]
    exact hinv.built_tree (.inl hp)
  · have hp := hwrmagic ht
    rw [hp] at h
    rw [execWrmagic_work h ht]
    exact hinv.built_tree (.inr (.inl hp))

/-- R31: an operation keeps the invariant. -/
theorem inv_of_running : Inv t := by
  obtain ⟨-, -, -, -, -, -, -, -, hmem⟩ := everyInstructionKeeps _ s t h
  have hs : s.phase ≠ Phase.fault := fun hf => by simp [State.busy, restingPhase, hf] at hb
  exact {
    phase_produced := by
      obtain hp | hp | hp := phase_of_busy hb h <;> rw [hp]
      · exact successor_produced hinv.phase_produced
      all_goals decide
    no_cause := fun hf => by
      obtain ⟨hk, hc, hi⟩ | ⟨hk, hc, hi, -⟩ := causeFrame _ s t h hf
      · rw [hk, hc, hi]
        exact hinv.no_cause hs
      · exact ⟨hk, hc, hi⟩
    legal_cause := legalCause_of_next h hs
    memory := hmem hinv.memory
    busy_streams := streams_of_running hb h hinv
    build_counts := counts_of_running hb h
    built_tree := tree_of_running hb h hinv
    decode_tree := parsed_of_running hb h }

end

/-- R31: the operation PHASE names keeps the invariant. -/
theorem inv_of_exec {s t : State} (hinv : Inv s) (h : exec (decodePhase s.phase) s = .next t) : Inv t := by
  cases hb : s.busy with
  | true => exact inv_of_running hb h hinv
  | false =>
    rw [exec_resting hb] at h
    cases h
    exact hinv

/-! ## The actions of the host -/

/-- R226: what command acceptance leaves. -/
theorem acceptCommand_next {p : BitVec 4} {s t : State} (h : acceptCommand p s = .next t) :
    t = s ∨ (s.mem.shared = false ∧ s.mem.snk.closed = false ∧ t = (s.setCause 0#3 0#4 0#32).setPhase p) := by
  unfold acceptCommand at h
  split at h
  · cases h; exact .inl rfl
  · split at h
    · cases h
    · next hshared =>
      split at h
      · cases h
      · next hfresh =>
        cases h
        exact .inr ⟨by simpa using hshared, by simpa using fun hc => hfresh (.inr hc), rfl⟩

/-- R226: a command starts at an operation that reads nothing of the stores. -/
theorem inv_of_acceptCommand {p : BitVec 4} {s t : State} (hinv : Inv s)
    (hp : p = Phase.count ∨ p = Phase.chkmagic) (h : acceptCommand p s = .next t) : Inv t := by
  obtain rfl | ⟨htwo, hopen, rfl⟩ := acceptCommand_next h
  · exact hinv
  · have hne {q : BitVec 4} (hc : Phase.count ≠ q) (hk : Phase.chkmagic ≠ q) : p ≠ q := by
      obtain rfl | rfl := hp
      · exact hc
      · exact hk
    exact {
      phase_produced := ⟨hne (by decide) (by decide), hne (by decide) (by decide)⟩
      no_cause := fun _ => ⟨rfl, rfl, rfl⟩
      legal_cause := fun hf => absurd hf (hne (by decide) (by decide))
      memory := hinv.memory
      busy_streams := fun _ => ⟨htwo, hopen⟩
      build_counts := fun hf => absurd hf (hne (by decide) (by decide))
      built_tree := fun hf => by
        obtain hf | hf | hf := hf
        all_goals exact absurd hf (hne (by decide) (by decide))
      decode_tree := fun hf => absurd hf (hne (by decide) (by decide)) }

theorem inv_of_command {v : Word} {s t : State} (hinv : Inv s) (h : exec (decodeCmd v) s = .next t) : Inv t := by
  obtain hv | hv | hv | hv := decodeCmd_cases v <;> rw [hv] at h
  · cases h; exact hinv
  · exact inv_of_acceptCommand hinv (.inl rfl) h
  · exact inv_of_acceptCommand hinv (.inr rfl) h
  · cases h; exact hinv

/-- R272, R275: another source. -/
theorem inv_of_attachSrc {before after : List Bool} {s t : State} (hinv : Inv s) (h : attachSrc before after s = .next t) :
    Inv t := by
  have hm := attachSrc_memory hinv.memory h
  cases h
  exact {
    phase_produced := hinv.phase_produced
    no_cause := hinv.no_cause
    legal_cause := hinv.legal_cause
    memory := hm
    busy_streams := fun hb => ⟨rfl, (hinv.busy_streams hb).2⟩
    build_counts := hinv.build_counts
    built_tree := hinv.built_tree
    decode_tree := hinv.decode_tree }

/-- R272: another sink, while the block rests. -/
theorem inv_of_attachSnk {shared : Bool} {s t : State} (hinv : Inv s) (h : attachSnk shared s = .next t) : Inv t := by
  have hm := attachSnk_memory hinv.memory h
  cases hb : s.busy with
  | true => rw [attachSnk, if_pos hb] at h; cases h
  | false =>
    rw [attachSnk_resting hb] at h
    cases h
    exact inv_of_resting (busy_eq_false.1 hb) hm hinv.no_cause hinv.legal_cause

/-! ## A step, by the host's next action -/

theorem step_silent {s : State} (h : s.inputs = []) : step s = exec (decodePhase s.phase) s := by
  rw [step, fetch, h]

theorem step_tick {s : State} {rest : List HostEvent} (h : s.inputs = .tick :: rest) :
    step s = exec (decodePhase s.phase) (s.setInputs rest) := by
  rw [step, fetch, h]

theorem step_reset {s : State} {rest : List HostEvent} (h : s.inputs = .reset :: rest) :
    step s = .next (s.setInputs rest).hardReset := by
  rw [step, fetch, h]

/-- R39: only offset 0 is CMD. -/
theorem offset_of_cmd {n : Nat} (h : Reg.ofOffset n = some .cmd) : n = 0 := by
  unfold Reg.ofOffset at h
  split at h
  · rfl
  all_goals simp at h

/-- R37, R39: a host write is a command, or ignored, or has no meaning. -/
theorem step_write_cases {s : State} {n : Nat} {v : Word} {rest : List HostEvent} (h : s.inputs = .write n v :: rest) :
    (n = 0 ∧ step s = exec (decodeCmd v) (s.setInputs rest)) ∨ step s = .next (s.setInputs rest) ∨
      step s = .refused .offsetBetweenRegisters := by
  by_cases hn : n = 0
  · subst hn
    exact .inl ⟨rfl, step_command h⟩
  · rw [step, fetch, h]
    simp only [hostWrite]
    cases hr : Reg.ofOffset n with
    | none => exact .inr (.inr rfl)
    | some g =>
      cases g with
      | cmd => exact absurd (offset_of_cmd hr) hn
      | status | cause | info | magicReg | reserved => exact .inr (.inl rfl)

end Sys2Proof.Machine

namespace Sys2Proof

open Machine Safety

/-- Settles O55: the operation PHASE names keeps the invariant (inv_of_exec), and so does every action of the host. -/
theorem invariantKept : Obligations.InvariantKept := by
  unfold Obligations.InvariantKept
  intro s t hinv h
  cases hi : s.inputs with
  | nil => exact inv_of_exec hinv ((step_silent hi).symm.trans h)
  | cons e rest =>
    have hinv' := inv_setInputs hinv rest
    cases e with
    | tick => exact inv_of_exec hinv' ((step_tick hi).symm.trans h)
    | write n v =>
      obtain ⟨-, he⟩ | he | he := step_write_cases hi
      · exact inv_of_command hinv' (he.symm.trans h)
      · cases he.symm.trans h
        exact hinv'
      · cases he.symm.trans h
    | reset =>
      cases (step_reset hi).symm.trans h
      exact inv_of_idle rfl hinv.memory ⟨rfl, rfl, rfl⟩
    | attachSrc before after => exact inv_of_attachSrc hinv' ((step_attachSrc hi).symm.trans h)
    | attachSnk shared => exact inv_of_attachSnk hinv' ((step_attachSnk hi).symm.trans h)

/-- Settles O54: a block at reset rests, with no cause. -/
theorem invariantAtReset : Obligations.InvariantAtReset :=
  inv_of_idle rfl reset_memory_wf ⟨rfl, rfl, rfl⟩

end Sys2Proof
end

section
/-! SUPPORT. The host's view: the registers (R34 to R39), the step of each host action, and reset (R43, R270). -/

namespace Sys2Proof.Machine

open Safety

/-- R34: the STATUS word, bit by bit. -/
theorem status_bits (s : State) :
    (s.status.getLsbD 0 = true ↔ s.phase ≠ Phase.idle ∧ s.phase ≠ Phase.done ∧ s.phase ≠ Phase.fault) ∧
    (s.status.getLsbD 1 = true ↔ s.phase = Phase.done) ∧
    (s.status.getLsbD 2 = true ↔ s.phase = Phase.fault) ∧
    s.status.getLsbD 3 = false ∧ s.status.extractLsb' 4 4 = s.phase ∧ s.status.extractLsb' 8 24 = 0#24 := by
  unfold State.status State.busy
  generalize s.phase = p
  revert p
  decide

/-- R35: the CAUSE word, bit by bit. -/
theorem cause_bits (s : State) :
    s.cause.extractLsb' 0 3 = s.causeKind ∧ s.cause.getLsbD 3 = false ∧ s.cause.extractLsb' 4 4 = s.causeSub ∧
      s.cause.extractLsb' 8 24 = 0#24 := by
  unfold State.cause
  generalize s.causeKind = k
  generalize s.causeSub = c
  revert k c
  decide

/-- R39: from 0x14 up. -/
theorem ofOffset_reserved {n : Nat} (h : 0x14 ≤ n) : Reg.ofOffset n = some .reserved := by
  unfold Reg.ofOffset
  split
  · omega
  · omega
  · omega
  · omega
  · omega
  · exact if_pos h

/-- R39: the registers a host write to which is ignored. -/
theorem step_write_ignored {s : State} {n : Nat} {v : Word} {rest : List HostEvent} {g : Reg}
    (h : s.inputs = .write n v :: rest) (hr : Reg.ofOffset n = some g) (hg : g ≠ .cmd) :
    step s = .next (s.setInputs rest) := by
  rw [step, fetch, h]
  simp only [hostWrite, hr]
  cases g with
  | cmd => exact absurd rfl hg
  | status | cause | info | magicReg | reserved => rfl

/-- R102: the OP values of the two commands. -/
theorem op_of_decodeCmd {v : Word} (h : decodeCmd v = .compress ∨ decodeCmd v = .decompress) :
    v.extractLsb' 0 2 = 1#2 ∨ v.extractLsb' 0 2 = 2#2 := by
  have hop : (v.extractLsb' 0 2).toNat = v.toNat % 4 := by simp
  unfold decodeCmd at h
  split at h
  · simp at h
  · next hv => exact .inl (BitVec.eq_of_toNat_eq (hop.trans hv))
  · next hv => exact .inr (BitVec.eq_of_toNat_eq (hop.trans hv))
  · simp at h

/-- R43, R270: after reset the host reads what it reads of the state at reset. -/
theorem hardReset_status (s : State) : s.hardReset.status = 0#32 :=
  (by decide : State.reset.status = 0#32)

theorem hardReset_cause (s : State) : s.hardReset.cause = 0#32 :=
  (by decide : State.reset.cause = 0#32)

/-- R270: a reset while a port transaction is pending. -/
theorem transact_cut {α : Type} {s : State} (h : NextAnswer s .reset) (x : Txn) (sub : BitVec 4) (go : State → Res α) :
    transact x sub go s = .cut s.answered := by
  obtain ⟨htwo, ha⟩ := h
  simp [transact, htwo, ha]

end Sys2Proof.Machine

namespace Sys2Proof

open Machine Safety

/-- Settles O7: the words the host reads (status_bits, cause_bits), reset's registers, and the writes that are ignored. -/
theorem registerMap : Obligations.RegisterMap := by
  unfold Obligations.RegisterMap
  refine ⟨fun s => ?_, ⟨rfl, rfl, rfl, rfl, rfl⟩, fun s n v rest hi hn => ?_⟩
  · obtain ⟨hbusy, hdone, herr, hzero, hphase, hhigh⟩ := status_bits s
    obtain ⟨hkind, hzero', hsub, hhigh'⟩ := cause_bits s
    exact ⟨rfl, rfl, hbusy, hdone, herr, hzero, hphase, hhigh, rfl, hkind, hzero', hsub, hhigh', rfl, rfl,
      fun n hn => by rw [State.readOffset, ofOffset_reserved hn]; rfl⟩
  · obtain rfl | rfl | rfl | rfl | hn := hn
    · exact step_write_ignored (g := .status) hi rfl (by decide)
    · exact step_write_ignored (g := .cause) hi rfl (by decide)
    · exact step_write_ignored (g := .info) hi rfl (by decide)
    · exact step_write_ignored (g := .magicReg) hi rfl (by decide)
    · exact step_write_ignored hi (ofOffset_reserved hn) (by decide)

/-- Settles O13: while the block rests its own step changes nothing (exec_resting), and of the host's actions only an accepted
command and reset write PHASE. -/
theorem restingPhaseIsLeftOnlyByCommandOrReset : Obligations.RestingPhaseIsLeftOnlyByCommandOrReset := by
  unfold Obligations.RestingPhaseIsLeftOnlyByCommandOrReset
  intro s t hb h hne
  cases hi : s.inputs with
  | nil =>
    rw [step_silent hi, exec_resting hb] at h
    cases h
    exact absurd rfl hne
  | cons e rest =>
    refine ⟨rest, ?_⟩
    cases e with
    | tick =>
      cases ((step_tick hi).trans (exec_resting (s := s.setInputs rest) hb)).symm.trans h
      exact absurd rfl hne
    | write n v =>
      obtain ⟨rfl, he⟩ | he | he := step_write_cases hi
      · have hrun := he.symm.trans h
        obtain hv | hv | hv | hv := decodeCmd_cases v
        · rw [hv] at hrun
          cases hrun
          exact absurd rfl hne
        · exact .inr ⟨v, rfl, op_of_decodeCmd (.inl hv)⟩
        · exact .inr ⟨v, rfl, op_of_decodeCmd (.inr hv)⟩
        · rw [hv] at hrun
          cases hrun
          exact absurd rfl hne
      · cases he.symm.trans h
        exact absurd rfl hne
      · cases he.symm.trans h
    | reset => exact .inl rfl
    | attachSrc before after =>
      cases (step_attachSrc hi).symm.trans h
      exact absurd rfl hne
    | attachSnk shared =>
      cases ((step_attachSnk hi).trans (attachSnk_resting (s := s.setInputs rest) hb shared)).symm.trans h
      exact absurd rfl hne

/-- Settles O6, by the host's next action. -/
theorem stepRunsTheInstruction : Obligations.StepRunsTheInstruction := by
  unfold Obligations.StepRunsTheInstruction
  intro s v rest
  exact ⟨step_silent, step_tick, step_command⟩

/-- Settles O12: in a resting phase the block has nothing to run. -/
theorem restingPhasesWait : Obligations.RestingPhasesWait := by
  unfold Obligations.RestingPhasesWait
  intro s
  exact ⟨rfl, rfl, rfl, fun hi hb => (step_silent hi).trans (exec_resting hb)⟩

/-- Settles O15: the registers of the one state reset, read off it. -/
theorem resetValues : Obligations.ResetValues := by
  unfold Obligations.ResetValues
  exact ⟨rfl, rfl, rfl, rfl, rfl, rfl⟩

/-- Settles O16: between two operations reset is a step of its own; inside one it cuts the pending transaction off. -/
theorem hardwareReset : Obligations.HardwareReset := by
  unfold Obligations.HardwareReset
  refine ⟨fun s rest hi => ?_, fun s n v ha hw => ?_⟩
  · exact ⟨_, step_reset hi, rfl, hardReset_status _, hardReset_cause _, rfl, rfl, rfl, rfl, rfl, rfl⟩
  · refine ⟨s.answered.hardReset, ?_, ?_, ?_, ?_, rfl, hardReset_status _, hardReset_cause _, rfl, rfl, rfl, rfl⟩
    · simp [exec, execSrcRead, srcRead, transact_cut ha]
    · simp [exec, execSrcReset, srcReset, transact_cut ha]
    · simp [exec, execSnkWrite, hw, snkWrite, transact_cut ha]
    · simp [exec, execSnkClose, snkClose, transact_cut ha]

end Sys2Proof
end

section
/-! SUPPORT. Two runs that differ only in the working stores (R44, R230): each part of an operation ends the same way in both,
and each operation reads of the stores only what the operations of its command before it wrote. -/

namespace Sys2Proof.Safety

open Machine

/-! ## States that differ only in their stores -/

section
variable {s t : State} (h : SameButStores s t)
include h

theorem SameButStores.eq : t = { s with work := t.work, freeIx := t.freeIx } := by
  obtain ⟨hp, hk, hc, hi, hm, hg, ha, hn, ht⟩ := h
  rw [← hp, ← hk, ← hc, ← hi, ← hm, ← hg, ← ha, ← hn, ← ht]

/-- What both states undergo alike, where it asks nothing of the stores. -/
theorem SameButStores.map {f : State → State}
    (hf : ∀ w n, SameButStores (f s) (f { s with work := w, freeIx := n })) :
    SameButStores (f s) (f t) := by
  rw [h.eq]
  exact hf _ _

theorem SameButStores.mem : t.mem = s.mem := by
  obtain ⟨-, -, -, -, hm, -⟩ := h
  exact hm

theorem SameButStores.cfg : t.cfg = s.cfg := by
  obtain ⟨-, -, -, -, -, hc, -⟩ := h
  exact hc

theorem SameButStores.answer : t.answer = s.answer := by rw [h.eq]; rfl

theorem SameButStores.phase : t.phase = s.phase := h.1

theorem SameButStores.busy : t.busy = s.busy := by rw [State.busy, State.busy, h.phase]

theorem SameButStores.inputs : t.inputs = s.inputs := by rw [h.eq]

theorem SameButStores.setWork (w v : Work) : SameButStores (s.setWork w) (t.setWork v) := h

theorem SameButStores.answered : SameButStores s.answered t.answered :=
  h.map fun _ _ => ⟨rfl, rfl, rfl, rfl, rfl, rfl, rfl, rfl, rfl⟩

theorem SameButStores.log (x : Txn) : SameButStores (s.log x) (t.log x) :=
  h.map (f := fun u => u.log x) fun _ _ => ⟨rfl, rfl, rfl, rfl, rfl, rfl, rfl, rfl, rfl⟩

theorem SameButStores.setSrc (x : Source) : SameButStores (s.setSrc x) (t.setSrc x) :=
  h.map (f := fun u => u.setSrc x) fun _ _ => ⟨rfl, rfl, rfl, rfl, rfl, rfl, rfl, rfl, rfl⟩

theorem SameButStores.setSnk (x : Sink) : SameButStores (s.setSnk x) (t.setSnk x) :=
  h.map (f := fun u => u.setSnk x) fun _ _ => ⟨rfl, rfl, rfl, rfl, rfl, rfl, rfl, rfl, rfl⟩

theorem SameButStores.setPhase (p : BitVec 4) : SameButStores (s.setPhase p) (t.setPhase p) :=
  h.map (f := fun u => u.setPhase p) fun _ _ => ⟨rfl, rfl, rfl, rfl, rfl, rfl, rfl, rfl, rfl⟩

theorem SameButStores.setInputs (l : List HostEvent) : SameButStores (s.setInputs l) (t.setInputs l) :=
  h.map (f := fun u => u.setInputs l) fun _ _ => ⟨rfl, rfl, rfl, rfl, rfl, rfl, rfl, rfl, rfl⟩

theorem SameButStores.setCause (k : BitVec 3) (c : BitVec 4) (v : Word) :
    SameButStores (s.setCause k c v) (t.setCause k c v) :=
  h.map (f := fun u => u.setCause k c v) fun _ _ => ⟨rfl, rfl, rfl, rfl, rfl, rfl, rfl, rfl, rfl⟩

theorem SameButStores.enterFault (r : Raise) : SameButStores (s.enterFault r) (t.enterFault r) :=
  h.map (f := fun u => u.enterFault r) fun _ _ => ⟨rfl, rfl, rfl, rfl, rfl, rfl, rfl, rfl, rfl⟩

theorem SameButStores.writeBeyondCode : SameButStores s.writeBeyondCode t.writeBeyondCode :=
  h.map fun _ _ => ⟨rfl, rfl, rfl, rfl, rfl, rfl, rfl, rfl, rfl⟩

theorem SameButStores.complete : SameButStores s.complete t.complete :=
  h.map fun _ _ => ⟨rfl, rfl, rfl, rfl, rfl, rfl, rfl, rfl, rfl⟩

theorem SameButStores.hardReset : SameButStores s.hardReset t.hardReset :=
  h.map fun _ _ => ⟨rfl, rfl, rfl, rfl, rfl, rfl, rfl, rfl, rfl⟩

end

end Sys2Proof.Safety

namespace Sys2Proof.Machine

open Safety

/-- How two runs of a part of an operation end: alike but for the stores, which stand in the relation `P`. -/
inductive Res.Alike {α : Type} (P : Work → Work → Prop) : Res α → Res α → Prop
  | ok (a : α) {s t : State} : SameButStores s t → P s.work t.work → Alike P (.ok a s) (.ok a t)
  | raise (r : Raise) {s t : State} : SameButStores s t → Alike P (.raise r s) (.raise r t)
  | cut {s t : State} : SameButStores s t → Alike P (.cut s) (.cut t)
  | stop (e : Fault) : Alike P (.stop e) (.stop e)
  | refuse (r : Refusal) : Alike P (.refuse r) (.refuse r)

theorem Res.Alike.bind {α β : Type} {P Q : Work → Work → Prop} {x y : Res α} {f : α → State → Res β} (h : x.Alike P y)
    (hf : ∀ a s t, SameButStores s t → P s.work t.work → (f a s).Alike Q (f a t)) :
    (x.bind f).Alike Q (y.bind f) := by
  cases h with
  | ok a hs hP => exact hf a _ _ hs hP
  | raise r hs => exact .raise r hs
  | cut hs => exact .cut hs
  | stop e => exact .stop e
  | refuse r => exact .refuse r

/-! ## The parts of operations -/

section
variable {s t : State} {P : Work → Work → Prop} (h : SameButStores s t) (hP : P s.work t.work)
include h

/-- R72, R81: a transaction. -/
theorem transact_alike {α : Type} {x : Txn} {sub : BitVec 4} {go : State → Res α}
    (hgo : (go s.answered).Alike P (go t.answered)) : (transact x sub go s).Alike P (transact x sub go t) := by
  unfold transact
  rw [h.mem, h.answer]
  split
  · exact .refuse _
  · split
    · exact hgo
    · exact .raise _ (h.answered.log x)
    · exact .stop _
    · exact .cut h.answered

include hP

theorem srcRead_alike (n : Nat) : (srcRead n s).Alike P (srcRead n t) := by
  refine transact_alike h ?_
  simp only [State.answered_mem, h.mem]
  by_cases hn : s.mem.src.bits.length - s.mem.src.pos < n
  · simp only [hn, if_true]
    exact .ok _ (h.answered.log _) hP
  · simp only [hn, if_false]
    exact .ok _ ((h.answered.setSrc _).log _) hP

theorem srcReset_alike : (srcReset s).Alike P (srcReset t) := by
  refine transact_alike h ?_
  simp only [State.answered_mem, h.mem]
  exact .ok _ ((h.answered.setSrc _).log _) hP

theorem snkWrite_alike (n v : Nat) : (snkWrite n v s).Alike P (snkWrite n v t) := by
  refine transact_alike h ?_
  simp only [State.answered_mem, h.mem]
  by_cases hc : s.mem.snk.closed = true
  · simp only [hc, if_true]
    exact .refuse _
  · simp only [hc]
    exact .ok _ ((h.answered.setSnk _).log _) hP

theorem snkClose_alike : (snkClose s).Alike P (snkClose t) := by
  refine transact_alike h ?_
  simp only [State.answered_mem, h.mem]
  exact .ok _ ((h.answered.setSnk _).log _) hP

theorem writeLeaf_alike (x : Sym) : (writeLeaf x s).Alike P (writeLeaf x t) :=
  (snkWrite_alike h hP 1 1).bind fun _ _ _ h1 hP1 => snkWrite_alike h1 hP1 9 x.toNat

theorem putCode_alike (bits : List Bool) : (putCode bits s).Alike P (putCode bits t) := by
  induction bits generalizing s t with
  | nil => exact .ok _ h hP
  | cons b bits ih => exact (snkWrite_alike h hP 1 b.toNat).bind fun _ _ _ h1 hP1 => ih h1 hP1

theorem readSym_alike : (readSym s).Alike P (readSym t) :=
  (srcRead_alike h hP 9).bind fun r _ _ h1 hP1 => by
    cases r with
    | none => exact .raise _ h1
    | some v => exact .ok _ h1 hP1

/-- R221: CHKMAGIC compares with the parameter. -/
theorem checkMagic_alike : (checkMagic s).Alike P (checkMagic t) :=
  (srcRead_alike h hP 32).bind fun m _ _ h1 hP1 => by
    cases m with
    | none => exact .raise _ h1
    | some v =>
      simp only [h1.cfg]
      split
      · exact .ok _ h1 hP1
      · exact .raise _ h1

end

/-- R140: what COUNT reads of the stores. -/
def SameCounts (w v : Work) : Prop := w.freq = v.freq ∧ w.nbytes = v.nbytes

theorem countLoop_alike {s t : State} (h : SameButStores s t) (hc : SameCounts s.work t.work) (n : Nat) :
    (countLoop n s).Alike SameCounts (countLoop n t) := by
  induction n generalizing s t with
  | zero => exact (srcRead_alike h hc 8).bind fun _ _ _ h1 hc1 => .ok _ h1 hc1
  | succ n ih =>
    refine (srcRead_alike h hc 8).bind fun r u v h1 hc1 => ?_
    obtain ⟨hfreq, hbytes⟩ := hc1
    cases r with
    | none => exact .ok _ h1 ⟨hfreq, hbytes⟩
    | some x =>
      simp only [h1.cfg, hbytes]
      split
      · exact .raise _ h1
      · exact ih h1 ⟨by simp [hfreq], by simp [hbytes]⟩

/-- R200, R201: what ENCODE reads of the stores: which codes there are, the bits of those, and the terminator. -/
structure SameCodes (w v : Work) : Prop where
  valid (i : Fin 257) : v.code[i].valid = w.code[i].valid
  bits (i : Fin 257) : w.code[i].valid = true → v.code[i].bits = w.code[i].bits
  eos : w.code[eosIndex].valid = true

theorem putByte_alike {s t : State} (h : SameButStores s t) (hc : SameCodes s.work t.work) (b : Byte) :
    (putByte b s).Alike SameCodes (putByte b t) := by
  unfold putByte
  rw [hc.valid]
  split
  · next hv =>
    rw [hc.bits _ hv]
    exact putCode_alike h hc _
  · exact .raise _ h

theorem putEos_alike {s t : State} (h : SameButStores s t) (hc : SameCodes s.work t.work) :
    (putEos s).Alike SameCodes (putEos t) := by
  unfold putEos
  rw [hc.bits _ hc.eos]
  exact putCode_alike h hc _

theorem encodeLoop_alike {s t : State} (h : SameButStores s t) (hc : SameCodes s.work t.work) (n : Nat) :
    (encodeLoop n s).Alike SameCodes (encodeLoop n t) := by
  induction n generalizing s t with
  | zero => exact (srcRead_alike h hc 8).bind fun _ _ _ h1 hc1 => .ok _ h1 hc1
  | succ n ih =>
    refine (srcRead_alike h hc 8).bind fun r _ _ h1 hc1 => ?_
    cases r with
    | none => exact .ok _ h1 hc1
    | some x => exact (putByte_alike h1 hc1 (literal x)).bind fun _ _ _ h2 hc2 => ih h2 hc2

/-- R33: what the walk of WRHDR puts on STK is no code. -/
theorem emitTree_alike (r : Tree) {s t : State} (h : SameButStores s t) (hc : SameCodes s.work t.work) :
    (emitTree r s).Alike SameCodes (emitTree r t) := by
  induction r generalizing s t with
  | leaf x w => exact writeLeaf_alike h hc x
  | internal w l r ihl ihr =>
    refine (snkWrite_alike h hc 1 0).bind fun _ _ _ h1 hc1 => ?_
    refine Res.Alike.bind (ihl (h1.setWork _ _) ⟨hc1.valid, hc1.bits, hc1.eos⟩) fun _ _ _ h2 hc2 => ?_
    refine Res.Alike.bind (ihr (h2.setWork _ _) ⟨hc2.valid, hc2.bits, hc2.eos⟩) fun _ _ _ h3 hc3 => ?_
    exact .ok _ (h3.setWork _ _) ⟨hc3.valid, hc3.bits, hc3.eos⟩

/-- R181: what RDHDR reads of the stores. -/
def SameNodes (w v : Work) : Prop := w.nnodes = v.nnodes

theorem readFlag_alike {s t : State} (h : SameButStores s t) (hn : SameNodes s.work t.work) :
    (readFlag s).Alike SameNodes (readFlag t) :=
  (srcRead_alike h hn 1).bind fun r _ _ h1 hn1 => by
    cases r with
    | none => exact .raise _ h1
    | some v =>
      simp only [h1.cfg, show _ = _ from hn1]
      split
      · exact .raise _ h1
      · exact .ok _ h1 rfl

theorem parseTree_alike {s t : State} (h : SameButStores s t) (hn : SameNodes s.work t.work) (n : Nat) :
    (parseTree n s).Alike SameNodes (parseTree n t) := by
  induction n generalizing s t with
  | zero => exact (readFlag_alike h hn).bind fun _ _ _ h1 _ => .raise _ h1
  | succ n ih =>
    refine (readFlag_alike h hn).bind fun leaf _ _ h1 hn1 => ?_
    split
    · exact (readSym_alike h1 hn1).bind fun _ _ _ h2 hn2 => .ok _ h2 hn2
    · refine Res.Alike.bind (ih (h1.setWork _ _) hn1) fun _ _ _ h2 hn2 => ?_
      refine Res.Alike.bind (ih (h2.setWork _ _) hn2) fun _ _ _ h3 hn3 => ?_
      exact .ok _ (h3.setWork _ _) hn3

/-- R202: what DECODE's loop reads of the stores. -/
def SameCursor (w v : Work) : Prop := w.cur = v.cur

theorem decodeBit_alike {s t : State} (h : SameButStores s t) (hc : SameCursor s.work t.work) (root : Tree) :
    (decodeBit root s).Alike SameCursor (decodeBit root t) :=
  (srcRead_alike h hc 1).bind fun r _ _ h1 hc1 => by
    cases r with
    | none => exact .raise _ h1
    | some v =>
      simp only [show _ = _ from hc1]
      exact .ok _ h1 rfl

theorem putLiteral_alike {s t : State} (h : SameButStores s t) (hc : SameCursor s.work t.work) (root : Tree) (x : Sym) :
    (putLiteral root x s).Alike SameCursor (putLiteral root x t) :=
  (snkWrite_alike h hc 8 x.toNat).bind fun _ _ _ h1 _ => .ok _ h1 rfl

theorem decodeLoop_alike {s t : State} (h : SameButStores s t) (hc : SameCursor s.work t.work) (root : Tree) (n : Nat) :
    (decodeLoop root n s).Alike SameCursor (decodeLoop root n t) := by
  induction n generalizing s t with
  | zero => exact (decodeBit_alike h hc root).bind fun _ _ _ h1 _ => .raise _ h1
  | succ n ih =>
    refine (decodeBit_alike h hc root).bind fun o _ _ h1 hc1 => ?_
    cases o with
    | inside => exact ih h1 hc1
    | eos => exact .ok _ h1 hc1
    | symbol x => exact (putLiteral_alike h1 hc1 root x).bind fun _ _ _ h2 hc2 => ih h2 hc2

end Sys2Proof.Machine
end

section
/-! SUPPORT. Two runs from states that rest and differ only in the stores (R44, R230): before each operation the stores agree on
what it and its successors read. -/

namespace Sys2Proof.Machine

open Safety

/-- R44: where the block is to run the operation of phase `p`, the two stores agree on what that operation and those after it
read before they write it. -/
structure StoresAgree (p : BitVec 4) (w v : Work) : Prop where
  counts : p = Phase.build → v.freq = w.freq ∧ w.freq[eosIndex] = 1
  tree : p = Phase.gencodes ∨ p = Phase.wrmagic ∨ p = Phase.wrhdr ∨ p = Phase.decode → v.tree = w.tree
  eos : p = Phase.gencodes → ∃ r, w.tree = some r ∧ Config.eos ∈ r.syms
  codes : p = Phase.wrmagic ∨ p = Phase.wrhdr ∨ p = Phase.rewind ∨ p = Phase.encode → SameCodes w v

/-- The phases whose operations, and those after, read nothing of the stores that they did not write. -/
def readsNoStore (p : BitVec 4) : Bool :=
  restingPhase p || p == Phase.count || p == Phase.close || p == Phase.chkmagic || p == Phase.rdhdr

theorem storesAgree_of_readsNoStore {p : BitVec 4} (h : readsNoStore p = true) (w v : Work) : StoresAgree p w v := by
  have hne {q : BitVec 4} (hq : readsNoStore q = false) : p ≠ q := fun he => by simp [he, hq] at h
  exact {
    counts := fun he => absurd he (hne rfl)
    tree := fun he => by
      obtain he | he | he | he := he
      all_goals exact absurd he (hne rfl)
    eos := fun he => absurd he (hne rfl)
    codes := fun he => by
      obtain he | he | he | he := he
      all_goals exact absurd he (hne rfl) }

/-- Two outcomes that go on alike. -/
inductive Agree : Host.Outcome State Fault Refusal → Host.Outcome State Fault Refusal → Prop
  | next {s t : State} : SameButStores s t → StoresAgree s.phase s.work t.work → Agree (.next s) (.next t)
  | fault (e : Fault) : Agree (.fault e) (.fault e)
  | refused (r : Refusal) : Agree (.refused r) (.refused r)

/-- A next state in which the block is about to read nothing of the stores. -/
theorem agree_next {s t : State} (h : SameButStores s t) (hp : readsNoStore s.phase = true) : Agree (.next s) (.next t) :=
  .next h (storesAgree_of_readsNoStore hp _ _)

/-- An operation that completes with the change `g`; a fault or a reset leaves a block that rests. -/
theorem Res.Alike.outcome {P : Work → Work → Prop} {x y : Res Unit} {g : State → State} (h : x.Alike P y)
    (hg : ∀ s t, SameButStores s t → P s.work t.work → Agree (.next (g s)) (.next (g t))) :
    Agree (x.bind fun _ u => .ok () (g u)).outcome (y.bind fun _ u => .ok () (g u)).outcome := by
  cases h with
  | ok a hs hP => exact hg _ _ hs hP
  | raise r hs => exact agree_next (hs.enterFault r) rfl
  | cut hs => exact agree_next hs.hardReset rfl
  | stop e => exact .fault e
  | refuse r => exact .refused r

/-- An operation that hands over leaves stores that agree for its successor. -/
theorem Res.Alike.thenPhase {P : Work → Work → Prop} {x y : Res Unit} {p : BitVec 4} (h : x.Alike P y)
    (hp : ∀ w v, P w v → StoresAgree p w v) : Agree (x.thenPhase p) (y.thenPhase p) :=
  h.outcome fun _ _ hs hP => .next (hs.setPhase p) (hp _ _ hP)

/-- What BUILD finds of the stores. -/
theorem storesAgree_of_counts {w v : Work} (h : v.freq = w.freq ∧ w.freq[eosIndex] = 1) : StoresAgree Phase.build w v where
  counts _ := h
  tree he := absurd he (by decide)
  eos he := absurd he (by decide)
  codes he := absurd he (by decide)

/-- What GENCODES finds. -/
theorem storesAgree_of_built {w v : Work} {r : Tree} (hw : w.tree = some r) (hv : v.tree = some r)
    (heos : Config.eos ∈ r.syms) : StoresAgree Phase.gencodes w v where
  counts he := absurd he (by decide)
  tree _ := hv.trans hw.symm
  eos _ := ⟨r, hw, heos⟩
  codes he := absurd he (by decide)

/-- What DECODE finds. -/
theorem storesAgree_of_parsed {w v : Work} (h : v.tree = w.tree) : StoresAgree Phase.decode w v where
  counts he := absurd he (by decide)
  tree _ := h
  eos he := absurd he (by decide)
  codes he := absurd he (by decide)

/-- What the operations after GENCODES find of the stores: the codes, and before WRHDR the tree. -/
theorem storesAgree_of_codes {p : BitVec 4}
    (hp : p = Phase.wrmagic ∨ p = Phase.wrhdr ∨ p = Phase.rewind ∨ p = Phase.encode) {w v : Work}
    (hc : SameCodes w v) (ht : p = Phase.wrmagic ∨ p = Phase.wrhdr → v.tree = w.tree) : StoresAgree p w v := by
  obtain rfl | rfl | rfl | rfl := hp
  all_goals exact {
    counts := fun he => absurd he (by decide)
    tree := fun he => ht (by revert he; decide)
    eos := fun he => absurd he (by decide)
    codes := fun _ => hc }

/-- R170, R171: the codes GENCODES records are those of the tree. -/
theorem sameCodes_walkCodes {r : Tree} (he : Config.eos ∈ r.syms) (w v : Work) :
    SameCodes (walkCodes r w.clearCodes) (walkCodes r v.clearCodes) where
  valid i := by
    rw [walkCodes_code, walkCodes_code]
    cases r.lastPath (BitVec.ofNat 9 i.val) <;> simp
  bits i := by
    rw [walkCodes_code, walkCodes_code]
    cases r.lastPath (BitVec.ofNat 9 i.val) <;> simp
  eos := by
    rw [walkCodes_code]
    cases hp : r.lastPath (BitVec.ofNat 9 eosIndex.val) with
    | none => exact absurd he (Tree.lastPath_eq_none.1 hp)
    | some p => rfl

theorem walkCodes_tree (r : Tree) (w : Work) : (walkCodes r w).tree = w.tree := by rw [walkCodes_eq]

/-! ## The operations -/

section
variable {s t : State} (h : SameButStores s t)
include h

/-- R140: COUNT clears the counters first. -/
theorem execCount_agree : Agree (execCount s) (execCount t) := by
  unfold execCount
  rw [h.mem]
  refine Res.Alike.thenPhase (P := fun w v => v.freq = w.freq ∧ w.freq[eosIndex] = 1) ?_
    fun _ _ => storesAgree_of_counts
  refine Res.Alike.bind (countLoop_alike (h.setWork s.work.clearCounts t.work.clearCounts) ⟨rfl, rfl⟩ _)
    fun _ _ _ h1 hc => ?_
  exact .ok _ (h1.setWork _ _) ⟨by simp [hc.1], by simp⟩

/-- R152, R157: BUILD makes the one tree of the counters. -/
theorem execBuild_agree (hf : t.work.freq = s.work.freq) (he : s.work.freq[eosIndex] = 1) :
    Agree (execBuild s) (execBuild t) := by
  obtain ⟨r, hrun, hperm, -, hgreedy⟩ := execBuild_ok (present_of_eos he)
  obtain ⟨r', hrun', -, -, hgreedy'⟩ := execBuild_ok (s := t) (present_of_eos (by rw [hf]; exact he))
  rw [hf] at hgreedy'
  obtain rfl := greedy_unique_of_leaves hgreedy hgreedy'
  rw [hrun, hrun']
  exact .next ((h.setWork _ _).setPhase _)
    (storesAgree_of_built rfl rfl (mem_syms_of_perm hperm (i := eosIndex) (by omega)))

/-- R170: GENCODES marks all codes invalid first. -/
theorem execGencodes_agree (ht : t.work.tree = s.work.tree) {r : Tree} (hr : s.work.tree = some r)
    (he : Config.eos ∈ r.syms) : Agree (execGencodes s) (execGencodes t) := by
  have hstores : StoresAgree Phase.wrmagic (walkCodes r s.work.clearCodes) (walkCodes r t.work.clearCodes) :=
    storesAgree_of_codes (.inl rfl) (sameCodes_walkCodes he _ _) fun _ => by
      rw [walkCodes_tree, walkCodes_tree]
      exact ht
  unfold execGencodes
  rw [ht, hr]
  cases hs : r.symsInTable with
  | true =>
    simp only [hs, if_true]
    exact .next ((h.setWork _ _).setPhase _) hstores
  | false =>
    simp only [hs, Bool.false_eq_true, if_false]
    exact .next ((h.setWork _ _).writeBeyondCode.setPhase _)
      ⟨hstores.counts, hstores.tree, hstores.eos, fun hp =>
        have hc := hstores.codes hp
        ⟨hc.valid, hc.bits, hc.eos⟩⟩

/-- R220 -/
theorem execWrmagic_agree (ht : t.work.tree = s.work.tree) (hc : SameCodes s.work t.work) :
    Agree (execWrmagic s) (execWrmagic t) := by
  unfold execWrmagic writeMagic
  rw [h.cfg]
  exact (snkWrite_alike (P := fun w v => v.tree = w.tree ∧ SameCodes w v) h ⟨ht, hc⟩ _ _).thenPhase
    fun _ _ hwv => storesAgree_of_codes (.inr (.inl rfl)) hwv.2 fun _ => hwv.1

/-- R180 -/
theorem execWrhdr_agree (ht : t.work.tree = s.work.tree) (hc : SameCodes s.work t.work) :
    Agree (execWrhdr s) (execWrhdr t) := by
  unfold execWrhdr
  rw [ht]
  cases s.work.tree with
  | none => exact .refused _
  | some r =>
    exact (emitTree_alike r h hc).thenPhase fun _ _ hc1 =>
      storesAgree_of_codes (.inr (.inr (.inl rfl))) hc1 fun he => absurd he (by decide)

/-- R222 -/
theorem execRewind_agree (hc : SameCodes s.work t.work) : Agree (execRewind s) (execRewind t) :=
  (srcReset_alike h hc).thenPhase fun _ _ hc1 =>
    storesAgree_of_codes (.inr (.inr (.inr rfl))) hc1 fun he => absurd he (by decide)

/-- R200 -/
theorem execEncode_agree (hc : SameCodes s.work t.work) : Agree (execEncode s) (execEncode t) := by
  unfold execEncode
  rw [h.mem]
  exact (Res.Alike.bind (encodeLoop_alike h hc _) fun _ _ _ h1 hc1 => putEos_alike h1 hc1).thenPhase
    fun w v _ => storesAgree_of_readsNoStore rfl w v

/-- R223 -/
theorem execClose_agree : Agree (execClose s) (execClose t) := by
  exact (snkClose_alike (P := fun _ _ => True) h trivial).outcome fun _ _ hs _ => agree_next hs.complete rfl

/-- R221 -/
theorem execChkmagic_agree : Agree (execChkmagic s) (execChkmagic t) :=
  (checkMagic_alike (P := fun _ _ => True) h trivial).thenPhase fun w v _ => storesAgree_of_readsNoStore rfl w v

/-- R181: RDHDR clears NNODES and TREE first. -/
theorem execRdhdr_agree : Agree (execRdhdr s) (execRdhdr t) := by
  unfold execRdhdr
  rw [h.mem]
  refine Res.Alike.thenPhase (P := fun w v => v.tree = w.tree) ?_ fun _ _ => storesAgree_of_parsed
  refine Res.Alike.bind (parseTree_alike (h.setWork s.work.clearTree t.work.clearTree) rfl _) fun _ _ _ h1 _ => ?_
  exact .ok _ (h1.setWork _ _) rfl

/-- R202: DECODE puts CUR at the root first. -/
theorem execDecode_agree (ht : t.work.tree = s.work.tree) : Agree (execDecode s) (execDecode t) := by
  unfold execDecode
  rw [ht, h.mem]
  cases s.work.tree with
  | none => exact .refused _
  | some r =>
    cases r with
    | leaf x w =>
      by_cases hx : x = Config.eos
      · simp only [hx, if_true]
        exact agree_next (h.setPhase _) rfl
      · simp only [hx, if_false]
        exact agree_next (h.enterFault _) rfl
    | internal w l r =>
      exact (decodeLoop_alike (h.setWork { s.work with cur := _ } { t.work with cur := _ }) rfl _ _).thenPhase
        fun w v _ => storesAgree_of_readsNoStore rfl w v

end

/-- R31: the operation PHASE names. -/
theorem exec_agree {s t : State} (h : SameButStores s t) (ha : StoresAgree s.phase s.work t.work) :
    Agree (exec (decodePhase s.phase) s) (exec (decodePhase t.phase) t) := by
  rw [h.phase]
  cases hb : s.busy with
  | false =>
    rw [exec_resting hb, ← h.phase, exec_resting (h.busy.trans hb)]
    exact .next h ha
  | true =>
    rcases busy_cases hb with hp | hp | hp | hp | hp | hp | hp | hp | hp | hp | hp | hp | hp <;> rw [hp] at ha ⊢
    · exact execCount_agree h
    · obtain ⟨hf, he⟩ := ha.counts rfl
      exact execBuild_agree h hf he
    · obtain ⟨r, hr, he⟩ := ha.eos rfl
      exact execGencodes_agree h (ha.tree (.inl rfl)) hr he
    · exact execWrmagic_agree h (ha.tree (.inr (.inl rfl))) (ha.codes (.inl rfl))
    · exact execWrhdr_agree h (ha.tree (.inr (.inr (.inl rfl)))) (ha.codes (.inr (.inl rfl)))
    · exact execRewind_agree h (ha.codes (.inr (.inr (.inl rfl))))
    · exact execEncode_agree h (ha.codes (.inr (.inr (.inr rfl))))
    · exact execClose_agree h
    · exact execChkmagic_agree h
    · exact execRdhdr_agree h
    · exact execDecode_agree h (ha.tree (.inr (.inr (.inr rfl))))
    · exact .refused _
    · exact .refused _

/-! ## The actions of the host -/

/-- R226: a command starts at an operation that reads nothing of the stores. -/
theorem acceptCommand_agree {s t : State} (h : SameButStores s t) (ha : StoresAgree s.phase s.work t.work) {p : BitVec 4}
    (hp : readsNoStore p = true) : Agree (acceptCommand p s) (acceptCommand p t) := by
  unfold acceptCommand
  rw [h.busy, h.mem]
  split
  · exact .next h ha
  · split
    · exact .refused _
    · split
      · exact .refused _
      · exact agree_next ((h.setCause _ _ _).setPhase p) hp

theorem command_agree {s t : State} (h : SameButStores s t) (ha : StoresAgree s.phase s.work t.work) (v : Word) :
    Agree (exec (decodeCmd v) s) (exec (decodeCmd v) t) := by
  obtain hv | hv | hv | hv := decodeCmd_cases v <;> rw [hv]
  · exact .next h ha
  · exact acceptCommand_agree h ha rfl
  · exact acceptCommand_agree h ha rfl
  · exact .next h ha

theorem attachSnk_agree {s t : State} (h : SameButStores s t) (ha : StoresAgree s.phase s.work t.work) (shared : Bool) :
    Agree (attachSnk shared s) (attachSnk shared t) := by
  unfold attachSnk
  rw [h.busy]
  split
  · exact .refused _
  · rw [h.eq]
    exact .next ⟨rfl, rfl, rfl, rfl, rfl, rfl, rfl, rfl, rfl⟩ ha

/-- A step, whatever the host does. -/
theorem step_agree {s t : State} (h : SameButStores s t) (ha : StoresAgree s.phase s.work t.work) :
    Agree (step s) (step t) := by
  cases hi : s.inputs with
  | nil =>
    rw [step_silent hi, step_silent (h.inputs.trans hi)]
    exact exec_agree h ha
  | cons e rest =>
    have ht := h.inputs.trans hi
    have h' := h.setInputs rest
    cases e with
    | tick =>
      rw [step_tick hi, step_tick ht]
      exact exec_agree h' ha
    | write n v =>
      rw [step, step, fetch, fetch, hi, ht]
      simp only [hostWrite]
      cases Reg.ofOffset n with
      | none => exact .refused _
      | some g =>
        cases g with
        | cmd => exact command_agree h' ha v
        | status | cause | info | magicReg | reserved => exact .next h' ha
    | reset =>
      rw [step_reset hi, step_reset ht]
      exact agree_next h'.hardReset rfl
    | attachSrc before after =>
      rw [step_attachSrc hi, step_attachSrc ht, h.eq]
      exact .next ⟨rfl, rfl, rfl, rfl, rfl, rfl, rfl, rfl, rfl⟩ ha
    | attachSnk shared =>
      rw [step_attachSnk hi, step_attachSnk ht]
      exact attachSnk_agree h' ha shared

/-- A run ends where a step is stuck. -/
theorem run_fault {M : Host.Core} {s : M.State} {e : M.Fault} (h : M.step s = .fault e) (k : Nat) :
    M.run (k + 1) s = .fault e := by
  rw [Host.Core.run, h]

/-- R44, R230: any number of steps. -/
theorem run_agree (k : Nat) {s t : State} (h : SameButStores s t) (ha : StoresAgree s.phase s.work t.work) :
    Agree (core.run k s) (core.run k t) := by
  induction k generalizing s t with
  | zero => exact .next h ha
  | succ k ih =>
    have hstep := step_agree h ha
    generalize hs : step s = x at hstep
    generalize ht : step t = y at hstep
    cases hstep with
    | next hst has =>
      rw [run_of_step (M := core) hs rfl, run_of_step (M := core) ht rfl]
      exact ih hst has
    | fault e =>
      rw [run_fault (M := core) hs k, run_fault (M := core) ht k]
      exact .fault e
    | refused r =>
      rw [run_refused (M := core) hs k, run_refused (M := core) ht k]
      exact .refused r

theorem Agree.sameOutcome {x y : Host.Outcome State Fault Refusal} (h : Agree x y) : SameOutcome x y := by
  cases h with
  | next hs => exact hs
  | fault => rfl
  | refused => rfl

end Sys2Proof.Machine

namespace Sys2Proof

open Machine Safety

/-- Settles O60: while the block rests nothing is asked of the stores, and every step keeps them agreeing (run_agree). -/
theorem storesDoNotMatter : Obligations.StoresDoNotMatter := by
  unfold Obligations.StoresDoNotMatter
  intro s t k hb h
  refine (run_agree k h (storesAgree_of_readsNoStore ?_ _ _)).sameOutcome
  simp [readsNoStore, busy_eq_false.1 hb]

end Sys2Proof
end

section
/-! SUPPORT. One port transaction by the next answer alone, and how the answers end an instruction (R61 to R65, R81, R82,
R244, R270). -/

namespace Sys2Proof.Machine

open Safety

/-! ## One transaction -/

/-- R76: answered normally a transaction has its normal effect, whatever the answers after it. -/
theorem transact_normal {α : Type} {s : State} (h : NextAnswer s .ok) (x : Txn) (sub : BitVec 4) (go : State → Res α) :
    transact x sub go s = go s.answered := by
  obtain ⟨htwo, ha⟩ := h
  simp [transact, htwo, ha]

/-- R82: a transaction that never completes. -/
theorem transact_hung {α : Type} {s : State} (h : NextAnswer s .never) (x : Txn) (sub : BitVec 4) (go : State → Res α) :
    transact x sub go s = .stop .portNeverAnswers := by
  obtain ⟨htwo, ha⟩ := h
  simp [transact, htwo, ha]

/-- What one transaction leaves that moves the source to `pos`, puts `out` on the sink and is recorded as `x`. -/
theorem State.ran_one (s : State) (pos : Nat) (out : List Bool) (x : Txn) :
    s.ran s.work pos out [x] =
      ((s.answered.setSrc { s.mem.src with pos := pos }).setSnk
        { s.mem.snk with bits := s.mem.snk.bits ++ out }).log x := by
  simp [State.ran, State.answered, State.setSrc, State.setSnk, State.log]

section
variable {s : State} (h : NextAnswer s .ok)
include h

/-- R71: fewer than `n` bits are left. -/
theorem srcRead_next_eod {n : Nat} (hn : s.mem.src.bits.length - s.mem.src.pos < n) :
    srcRead n s = .ok none (s.ran s.work s.mem.src.pos [] [.srcRead n .eod]) := by
  rw [srcRead, transact_normal h, if_pos (by simpa using hn), State.ran_one, List.append_nil]
  rfl

/-- R61: the next `n` bits. -/
theorem srcRead_next_value {n : Nat} {bits post : List Bool} (hr : s.mem.src.rest = bits ++ post) (hn : bits.length = n) :
    srcRead n s =
      .ok (some (valOf bits)) (s.ran s.work (s.mem.src.pos + n) [] [.srcRead n (.value (valOf bits))]) := by
  have hlen : s.mem.src.bits.length - s.mem.src.pos = bits.length + post.length := by
    simpa [Source.rest] using congrArg List.length hr
  have htake : s.mem.src.rest.take n = bits := by rw [hr, ← hn, List.take_left]
  rw [srcRead, transact_normal h, if_neg (by simp only [State.answered_mem]; omega), State.ran_one, List.append_nil]
  simp only [State.answered_mem, htake]
  rfl

/-- R63 -/
theorem srcReset_next : srcReset s = .ok () (s.ran s.work 0 [] [.srcReset true]) := by
  rw [srcReset, transact_normal h, State.ran_one, List.append_nil]
  rfl

/-- R64 -/
theorem snkWrite_next (ho : s.mem.snk.closed = false) (n v : Nat) :
    snkWrite n v s = .ok () (s.ran s.work s.mem.src.pos (bitsOf n v) [.snkWrite n v true]) := by
  rw [snkWrite, transact_normal h, if_neg (by simp [ho]), State.ran_one]
  rfl

/-- R65 -/
theorem snkClose_next : snkClose s = .ok () s.sealed := by
  rw [snkClose, transact_normal h]
  rfl

end

/-! ## How the answers end an instruction -/

/-- R81, R244, R270: an instruction begun in `s` used normal answers alone, or ended at an `io_fail` with the fault of the
transaction that failed, or at a reset. -/
inductive EndsBy (s : State) : State → Prop where
  | normal (t : State) : UsedOk s t → EndsBy s t
  | failed (u : State) (r : Raise) : UsedLast .ioFail s u → FailedAt r u → EndsBy s (u.enterFault r)
  | cut (u : State) : UsedLast .reset s u → EndsBy s u.hardReset

/-- R69: an instruction that reaches no port leaves the streams, the answers and the trace. -/
theorem noPort_untouched {i : Instr} {s t : State} (hn : usesNoPort i = true) (h : exec i s = .next t) :
    Untouched s t := by
  obtain rfl | ⟨p, -, rfl⟩ | ⟨w, -, rfl⟩ | ⟨w, p, n, -, rfl⟩ := exec_noPort i s t hn h
  · exact .refl
  all_goals exact ⟨rfl, rfl, rfl⟩

/-- R65: how the instructions that close the sink end. -/
theorem endsBy_closing {i : Instr} {s t : State} (hi : i = .close ∨ i = .snkClose ∨ i = .wirePadding)
    (h : exec i s = .next t) : EndsBy s t := by
  obtain ⟨-, -, hsame⟩ | ⟨g, hg, hclose⟩ := exec_closing i s hi
  · cases hsame.symm.trans h
    exact .normal _ .refl
  · obtain ⟨-, hc⟩ | ⟨ha, hc⟩ | ⟨ha, hc⟩ | ⟨-, hc⟩ | ⟨ha, hc⟩ := snkClose_cases s <;>
      obtain ⟨u, hx, rfl⟩ | ⟨r, u, hx, rfl⟩ | ⟨u, hx, rfl⟩ := hg.next h <;> cases hc.symm.trans hx
    · obtain ⟨-, rfl⟩ | ⟨-, rfl⟩ := hclose <;> exact .normal _ (s.answer_ok ha)
    · exact .failed _ _ (s.answer_last ha (by simp)) ⟨rfl, rfl, _, _, rfl, rfl⟩
    · exact .cut _ (s.answer_last ha (by simp))

/-- Every other instruction is a part that keeps what parts keep and then at most a change of PHASE (exec_form), whatever it may
be refused for. -/
theorem exec_meets {i : Instr} (s : State) (hn : ¬ usesNoPort i = true)
    (hc : ¬ (i = .close ∨ i = .snkClose ∨ i = .wirePadding)) :
    ∃ x g, ExecAs i s x g ∧ x.Meets s (fun _ => True) ∧ (g = id ∨ ∃ p, g = fun u => u.setPhase p) := by
  obtain ⟨x, g, hx, hmeets, hg⟩ := exec_form i s (fun _ => True) (by simpa using hn) (by simpa using hc)
    (fun _ => trivial) (fun _ => trivial) (.inr fun _ => trivial)
  exact ⟨x, g, hx, hmeets, hg.imp_right fun ⟨p, _, hp⟩ => ⟨_, hp⟩⟩

/-- Every instruction. -/
theorem endsBy_exec {i : Instr} {s t : State} (h : exec i s = .next t) : EndsBy s t := by
  by_cases hn : usesNoPort i = true
  · obtain ⟨-, -, ha⟩ := noPort_untouched hn h
    exact .normal t ⟨0, ha, by simp⟩
  by_cases hc : i = .close ∨ i = .snkClose ∨ i = .wirePadding
  · exact endsBy_closing hc h
  obtain ⟨x, g, hx, hmeets, hg⟩ := exec_meets s hn hc
  obtain ⟨u, rfl, rfl⟩ | ⟨r, u, rfl, rfl⟩ | ⟨u, rfl, rfl⟩ := hx.next h
  · obtain rfl | ⟨p, rfl⟩ := hg <;> exact .normal _ hmeets.2
  · obtain ⟨-, -, hok | ⟨hlast, hfail⟩⟩ := hmeets
    · exact .normal _ hok
    · exact .failed u r hlast hfail
  · exact .cut u hmeets.2

/-- R102, R104, R151: an instruction that reaches no port stops nowhere. -/
theorem exec_noPort_ne_fault {i : Instr} {s : State} (hn : usesNoPort i = true) (e : Fault) : exec i s ≠ .fault e := by
  have accept (p : BitVec 4) : acceptCommand p s ≠ .fault e := by
    unfold acceptCommand
    split_ifs <;> nofun
  cases i with
  | compress | decompress => exact accept _
  | cmdNop | cmdReserved | idle | done | fault | phaseC | phaseD | pqInsert _ => nofun
  | build =>
    rw [exec, execBuild]
    split <;> nofun
  | gencodes =>
    rw [exec, execGencodes]
    split <;> nofun
  | pqRemoveMin =>
    rw [exec, execPqRemoveMin]
    split <;> nofun
  | _ => cases hn

/-- R82: an instruction that stops the machine has met the answer "never". -/
theorem never_of_fault {i : Instr} {s : State} {e : Fault} (h : exec i s = .fault e) : PortAnswer.never ∈ s.answers := by
  by_cases hn : usesNoPort i = true
  · exact absurd h (exec_noPort_ne_fault hn e)
  by_cases hc : i = .close ∨ i = .snkClose ∨ i = .wirePadding
  · obtain ⟨-, -, hsame⟩ | ⟨g, hg, -⟩ := exec_closing i s hc
    · cases hsame.symm.trans h
    · obtain ⟨-, hx⟩ | ⟨-, hx⟩ | ⟨-, hx⟩ | ⟨ha, hx⟩ | ⟨-, hx⟩ := snkClose_cases s <;>
        cases hx.symm.trans (hg.fault h)
      exact s.answer_never ha
  obtain ⟨x, g, hx, hmeets, -⟩ := exec_meets s hn hc
  rwa [hx.fault h] at hmeets

end Sys2Proof.Machine

namespace Sys2Proof

open Machine Safety

/-- Settles O21, by the three ways the answers let an instruction end (endsBy_exec). -/
theorem abnormalAnswersEndTheInstruction : Obligations.AbnormalAnswersEndTheInstruction := by
  unfold Obligations.AbnormalAnswersEndTheInstruction
  intro i s t h
  cases endsBy_exec h with
  | normal _ hu =>
    obtain ⟨hdrop, hall⟩ := used_of_ok hu
    have hlast {a : PortAnswer} (ha : a ≠ .ok) : (answersUsed s t).getLast? ≠ some a :=
      fun hl => ha (hall a (List.mem_of_getLast? hl))
    exact ⟨hdrop, fun a ha => hall a (List.mem_of_mem_dropLast ha), hlast nofun,
      fun hf => absurd hf (hlast nofun), fun hr => absurd hr (hlast nofun)⟩
  | failed u r hu hf =>
    obtain ⟨hdrop, hall, hlast⟩ := used_of_last hu
    obtain ⟨hkind, hinfo, hx⟩ := hf
    change (answersUsed s (u.enterFault r)).getLast? = _ at hlast
    rw [hlast]
    exact ⟨hdrop, hall, by decide, fun _ => ⟨rfl, hkind, hinfo, hx⟩, nofun⟩
  | cut u hu =>
    obtain ⟨hdrop, hall, hlast⟩ := used_of_last hu
    change (answersUsed s u.hardReset).getLast? = _ at hlast
    rw [hlast]
    exact ⟨hdrop, hall, by decide, nofun, fun _ => ⟨rfl, hardReset_cause u, rfl⟩⟩

/-- Settles O22: a part of an operation stops only at the answer "never", and a transaction that gets it stops. -/
theorem onlyAHungPortStops : Obligations.OnlyAHungPortStops := by
  unfold Obligations.OnlyAHungPortStops
  refine ⟨fun i s e => never_of_fault, fun s n v h hw => ⟨?_, ?_, ?_, ?_⟩⟩
  · simp [exec, execSrcRead, srcRead, transact_hung h]
  · simp [exec, execSrcReset, srcReset, transact_hung h]
  · simp [exec, execSnkWrite, hw, snkWrite, transact_hung h]
  · simp [exec, execSnkClose, snkClose, transact_hung h]

/-- Settles O17, by the two answers of a read. -/
theorem sourceRead : Obligations.SourceRead := by
  unfold Obligations.SourceRead
  intro s n h
  refine ⟨fun hn => ?_, fun bits post hr hl => ⟨?_, hl ▸ valOf_lt bits⟩⟩
  · rw [exec, execSrcRead, srcRead_next_eod h hn, Res.bind_ok, Res.outcome_ok]
  · rw [exec, execSrcRead, srcRead_next_value h hr hl, Res.bind_ok, Res.outcome_ok]

/-- Settles O18, by the law of the one transaction (srcReset_next). -/
theorem sourceReset : Obligations.SourceReset := by
  unfold Obligations.SourceReset
  intro s h
  rw [exec, execSrcReset, srcReset_next h, Res.outcome_ok]

/-- Settles O19: the bits appended are bitsOf, whose number is the value modulo 2^N (valOf_bitsOf). -/
theorem sinkWrite : Obligations.SinkWrite := by
  unfold Obligations.SinkWrite
  intro s n v h hlo hhi ho
  refine ⟨bitsOf n v.toNat, bitsOf_length _ _, valOf_bitsOf _ _, ?_⟩
  have hw : writeWidthOk n = true := by simp [writeWidthOk, hlo, hhi]
  rw [exec, execSnkWrite, if_pos hw, snkWrite_next h ho, Res.outcome_ok]

/-- Settles O20, with the padding of padLength. -/
theorem sinkClose : Obligations.SinkClose := by
  unfold Obligations.SinkClose
  intro s h
  obtain ⟨hwhole, hlt⟩ := padLength_spec s.mem.snk.bits.length
  refine ⟨_, _, hlt, hwhole, rfl, ?_⟩
  rw [exec, execSnkClose, snkClose_next h, Res.outcome_ok, State.ran_one]
  rfl

/-- Settles O38: CLOSE is SnkClose answered normally and then completion. -/
theorem closeEndsTheCommand : Obligations.CloseEndsTheCommand := by
  unfold Obligations.CloseEndsTheCommand
  intro s h
  obtain ⟨hwhole, hlt⟩ := padLength_spec s.mem.snk.bits.length
  refine ⟨s.sealed.complete, ?_, rfl, rfl, rfl, rfl, rfl, hwhole, hlt, rfl, rfl, rfl, rfl, rfl⟩
  rw [exec, execClose, snkClose_next h, Res.bind_ok, Res.outcome_ok]

end Sys2Proof
end

section
/-! SUPPORT. Which stream a part of an operation leaves as it was, whatever the environment answers (R60, R69). -/

namespace Sys2Proof.Machine

open Safety

/-- The state a part of an operation ends in, if it ends in one, has the part `f` of the memory as it was in `s`. -/
def Res.Leaves {α β : Type} (f : Memory → β) (s : State) : Res α → Prop
  | .ok _ t => f t.mem = f s.mem
  | .raise _ t => f t.mem = f s.mem
  | .cut t => f t.mem = f s.mem
  | .stop _ => True
  | .refuse _ => True

section
variable {α β γ : Type} {f : Memory → γ} {s : State}

/-- What another state has left as well. -/
theorem Res.Leaves.trans {t : State} {x : Res α} (ht : f t.mem = f s.mem) (hx : x.Leaves f t) : x.Leaves f s := by
  unfold Res.Leaves at *
  rwa [← ht]

theorem Res.Leaves.bind {x : Res α} {go : α → State → Res β} (hx : x.Leaves f s)
    (hgo : ∀ a t, (go a t).Leaves f t) : (x.bind go).Leaves f s := by
  cases x with
  | ok a t => exact (hgo a t).trans hx
  | raise | cut | stop | refuse => exact hx

/-- A transaction leaves what its normal effect leaves. -/
theorem transact_leaves {x : Txn} {sub : BitVec 4} {go : State → Res α} (h : (go s.answered).Leaves f s) :
    (transact x sub go s).Leaves f s := by
  unfold transact
  split
  · trivial
  · cases s.answer with
    | ok => exact h
    | ioFail | reset => exact rfl
    | never => trivial

/-- An instruction leaves what its part leaves: neither a fault nor a reset changes the memory. -/
theorem Res.Leaves.outcome {x : Res Unit} {t : State} (hx : x.Leaves f s) (h : x.outcome = .next t) :
    f t.mem = f s.mem := by
  cases x with
  | ok a u => cases h; exact hx
  | raise r u => cases h; exact hx
  | cut u => cases h; exact hx
  | stop | refuse => cases h

theorem Res.Leaves.thenPhase {x : Res Unit} {t : State} {p : BitVec 4} (hx : x.Leaves f s)
    (h : x.thenPhase p = .next t) : f t.mem = f s.mem :=
  (hx.bind (go := fun _ u => .ok () (u.setPhase p)) fun _ _ => rfl).outcome h

end

/-! ## The source side leaves the sink -/

theorem srcRead_leaves (n : Nat) (s : State) : (srcRead n s).Leaves Memory.snk s := by
  unfold srcRead
  refine transact_leaves ?_
  split <;> exact rfl

theorem srcReset_leaves (s : State) : (srcReset s).Leaves Memory.snk s := transact_leaves rfl

theorem countLoop_leaves (n : Nat) (s : State) : (countLoop n s).Leaves Memory.snk s := by
  induction n generalizing s with
  | zero => exact (srcRead_leaves 8 s).bind fun _ _ => rfl
  | succ n ih =>
    refine (srcRead_leaves 8 s).bind fun r t => ?_
    cases r with
    | none => exact rfl
    | some v =>
      simp only
      split
      · exact rfl
      · exact ih (t.setWork _)

theorem checkMagic_leaves (s : State) : (checkMagic s).Leaves Memory.snk s := by
  refine (srcRead_leaves 32 s).bind fun m t => ?_
  cases m with
  | none => exact rfl
  | some v =>
    simp only
    split <;> exact rfl

theorem readFlag_leaves (s : State) : (readFlag s).Leaves Memory.snk s := by
  refine (srcRead_leaves 1 s).bind fun b t => ?_
  cases b with
  | none => exact rfl
  | some v =>
    simp only
    split <;> exact rfl

theorem readSym_leaves (s : State) : (readSym s).Leaves Memory.snk s :=
  (srcRead_leaves 9 s).bind fun v t => by cases v <;> exact rfl

theorem parseTree_leaves (n : Nat) (s : State) : (parseTree n s).Leaves Memory.snk s := by
  induction n generalizing s with
  | zero => exact (readFlag_leaves s).bind fun _ _ => rfl
  | succ n ih =>
    refine (readFlag_leaves s).bind fun leaf t => ?_
    split
    · exact (readSym_leaves t).bind fun _ _ => rfl
    · exact Res.Leaves.bind (ih (t.setWork _)) fun l u => Res.Leaves.bind (ih (u.setWork _)) fun _ _ => rfl

/-! ## The sink side leaves the source -/

theorem snkWrite_leaves (n v : Nat) (s : State) : (snkWrite n v s).Leaves Memory.src s := by
  unfold snkWrite
  refine transact_leaves ?_
  split
  · trivial
  · exact rfl

theorem snkClose_leaves (s : State) : (snkClose s).Leaves Memory.src s := transact_leaves rfl

theorem emitTree_leaves (r : Tree) (s : State) : (emitTree r s).Leaves Memory.src s := by
  induction r generalizing s with
  | leaf x w => exact (snkWrite_leaves 1 1 s).bind fun _ t => snkWrite_leaves 9 x.toNat t
  | internal w l r ihl ihr =>
    exact (snkWrite_leaves 1 0 s).bind fun _ t => Res.Leaves.bind (ihl (t.setWork _)) fun _ u =>
      Res.Leaves.bind (ihr (u.setWork _)) fun _ _ => rfl

/-! ## Instructions -/

/-- R69: COUNT, REWIND, CHKMAGIC, RDHDR, SrcRead and SrcReset reach the source alone. -/
theorem sourceOnly_leaves {i : Instr} {s t : State} (hi : usesSourceOnly i = true) (h : exec i s = .next t) :
    t.mem.snk = s.mem.snk := by
  cases i with
  | count =>
    refine Res.Leaves.thenPhase (p := Phase.build) ?_ h
    exact Res.Leaves.bind (countLoop_leaves _ (s.setWork s.work.clearCounts)) fun _ _ => rfl
  | rewind => exact (srcReset_leaves s).thenPhase (p := Phase.encode) h
  | chkmagic => exact (checkMagic_leaves s).thenPhase (p := Phase.rdhdr) h
  | rdhdr =>
    refine Res.Leaves.thenPhase (p := Phase.decode) ?_ h
    exact Res.Leaves.bind (parseTree_leaves _ (s.setWork s.work.clearTree)) fun _ _ => rfl
  | srcRead n =>
    refine Res.Leaves.outcome ?_ h
    exact (srcRead_leaves n s).bind fun _ _ => rfl
  | srcReset => exact (srcReset_leaves s).outcome h
  | _ => cases hi

/-- R69: WRMAGIC, WRHDR, CLOSE, SnkWrite and SnkClose reach the sink alone. -/
theorem sinkOnly_leaves {i : Instr} {s t : State} (hi : usesSinkOnly i = true) (h : exec i s = .next t) :
    t.mem.src = s.mem.src := by
  cases i with
  | wrmagic => exact (snkWrite_leaves 32 s.cfg.magic.toNat s).thenPhase (p := Phase.wrhdr) h
  | wrhdr =>
    change execWrhdr s = .next t at h
    unfold execWrhdr at h
    split at h
    · cases h
    · exact (emitTree_leaves _ s).thenPhase h
  | close =>
    refine Res.Leaves.outcome ?_ h
    exact (snkClose_leaves s).bind fun _ _ => rfl
  | snkWrite n v =>
    change execSnkWrite n v s = .next t at h
    unfold execSnkWrite at h
    split at h
    · exact (snkWrite_leaves n v.toNat s).outcome h
    · cases h
  | snkClose => exact (snkClose_leaves s).outcome h
  | _ => cases hi

end Sys2Proof.Machine

namespace Sys2Proof

open Machine Safety

/-- Settles O49, class by class. -/
theorem streamFrames : Obligations.StreamFrames := by
  unfold Obligations.StreamFrames
  intro i s t h
  refine ⟨fun hn => ?_, fun hi => sourceOnly_leaves hi h, fun hi => sinkOnly_leaves hi h⟩
  obtain ⟨hmem, htrace, hanswers⟩ := noPort_untouched hn h
  exact ⟨hmem, hanswers, htrace⟩

end Sys2Proof
end

section
/-! SUPPORT. ENCODE, and the records of the stream as instructions that read, while ports work (R106 to R112, R200). -/

namespace Sys2Proof.Machine

open Safety

section
variable {s : State} {post : List Bool} (h : PortsWork s)
include h

/-- R106, R221: the magic word is read and passes. -/
theorem checkMagic_ok (hr : s.mem.src.rest = bitsOf 32 s.cfg.magic.toNat ++ post) :
    checkMagic s =
      .ok () (s.ran s.work (s.mem.src.pos + 32) [] [.srcRead 32 (.value s.cfg.magic.toNat)]) := by
  have hval : valOf (bitsOf 32 s.cfg.magic.toNat) = s.cfg.magic.toNat := by
    rw [valOf_bitsOf, Nat.mod_eq_of_lt s.cfg.magic.isLt]
  rw [checkMagic, srcRead_value h hr (bitsOf_length _ _), Res.bind_ok, hval]
  simp

/-- R108, R181 -/
theorem readInternal_ok (hf : nodesFull s.cfg s.work.nnodes = false) (hr : s.mem.src.rest = false :: post) :
    readInternal s =
      .ok () (s.ran { s.work with nnodes := s.work.nnodes + 1, stk := ⟨none, .left⟩ :: s.work.stk }
        (s.mem.src.pos + 1) [] [.srcRead 1 (.value 0)]) := by
  rw [readInternal, readFlag_ok h hr hf, Res.bind_ok]
  rfl

/-- R109, R110, R181 -/
theorem readLeaf_ok (hf : nodesFull s.cfg s.work.nnodes = false) {x : Sym}
    (hr : s.mem.src.rest = true :: (bitsOf 9 x.toNat ++ post)) :
    readLeaf x s =
      .ok () (s.ran { s.work with nnodes := s.work.nnodes + 1, ret := some (.leaf x 0) }
        (s.mem.src.pos + 10) [] [.srcRead 1 (.value 1), .srcRead 9 (.value x.toNat)]) := by
  rw [readLeaf, readFlag_ok h hr hf, Res.bind_ok, if_pos rfl,
    readSym_ok (h.ran _ _ _ _) (x := x) (post := post) (by rw [ran_rest, hr]; rfl), Res.bind_ok, if_pos rfl]
  simp

/-- R112, R202: the code word of the terminator. -/
theorem readEos_ok {w : Nat} {l r : Tree} {p : List Bool} (ht : s.work.tree = some (.internal w l r))
    (hr : s.mem.src.rest = p ++ post) (hp : (Tree.internal w l r).leafAt p = some Config.eos) :
    ∃ c, readEos s = .ok () (s.ran { s.work with cur := c } (s.mem.src.pos + p.length) [] (readBits p)) := by
  obtain ⟨wx, hf⟩ := Tree.follow_of_leafAt hp
  exact ⟨_, by rw [readEos, readCode_leaf h ht hr hf, Res.bind_ok]; rfl⟩

/-- R111, R119, R202: the code word of a literal, and the literal's low eight bits on the sink. -/
theorem readByte_ok (ho : s.mem.snk.closed = false) {w : Nat} {l r : Tree} {p : List Bool} {x : Sym}
    (ht : s.work.tree = some (.internal w l r)) (hr : s.mem.src.rest = p ++ post) (hx : x ≠ Config.eos)
    (hp : (Tree.internal w l r).leafAt p = some x) :
    readByte (x.setWidth 8) s =
      .ok () (s.ran { s.work with cur := some (.internal w l r) } (s.mem.src.pos + p.length) (bitsOf 8 x.toNat)
        (readBits p ++ [.snkWrite 8 x.toNat true])) := by
  obtain ⟨wx, hf⟩ := Tree.follow_of_leafAt hp
  rw [readByte, readCode_leaf h ht hr hf, Res.bind_ok, if_neg hx]
  simp only [if_true, State.ran_work, ht, Option.getD_some]
  rw [putLiteral, snkWrite_ok (h.ran _ _ _ _) (by simpa using ho), Res.bind_ok]
  simp

end

end Sys2Proof.Machine

namespace Sys2Proof

open Machine Safety

/-- Settles O40, by the operation's own law (execEncode_ok). -/
theorem encodeWritesTheBody : Obligations.EncodeWritesTheBody := by
  unfold Obligations.EncodeWritesTheBody
  intro s h ho hv
  exact execEncode_ok h ho hv

/-- Settles O47, record by record. -/
theorem wireRecordsRead : Obligations.WireRecordsRead := by
  unfold Obligations.WireRecordsRead
  intro s post h ho
  refine ⟨fun hp hr => ?_, fun hp hf => ⟨fun hr => ?_, fun x hr => ?_⟩, fun hp => ⟨?_, fun w ht => ?_, ?_⟩⟩
  · rw [exec, execWireMagic, if_pos hp, checkMagic_ok h hr, Res.outcome_ok]
  · rw [exec, execWireNodeInternal, if_pos hp, readInternal_ok h hf hr, Res.outcome_ok]
  · rw [exec, execWireNodeLeaf, if_pos hp, readLeaf_ok h hf hr, Res.outcome_ok]
  · rw [exec, execWirePadding, if_pos hp]
  · rw [exec, execWireEosCode, if_pos hp, readEos, readCode, ht]
    rfl
  · intro w l r p ht hr
    refine ⟨fun x hx hl => ?_, fun hl => ?_⟩
    · rw [exec, execWireCode, if_pos hp, readByte_ok h ho ht hr hx hl, Res.outcome_ok]
    · obtain ⟨c, hc⟩ := readEos_ok h ht hr hl
      exact ⟨c, by rw [exec, execWireEosCode, if_pos hp, hc, Res.outcome_ok]⟩

end Sys2Proof
end

section
/-! SUPPORT. The decoder and the encoder, format by format (R101 to R114): each reads what the other writes. -/

namespace Sys2Proof

/-! ## Fields of a fixed width (R16, R66) -/

/-- R16, R66: a field that was written is read back. -/
theorem field_of_bits {n : Nat} (v : BitVec n) : BitVec.ofNat n (valOf (bitsOf n v.toNat)) = v := by
  rw [valOf_bitsOf]
  exact BitVec.eq_of_toNat_eq (by simp)

/-- R16, R66: a field that was read is written as it stood. -/
theorem bits_of_field {n : Nat} {l : List Bool} (h : l.length = n) : bitsOf n (BitVec.ofNat n (valOf l)).toNat = l := by
  rw [BitVec.toNat_ofNat, bitsOf_mod, bitsOf_valOf_of_length h]

/-- The first `n` bits of a stream are the field read from them. -/
theorem field_append_drop {n : Nat} {bits : List Bool} (h : ¬ bits.length < n) :
    bits = bitsOf n (BitVec.ofNat n (valOf (bits.take n))).toNat ++ bits.drop n := by
  rw [bits_of_field (by rw [List.length_take]; omega), List.take_append_drop]

/-! ## Decoding what was encoded -/

/-- R101: a CMD word is taken whole. -/
theorem decode_cmd (c : Ctx) (v : Word) (rest : List Bool) :
    decode c .cmd (bitsOf 32 v.toNat ++ rest) = .ok (decodeCmd v, rest) := by
  simp [decode, List.take_left', List.drop_left', field_of_bits]

/-- R101: only OP matters. -/
theorem decodeCmd_append (hi : BitVec 30) (op : BitVec 2) : decodeCmd (hi ++ op) = decodeCmd (0#30 ++ op) := by
  have hmod (k : BitVec 30) : (k ++ op).toNat % 4 = op.toNat := by
    have hlt := op.isLt
    rw [BitVec.toNat_append, ← Nat.shiftLeft_add_eq_or_of_lt hlt, Nat.shiftLeft_eq]
    omega
  unfold decodeCmd
  rw [hmod, hmod]

/-- R104: a PHASE code is taken whole. -/
theorem decode_phase (c : Ctx) (p : BitVec 4) (rest : List Bool) :
    decode c .phase (bitsOf 4 p.toNat ++ rest) = .ok (decodePhase p, rest) := by
  simp [decode, List.take_left', List.drop_left', field_of_bits]

/-- R104: the operation of a phase is encoded as its code. -/
theorem encode_phase (c : Ctx) (p : BitVec 4) : encode c (decodePhase p) = some (bitsOf 4 p.toNat) := by
  obtain ⟨n⟩ := p
  fin_cases n <;> rfl

/-- R104 -/
theorem format_phase (p : BitVec 4) : (decodePhase p).format = some .phase := by
  revert p
  decide

theorem decode_encode_phase {c : Ctx} {i : Instr} {bits : List Bool} (hi : ∃ p : BitVec 4, decodePhase p = i)
    (he : encode c i = some bits) (rest : List Bool) : decode c .phase (bits ++ rest) = .ok (i, rest) := by
  obtain ⟨p, rfl⟩ := hi
  cases (encode_phase c p).symm.trans he
  exact decode_phase c p rest

/-- R106 -/
theorem decode_magic (c : Ctx) (rest : List Bool) :
    decode c .wireMagic (bitsOf 32 c.magic.toNat ++ rest) = .ok (.wireMagic, rest) := by
  simp [decode, List.take_left', List.drop_left', field_of_bits]

/-- R109 -/
theorem decodeNode_leaf (s : Sym) (rest : List Bool) :
    decodeNode (encodeLeaf s ++ rest) = .ok (.wireNodeLeaf s, rest) := by
  simp [decodeNode, encodeLeaf, List.take_left', List.drop_left']

/-- R111, R112, R114 (d), R203: bits that lead to a leaf; a tree of one leaf has no code word but the terminator. -/
theorem decode_code {c : Ctx} {t : Tree} {p : List Bool} {x : Sym} (ht : c.tree = some t) (hp : t.leafAt p = some x)
    (hroot : t.isLeaf = true → x = Config.eos) (rest : List Bool) :
    decode c .wireBody (p ++ rest) =
      .ok (if x = Config.eos then .wireEosCode else .wireCode (x.setWidth 8), rest) := by
  rw [← decodeCode_leafAt (rest := rest) hp]
  cases t with
  | internal w l r => simp only [decode, ht]
  | leaf s w =>
    obtain rfl : s = x := by
      cases p with
      | nil => exact Option.some.inj hp
      | cons => cases hp
    simp only [decode, ht, if_pos (hroot rfl)]

/-- R113 -/
theorem decode_padding (c : Ctx) (rest : List Bool) :
    decode c .wirePad (List.replicate (padLength c.written) false ++ rest) = .ok (.wirePadding, rest) := by
  simp [decode, List.take_left', List.drop_left']

/-! ## Encoding what was decoded -/

/-- What was taken of `bits`, all but `rest`, is the encoding of `i`, an instruction of format `f`. -/
def TakenAs (c : Ctx) (f : Format) (bits : List Bool) (i : Instr) (rest : List Bool) : Prop :=
  i.format = some f ∧ ∃ pre, encode c i = some pre ∧ bits = pre ++ rest

section
variable {c : Ctx} {bits rest : List Bool} {i : Instr}

/-- R104 -/
theorem takenAs_phase (h : decode c .phase bits = .ok (i, rest)) : TakenAs c .phase bits i rest := by
  simp only [decode] at h
  split_ifs at h with hlen
  cases h
  exact ⟨format_phase _, _, encode_phase c _, field_append_drop hlen⟩

/-- R106 -/
theorem takenAs_magic (h : decode c .wireMagic bits = .ok (i, rest)) : TakenAs c .wireMagic bits i rest := by
  simp only [decode] at h
  split_ifs at h with hlen hmagic
  cases h
  exact ⟨rfl, _, rfl, hmagic ▸ field_append_drop hlen⟩

/-- R108, R109, R114 (b) -/
theorem takenAs_node (h : decode c .wireNode bits = .ok (i, rest)) : TakenAs c .wireNode bits i rest := by
  change decodeNode bits = .ok (i, rest) at h
  match bits with
  | [] => cases h
  | false :: more =>
    cases h
    exact ⟨rfl, [false], rfl, rfl⟩
  | true :: more =>
    simp only [decodeNode] at h
    split_ifs at h with hlen
    cases h
    exact ⟨rfl, _, rfl, congrArg (true :: ·) (field_append_drop hlen)⟩

/-- R113 -/
theorem takenAs_padding (h : decode c .wirePad bits = .ok (i, rest)) : TakenAs c .wirePad bits i rest := by
  simp only [decode] at h
  split_ifs at h with hpad
  cases h
  exact ⟨rfl, _, rfl, by rw [← hpad, List.take_append_drop]⟩

end

/-! ## The statements -/

/-- Settles O3, instruction by instruction: the encoder writes what the decoder of its format takes. -/
theorem decodeInvertsEncode : Obligations.DecodeInvertsEncode := by
  unfold Obligations.DecodeInvertsEncode
  intro c i f bits rest _ hf he
  cases i with
  | cmdNop => cases hf; cases he; exact decode_cmd c 0#32 rest
  | compress => cases hf; cases he; exact decode_cmd c 1#32 rest
  | decompress => cases hf; cases he; exact decode_cmd c 2#32 rest
  | cmdReserved => cases hf; cases he; exact decode_cmd c 3#32 rest
  | idle | count | build | gencodes | wrmagic | wrhdr | rewind | encode | close | chkmagic | rdhdr | decode | phaseC
    | phaseD | done | fault =>
    cases hf
    exact decode_encode_phase (by decide) he rest
  | wireMagic => cases hf; cases he; exact decode_magic c rest
  | wireNodeInternal => cases hf; cases he; rfl
  | wireNodeLeaf s => cases hf; cases he; exact decodeNode_leaf s rest
  | wireCode b =>
    cases hf
    obtain ⟨t, ht, he⟩ := Option.bind_eq_some_iff.1 he
    split_ifs at he with hleaf
    rw [decode_code ht (Tree.leafAt_path he) (fun h => absurd h hleaf), if_neg (byte_ne_eos b),
      BitVec.setWidth_setWidth_of_le b (by decide), BitVec.setWidth_eq]
  | wireEosCode =>
    cases hf
    obtain ⟨t, ht, he⟩ := Option.bind_eq_some_iff.1 he
    exact decode_code ht (Tree.leafAt_path he) (fun _ => rfl) rest
  | wirePadding => cases hf; cases he; exact decode_padding c rest
  | pqInsert | pqRemoveMin | srcRead | srcReset | snkWrite | snkClose => cases hf

/-- Settles O2: a CMD word is taken whole (decode_cmd), and its operation is that of OP alone (decodeCmd_append). -/
theorem commandWordReadsOnlyItsLowBits : Obligations.CommandWordReadsOnlyItsLowBits := by
  unfold Obligations.CommandWordReadsOnlyItsLowBits
  intro c hi rest
  refine ⟨?_, ?_, ?_, ?_⟩ <;> rw [decode_cmd, decodeCmd_append] <;> rfl

/-- Settles O4, format by format. -/
theorem decodedBitsAreTheEncoding : Obligations.DecodedBitsAreTheEncoding := by
  unfold Obligations.DecodedBitsAreTheEncoding
  intro c f bits rest i hcmd hbody h
  cases f with
  | cmd => exact absurd rfl hcmd
  | phase => exact takenAs_phase h
  | wireMagic => exact takenAs_magic h
  | wireNode => exact takenAs_node h
  | wireBody => exact absurd rfl hbody
  | wirePad => exact takenAs_padding h

/-- Settles O5: such a tree is no leaf (decode_code). -/
theorem codeWordsEndAtTheirLeaf : Obligations.CodeWordsEndAtTheirLeaf := by
  unfold Obligations.CodeWordsEndAtTheirLeaf
  intro c w l r p rest x ht hp
  exact decode_code ht hp nofun rest

/-- Settles O1: closed words, run through the decoder. -/
theorem sampleWordsDecode : Obligations.SampleWordsDecode := by
  unfold Obligations.SampleWordsDecode
  decide

end Sys2Proof
end

section
/-! SUPPORT. The instructions of the encoded families as operations: commands, the codes never produced, GENCODES, and the records
of the stream that are written (R101 to R113, R170, R180, R220, R222). -/

namespace Sys2Proof.Machine

open Safety

/-! ## Commands -/

/-- R101, R103: a command word whose OP is 11. -/
theorem decodeCmd_reserved {v : Word} (h : v.extractLsb' 0 2 = 3#2) : decodeCmd v = .cmdReserved := by
  have hop : (v.extractLsb' 0 2).toNat = v.toNat % 4 := by simp
  rw [decodeCmd, ← hop, h]
  rfl

/-- R226: a command is ignored while BUSY. -/
theorem acceptCommand_busy {s : State} (h : s.busy = true) (p : BitVec 4) : acceptCommand p s = .next s := if_pos h

/-! ## The phase codes that are never produced -/

/-- R104: the operation before one of them would be that code itself. -/
theorem reserved_of_successor {p : BitVec 4} (h : successor p = Phase.phaseC ∨ successor p = Phase.phaseD) :
    p = Phase.phaseC ∨ p = Phase.phaseD := by
  revert p
  decide

/-- R104: no instruction moves PHASE to one of them. -/
theorem phase_eq_of_reserved {i : Instr} {s t : State} (h : exec i s = .next t)
    (ht : t.phase = Phase.phaseC ∨ t.phase = Phase.phaseD) : t.phase = s.phase := by
  cases nextOf_exec h with
  | kept _ k => exact k.phase
  | moved u p n k hp =>
    obtain rfl | rfl := reserved_of_successor ht <;> subst hp <;> cases h
  | started p hp => obtain ⟨-, rfl⟩ | ⟨-, rfl⟩ := hp <;> obtain ht | ht := ht <;> cases ht
  | sealed => rfl
  | completed | faulted | reset => obtain ht | ht := ht <;> cases ht

/-! ## GENCODES -/

/-- R170, R171: GENCODES on any tree; what a symbol beyond the table leaves is a free value (log entry 18). -/
theorem execGencodes_records {s : State} {t : Tree} (ht : s.work.tree = some t) :
    ∃ c n,
      execGencodes s =
        .next { s with
          phase := Phase.wrmagic
          freeIx := n
          work := { walkCodes t s.work.clearCodes with codeBeyond := c } } ∧
      (t.symsInTable = true → c = s.work.codeBeyond ∧ n = s.freeIx) := by
  by_cases hs : t.symsInTable = true
  · have hbeyond : (walkCodes t s.work.clearCodes).codeBeyond = s.work.codeBeyond := by
      rw [walkCodes_eq]
      rfl
    refine ⟨_, s.freeIx, ?_, fun _ => ⟨hbeyond, rfl⟩⟩
    rw [execGencodes_ok ht hs]
    rfl
  · refine ⟨Config.freeCodeBeyond s.freeIx, s.freeIx + 1, ?_, fun h => absurd h hs⟩
    simp only [execGencodes, ht, if_neg hs]
    rfl

/-! ## The code of a literal, written -/

/-- R111, R200 -/
theorem putByte_ok {s : State} {b : Byte} (h : PortsWork s) (ho : s.mem.snk.closed = false)
    (hv : (codeOf s.work.code b).valid = true) :
    putByte b s =
      .ok () (s.ran s.work s.mem.src.pos (codeOf s.work.code b).bits (putBits (codeOf s.work.code b).bits)) :=
  (if_pos hv).trans (putCode_ok h ho _)

/-- R201 -/
theorem putByte_missing {s : State} {b : Byte} (hv : (codeOf s.work.code b).valid = false) :
    putByte b s = .raise ⟨Kind.ioFault, 4#4, 0#32⟩ s :=
  if_neg (Bool.eq_false_iff.1 hv)

end Sys2Proof.Machine

namespace Sys2Proof

open Machine Safety

/-- Settles O8: the step of such a write is that of CMD_RESERVED (decodeCmd_reserved). -/
theorem reservedCommandHasNoEffect : Obligations.ReservedCommandHasNoEffect := by
  unfold Obligations.ReservedCommandHasNoEffect
  intro s v rest
  refine ⟨rfl, rfl, fun hi hop => ?_⟩
  rw [step_command hi, decodeCmd_reserved hop]
  rfl

/-- Settles O10, by the two ways a command is taken (R226). -/
theorem commandsComplete : Obligations.CommandsComplete := by
  unfold Obligations.CommandsComplete
  intro s
  exact ⟨rfl, fun h => ⟨acceptCommand_startable h Phase.count, acceptCommand_startable h Phase.chkmagic⟩,
    fun h => ⟨acceptCommand_busy h Phase.count, acceptCommand_busy h Phase.chkmagic⟩⟩

/-- Settles O14, by what the next state of an instruction can be (phase_eq_of_reserved). -/
theorem reservedPhaseCodesStop : Obligations.ReservedPhaseCodesStop := by
  unfold Obligations.ReservedPhaseCodesStop
  exact ⟨fun s => ⟨rfl, rfl⟩, fun i s t => phase_eq_of_reserved⟩

/-- Settles O31: the walk records the last path to each symbol (gencodes_work). -/
theorem gencodesRecordsThePaths : Obligations.GencodesRecordsThePaths := by
  unfold Obligations.GencodesRecordsThePaths
  intro s t ht
  obtain ⟨c, n, hrun, hfree⟩ := execGencodes_records ht
  rw [gencodes_work] at hrun
  exact ⟨⟨c, n, hrun, hfree⟩, Tree.lastPath_eq_path⟩

/-- Settles O33, by the operation's own law (execWrhdr_ok) and the length of a header (encodeTree_length). -/
theorem wrhdrWritesTheHeader : Obligations.WrhdrWritesTheHeader := by
  unfold Obligations.WrhdrWritesTheHeader
  intro s t ht h ho
  have hlen := encodeTree_length t
  exact ⟨execWrhdr_ok h ho ht, by omega⟩

/-- Settles O37, by the laws of the one transaction (snkWrite_next, srcReset_next). -/
theorem wrmagicAndRewindComplete : Obligations.WrmagicAndRewindComplete := by
  unfold Obligations.WrmagicAndRewindComplete
  intro s h
  refine ⟨fun ho => ?_, ?_⟩
  · rw [exec, execWrmagic, writeMagic, snkWrite_next h ho, Res.thenPhase_ok]
  · rw [exec, execRewind, srcReset_next h, Res.thenPhase_ok]

/-- Settles O46, record by record. -/
theorem wireRecordsWritten : Obligations.WireRecordsWritten := by
  unfold Obligations.WireRecordsWritten
  intro s x b h ho
  refine ⟨fun hp => ?_, fun hp => ⟨?_, ?_⟩, fun hp => ⟨fun hv => ?_, fun hv => ?_, ?_, ?_⟩⟩
  · rw [exec, execWireMagic, if_neg hp, writeMagic, snkWrite_ok h ho, Res.outcome_ok]
  · rw [exec, execWireNodeInternal, if_neg hp, writeInternal, snkWrite_ok h ho, Res.outcome_ok]
    rfl
  · rw [exec, execWireNodeLeaf, if_neg hp, writeLeaf_ok h ho, Res.outcome_ok]
    rfl
  · rw [exec, execWireCode, if_neg hp, putByte_ok h ho hv, Res.outcome_ok]
  · rw [exec, execWireCode, if_neg hp, putByte_missing hv, Res.outcome_raise]
  · rw [exec, execWireEosCode, if_neg hp, putEos, putCode_ok h ho, Res.outcome_ok]
    rfl
  · rw [exec, execWirePadding, if_neg hp, snkClose_ok h, Res.outcome_ok]
    rfl

end Sys2Proof
end

section
/-! SUPPORT. The frequency counter as one operation: what its counters say of the bytes read, and the source that holds too
many of them (R140 to R144). -/

namespace Sys2Proof.Machine

open Safety

/-- R144: the positive counters are those of the bytes that occur and the end-of-stream one. -/
theorem tally_pos_iff (bs : List Byte) (i : Fin 257) :
    0 < (tally bs)[i] ↔ i.val = 256 ∨ ∃ b ∈ bs, b.toNat = i.val := by
  simp only [tally, Fin.getElem_fin, Vector.getElem_ofFn]
  by_cases hi : i.val = 256
  · simp [hi]
  · simp [hi, List.countP_pos_iff]

/-- R143: when the counters are full. -/
theorem countFull_of_width {p : Params} {w n : Nat} (hw : p.cntW = some w) (hn : n + 2 = 2 ^ w) : countFull p n = true := by
  rw [countFull, hw]
  exact beq_iff_eq.2 hn

/-- R143: so many bytes are still counted. -/
theorem countFits_of_width {p : Params} {w n : Nat} (hw : p.cntW = some w) (hn : n + 2 = 2 ^ w) : CountFits p n := by
  intro v hv
  cases hw.symm.trans hv
  exact hn.le

/-- R247: FAULT discards the stores, whatever they were. -/
theorem enterFault_ran (s : State) (w : Work) (p : Nat) (o : List Bool) (l : List Txn) (r : Raise) :
    (s.ran w p o l).enterFault r = (s.ran s.work p o l).enterFault r := rfl

/-- R143: COUNT where the counters are full after `bs` and one more byte is read. -/
theorem execCount_full {s : State} {w : Nat} {bs more : List Byte} {b : Byte} (h : PortsWork s)
    (hw : s.cfg.cntW = some w) (hb : bytesLeft s = bs ++ b :: more) (hn : bs.length + 2 = 2 ^ w) :
    execCount s =
      .next ((s.ran s.work (s.mem.src.pos + 8 * (bs.length + 1)) [] (readBytes (bs ++ [b]))).enterFault
        ⟨Kind.capacityFault, 0#4, 0#32⟩) := by
  have hstart : (s.setWork s.work.clearCounts).work.nbytes + bs.length = bs.length := Nat.zero_add _
  have hloop := countLoop_full (h.setWork s.work.clearCounts) hb
    (by rw [hstart]; exact countFits_of_width hw hn) (by rw [hstart]; exact countFull_of_width hw hn)
  rw [execCount, ← bytesLeft_length, hb, hloop, Res.bind_raise, Res.thenPhase_raise, State.setWork_ran, enterFault_ran]
  rfl

end Sys2Proof.Machine

namespace Sys2Proof

open Machine Safety

/-- Settles O23, by the operation's own law (execCount_ok). -/
theorem countTallies : Obligations.CountTallies := by
  unfold Obligations.CountTallies
  intro s h hfit
  exact execCount_ok h hfit

/-- Settles O24: a completed COUNT leaves the tally of the bytes (execCount_work), whose clauses are facts of tallies. -/
theorem countInvariants : Obligations.CountInvariants := by
  unfold Obligations.CountInvariants
  intro s t h ht
  rw [execCount_work h ht]
  exact ⟨tally_eos _, rfl, tally_sum _, tally_pos_iff _⟩

/-- Settles O25: the counters are full when the byte too many is read (execCount_full). -/
theorem countCapacity : Obligations.CountCapacity := by
  unfold Obligations.CountCapacity
  intro s w bs b more h hw hb hn
  exact execCount_full h hw hb hn

end Sys2Proof
end

section
/-! SUPPORT. The insertion in the priority queue as an instruction (R150). -/

namespace Sys2Proof.Machine

/-- R150: the instruction changes the working stores by the queue's insertion, and nothing else. -/
theorem exec_pqInsert (s : State) (t : Tree) : exec (.pqInsert t) s = .next (s.setWork (pqInsert t s.work)) := by
  rw [exec, execPqInsert]

end Sys2Proof.Machine

namespace Sys2Proof

open Machine

/-- Settles O26, by the instruction's law (exec_pqInsert): the insertion is that update of the queue and of SEQ. -/
theorem queueInsert : Obligations.QueueInsert := by
  unfold Obligations.QueueInsert
  intro s t
  rw [exec_pqInsert, State.setWork, pqInsert]

end Sys2Proof
end

section
/-! SUPPORT. The code words of a tree as a set: none begins another, and their Kraft sum is 1 (R172). -/

namespace Sys2Proof

open Safety

/-! ## Code words that begin other code words -/

theorem Tree.follow_append {t u : Tree} {p : List Bool} (h : t.follow p = some u) (q : List Bool) :
    t.follow (p ++ q) = u.follow q := by
  induction p generalizing t with
  | nil =>
    rw [Tree.follow, Option.some.injEq] at h
    rw [h, List.nil_append]
  | cons b p ih =>
    cases t with
    | leaf s w => cases h
    | internal w l r => cases b <;> exact ih h

/-- R114, R172: below a leaf there is no leaf, so a code word that begins with another is that one. -/
theorem Tree.leafAt_of_prefix {t : Tree} {p q : List Bool} {x y : Sym} (hp : t.leafAt p = some x)
    (hq : t.leafAt q = some y) (hpq : p <+: q) : x = y := by
  obtain ⟨rest, rfl⟩ := hpq
  obtain ⟨w, hfollow⟩ := Tree.follow_of_leafAt hp
  rw [Tree.leafAt, Tree.follow_append hfollow] at hq
  cases rest with
  | nil => simpa [Tree.follow] using hq
  | cons b rest => simp [Tree.follow] at hq

/-- R172: no path in a tree begins the path to another symbol. -/
theorem Tree.path_prefix_free {t : Tree} {p q : List Bool} {x y : Sym} (hp : t.path x = some p)
    (hq : t.path y = some q) (hpq : p <+: q) : x = y :=
  Tree.leafAt_of_prefix (Tree.leafAt_path hp) (Tree.leafAt_path hq) hpq

/-- R172: only in a tree of one leaf is the empty path a code word. -/
theorem Tree.path_length_pos {t : Tree} {x : Sym} {p : List Bool} (ht : 2 ≤ t.leaves.length) (h : t.path x = some p) :
    1 ≤ p.length := by
  cases t with
  | leaf s w => simp [Tree.leaves] at ht
  | internal w l r =>
    cases p with
    | nil => cases Tree.leafAt_path h
    | cons b p => exact Nat.succ_pos _

theorem Tree.path_isSome {t : Tree} {x : Sym} : (t.path x).isSome ↔ x ∈ t.syms := by
  rw [Option.isSome_iff_ne_none, Ne, Tree.path_eq_none, not_not]

/-! ## The Kraft sum -/

/-- R172: what a code word, where there is one, adds to the Kraft sum. -/
def kraftTerm : Option (List Bool) → ℚ
  | some p => (1 / 2) ^ p.length
  | none => 0

theorem kraftTerm_map_cons (b : Bool) (o : Option (List Bool)) :
    kraftTerm (o.map (b :: ·)) = 1 / 2 * kraftTerm o := by
  cases o with
  | none => exact (mul_zero _).symm
  | some p => exact pow_succ' _ _

/-- R105: under an internal node every code word is one bit longer, so each of the two subtrees counts half. -/
theorem kraftTerm_internal {w : Nat} {l r : Tree} {x : Sym} (hx : x ∈ l.syms → x ∉ r.syms) :
    kraftTerm ((Tree.internal w l r).path x) = 1 / 2 * kraftTerm (l.path x) + 1 / 2 * kraftTerm (r.path x) := by
  rw [Tree.path, ← kraftTerm_map_cons false, ← kraftTerm_map_cons true]
  cases hl : l.path x with
  | none => exact (zero_add _).symm
  | some p =>
    have hmem : x ∈ l.syms := Tree.path_isSome.1 (by rw [hl]; rfl)
    rw [Tree.path_eq_none.2 (hx hmem)]
    exact (add_zero _).symm

theorem Tree.symsInTable_internal {w : Nat} {l r : Tree} :
    (Tree.internal w l r).symsInTable = true ↔ l.symsInTable = true ∧ r.symsInTable = true := by
  simp only [Tree.symsInTable, Tree.syms, List.all_append, Bool.and_eq_true]

/-- R172: the code is complete: a tree fills its Kraft sum, by induction over its nodes. -/
theorem Tree.kraft_sum {t : Tree} (htable : t.symsInTable = true) (hnodup : t.syms.Nodup) :
    ∑ i : Fin 257, kraftTerm (t.path (BitVec.ofNat 9 i.val)) = 1 := by
  induction t with
  | leaf s w =>
    have hs : s.toNat < 257 := by
      have := of_decide_eq_true (List.all_eq_true.1 htable s (List.mem_singleton_self s))
      omega
    have hterm : ∀ i : Fin 257,
        kraftTerm ((Tree.leaf s w).path (BitVec.ofNat 9 i.val)) = if i = ⟨s.toNat, hs⟩ then 1 else 0 := by
      intro i
      have hi : s = BitVec.ofNat 9 i.val ↔ i = ⟨s.toNat, hs⟩ := by
        rw [← Machine.symIndex_eq, Machine.symIndex, dif_pos hs, Option.some.injEq, eq_comm]
      simp only [Tree.path, hi]
      split
      · exact pow_zero _
      · rfl
    simp only [hterm, Finset.sum_ite_eq', Finset.mem_univ, if_true]
  | internal w l r ihl ihr =>
    obtain ⟨htl, htr⟩ := Tree.symsInTable_internal.1 htable
    obtain ⟨hnl, hnr, hdisj⟩ := List.nodup_append.1 hnodup
    calc ∑ i : Fin 257, kraftTerm ((Tree.internal w l r).path (BitVec.ofNat 9 i.val))
      _ = ∑ i : Fin 257, (1 / 2 * kraftTerm (l.path (BitVec.ofNat 9 i.val)) +
            1 / 2 * kraftTerm (r.path (BitVec.ofNat 9 i.val))) :=
          Finset.sum_congr rfl fun i _ => kraftTerm_internal fun hl hr => hdisj _ hl _ hr rfl
      _ = 1 / 2 * 1 + 1 / 2 * 1 := by
          rw [Finset.sum_add_distrib, ← Finset.mul_sum, ← Finset.mul_sum, ihl htl hnl, ihr htr hnr]
      _ = 1 := by norm_num

/-! ## The code table -/

/-- R29: the code word an entry of the table gives; an invalid entry gives none. -/
def CodeEntry.word (e : CodeEntry) : Option (List Bool) := if e.valid then some e.bits else none

theorem CodeEntry.word_of_valid {e : CodeEntry} (h : e.valid = true) : e.word = some e.bits := if_pos h

theorem CodeEntry.valid_eq_isSome (e : CodeEntry) : e.valid = e.word.isSome := by
  unfold CodeEntry.word
  cases e.valid <;> rfl

theorem CodeEntry.kraftTerm_word (e : CodeEntry) :
    kraftTerm e.word = if e.valid then (1 / 2 : ℚ) ^ e.bits.length else 0 := by
  unfold CodeEntry.word
  cases e.valid <;> rfl

end Sys2Proof

namespace Sys2Proof.Machine

open Safety

/-! ## BUILD and GENCODES -/

/-- R170, R171: after GENCODES the table gives exactly the paths in a tree where no symbol occurs twice. -/
theorem walkCodes_word {r : Tree} (h : r.syms.Nodup) (w : Work) (i : Fin 257) :
    (walkCodes r w.clearCodes).code[i].word = r.path (BitVec.ofNat 9 i.val) := by
  rw [walkCodes_code, Tree.lastPath_eq_path h]
  cases r.path (BitVec.ofNat 9 i.val) with
  | none => simp [CodeEntry.word]
  | some p => rfl

/-- R21: the 257 symbols are distinct. -/
theorem index_eq_of_sym_eq {i j : Fin 257} (h : BitVec.ofNat 9 i.val = BitVec.ofNat 9 j.val) : i = j :=
  Option.some.inj ((symIndex_eq.2 rfl).symm.trans (symIndex_eq.2 h))

/-- R152: a symbol has a leaf exactly if its counter is positive. -/
theorem mem_syms_iff_of_perm {r : Tree} {f : Vector Nat 257} (h : r.leaves.Perm (presentSymbols f)) (i : Fin 257) :
    BitVec.ofNat 9 i.val ∈ r.syms ↔ 0 < f[i] := by
  refine ⟨fun hmem => ?_, mem_syms_of_perm h⟩
  rw [Tree.syms_eq_leaves, (h.map Prod.fst).mem_iff, List.mem_map] at hmem
  obtain ⟨y, hy, hyi⟩ := hmem
  obtain ⟨j, hj, rfl⟩ := mem_presentSymbols.1 hy
  rwa [← index_eq_of_sym_eq hyi]

/-- R152: there are as many leaves as positive counters. -/
theorem presentSymbols_length (f : Vector Nat 257) :
    (presentSymbols f).length = (List.finRange 257).countP fun i => decide (0 < f[i]) := by
  have hf : f.toList = (List.finRange 257).map fun i => f[i] := by
    apply List.ext_getElem <;> simp
  have hfst : f.toList = f.toList.zipIdx.map Prod.fst := (List.zipIdx_map_fst 0 _).symm
  calc (presentSymbols f).length
    _ = f.toList.zipIdx.countP fun c => decide (0 < c.1) := by
        rw [presentSymbols, List.length_map, List.countP_eq_length_filter]
    _ = f.toList.countP fun c => decide (0 < c) := by
        conv_rhs => rw [hfst, List.countP_map]
        rfl
    _ = (List.finRange 257).countP fun i => decide (0 < f[i]) := by
        rw [hf, List.countP_map]
        rfl

/-- R152 to R154, R170, R171: after BUILD and GENCODES the table gives the paths in a tree on the present symbols. -/
theorem codes_of_build_gencodes {s t u : State} (hb : execBuild s = .next t) (hg : execGencodes t = .next u) :
    ∃ r : Tree, r.leaves.Perm (presentSymbols s.work.freq) ∧
      ∀ i : Fin 257, u.work.code[i].word = r.path (BitVec.ofNat 9 i.val) := by
  obtain ⟨r, hrun, hperm, -⟩ := execBuild_ok (presentSymbols_of_build hb)
  cases hrun.symm.trans hb
  cases (execGencodes_ok rfl (symsInTable_of_perm hperm)).symm.trans hg
  exact ⟨r, hperm, walkCodes_word (syms_nodup_of_perm hperm) _⟩

end Sys2Proof.Machine

namespace Sys2Proof

open Machine Safety

/-- Settles O32: the table gives the paths in the built tree (codes_of_build_gencodes), none of which begins another
(Tree.path_prefix_free), and they fill the Kraft sum (Tree.kraft_sum). -/
theorem codesAreACompletePrefixCode : Obligations.CodesAreACompletePrefixCode := by
  unfold Obligations.CodesAreACompletePrefixCode
  intro s t u htwo heos hb hg
  obtain ⟨r, hperm, hword⟩ := codes_of_build_gencodes hb hg
  have hvalid : ∀ i : Fin 257, u.work.code[i].valid = true ↔ 0 < s.work.freq[i] := fun i => by
    rw [CodeEntry.valid_eq_isSome, hword, Tree.path_isSome, mem_syms_iff_of_perm hperm]
  have hpath : ∀ i : Fin 257, u.work.code[i].valid = true →
      r.path (BitVec.ofNat 9 i.val) = some u.work.code[i].bits := fun i hi => by
    rw [← hword, CodeEntry.word_of_valid hi]
  refine ⟨hvalid, (hvalid _).2 (by omega), ?_, fun i hi => ?_, fun i j hi hj hpre => ?_, ?_⟩
  · rw [presentSymbols_length]
    exact List.countP_congr fun i _ => by rw [hvalid, decide_eq_true_eq]
  · have hlow := Tree.path_length_pos (hperm.length_eq ▸ htwo) (hpath i hi)
    have hhigh := Tree.path_length (hpath i hi)
    have hleaves := present_length s.work.freq
    rw [hperm.length_eq] at hhigh
    omega
  · exact index_eq_of_sym_eq (Tree.path_prefix_free (hpath i hi) (hpath j hj) hpre)
  · simp only [← CodeEntry.kraftTerm_word, hword]
    exact Tree.kraft_sum (symsInTable_of_perm hperm) (syms_nodup_of_perm hperm)

end Sys2Proof
end

section
/-! SUPPORT. RDHDR as an operation: what it leaves on a whole header, what a completed one consumed (R184), and the fault
it enters where the parse raises one (R182, R183). -/

namespace Sys2Proof.Machine

open Safety

/-- R181, R184: RDHDR on a whole header that fits the node store, whatever follows it. -/
theorem execRdhdr_ok {s : State} {t : Tree} {post : List Bool} (h : PortsWork s) (hfit : NodesFit s.cfg t.size)
    (hr : s.mem.src.rest = encodeTree t ++ post) :
    execRdhdr s =
      .next ((s.ran { s.work with nnodes := t.size, tree := some t.parsed }
        (s.mem.src.pos + (encodeTree t).length) [] (headerReads t)).setPhase Phase.decode) := by
  have hparse := parseTree_ok t (h.setWork s.work.clearTree) hr le_rfl (by simpa using hfit)
  rw [State.setWork_mem] at hparse
  rw [execRdhdr, hparse, Res.bind_ok, Res.thenPhase_ok]
  simp only [State.setWork_ran, State.ran_setWork, State.ran_work, State.setWork_work, Work.clearTree, Nat.zero_add]

/-- R184, converse: what a completed RDHDR consumed is the header of the tree it made, whatever the ports did. -/
theorem execRdhdr_consumes {s u : State} (h : execRdhdr s = .next u) (hu : u.phase = Phase.decode) :
    ∃ t : Tree, u.work.tree = some t ∧ t.parsed = t ∧ s.mem.src.rest = encodeTree t ++ u.mem.src.rest := by
  obtain ⟨v, hrun, rfl⟩ := thenPhase_next h hu (by decide) (by decide)
  obtain ⟨t, w, hparse, hset⟩ := Res.bind_eq_ok hrun
  cases hset
  obtain ⟨hsrc, hparsed, -⟩ := parseTree_eq_ok _ hparse
  exact ⟨t, rfl, hparsed, hsrc⟩

/-- R181, R246: a fault the parse raises is the one RDHDR enters. -/
theorem execRdhdr_raise {s u : State} {r : Raise}
    (h : parseTree s.mem.src.rest.length (s.setWork s.work.clearTree) = .raise r u) :
    execRdhdr s = .next (u.enterFault r) := by
  rw [execRdhdr, h, Res.bind_raise, Res.thenPhase_raise]

end Sys2Proof.Machine

namespace Sys2Proof

open Machine Safety

/-- Settles O34: both directions are laws of RDHDR (execRdhdr_ok, execRdhdr_consumes), each an induction of the parse, one
over the tree and one over the parse's bound. -/
theorem headerRoundTrip : Obligations.HeaderRoundTrip := by
  unfold Obligations.HeaderRoundTrip
  refine ⟨fun s t post h hfit hr => ?_, fun s u h hu => ?_⟩
  · exact execRdhdr_ok h hfit hr
  · exact execRdhdr_consumes h hu

/-- Settles O35: the parse of a header that is cut off raises at the read that answered EOD (parseTree_cut), and RDHDR
enters that fault. -/
theorem truncatedHeader : Obligations.TruncatedHeader := by
  unfold Obligations.TruncatedHeader
  intro s t lost h hfit hr hlost
  obtain ⟨u, sub, hparse, hsnk, hread⟩ :=
    parseTree_cut t (h.setWork s.work.clearTree) hr hlost le_rfl (by simpa using hfit)
  exact ⟨_, execRdhdr_raise hparse, rfl, rfl, rfl, hsnk, hread⟩

/-- Settles O36: no node is counted when RDHDR begins, so the parse raises at flag NODE_CAP + 1 (parseTree_full), and RDHDR
enters that fault. -/
theorem headerCapacity : Obligations.HeaderCapacity := by
  unfold Obligations.HeaderCapacity
  intro s t c lost post h hcap hflags hr
  obtain ⟨u, reads, b, hparse, hsnk, htrace, hprefix, hcount⟩ :=
    parseTree_full t (h.setWork s.work.clearTree) hcap (Nat.zero_le c) (by simpa using hflags) hr le_rfl
  rw [State.setWork_work, Work.clearTree_nnodes, Nat.zero_add] at hcount
  exact ⟨_, reads, b, execRdhdr_raise hparse, rfl, rfl, rfl, rfl, hsnk, htrace, hprefix, hcount⟩

end Sys2Proof
end

section
/-! SUPPORT. ENCODE and DECODE as operations: the byte that has no code (R201), and what the decoder's walk leaves, from the
tree alone and for the body of a byte string (R202 to R208). -/

namespace Sys2Proof.Machine

open Safety

/-! ## ENCODE -/

/-- R201: ENCODE where the byte after `bs` has no valid code. -/
theorem execEncode_missing {s : State} {bs more : List Byte} {b : Byte} (h : PortsWork s)
    (ho : s.mem.snk.closed = false) (hb : bytesLeft s = bs ++ b :: more)
    (hv : ∀ x ∈ bs, (codeOf s.work.code x).valid = true) (hm : (codeOf s.work.code b).valid = false) :
    execEncode s =
      .next ((s.ran s.work (s.mem.src.pos + 8 * (bs.length + 1)) (codesOf s.work.code bs)
        (encodeTxns s.work.code bs ++ [.srcRead 8 (.value b.toNat)])).enterFault ⟨Kind.ioFault, 4#4, 0#32⟩) := by
  rw [execEncode, ← bytesLeft_length, hb, encodeLoop_missing h ho hb hv hm, Res.bind_raise, Res.thenPhase_raise]

/-! ## DECODE on a root that is a leaf -/

/-- R203: of the end-of-stream symbol. -/
theorem execDecode_eosLeaf {s : State} {w : Nat} (ht : s.work.tree = some (.leaf Config.eos w)) :
    execDecode s = .next (s.setPhase Phase.close) := by
  simp only [execDecode, ht, if_true]

/-- R203: of any other symbol. -/
theorem execDecode_otherLeaf {s : State} {x : Sym} {w : Nat} (ht : s.work.tree = some (.leaf x w))
    (hx : x ≠ Config.eos) :
    execDecode s = .next (s.enterFault ⟨Kind.corruptHeader, 2#4, x.setWidth 32⟩) := by
  simp only [execDecode, ht, if_neg hx]

/-! ## DECODE on a root with two children -/

section
variable {s : State} {w : Nat} {l r : Tree} {xs : List (List Bool × Sym)} {p post : List Bool}
  (ht : s.work.tree = some (.internal w l r))
include ht

/-- R202: DECODE is the walk, begun at the root. -/
theorem execDecode_walk :
    execDecode s =
      (decodeLoop (.internal w l r) s.mem.src.rest.length
        (s.setWork { s.work with cur := some (.internal w l r) })).thenPhase Phase.close := by
  simp only [execDecode, ht]

variable (h : PortsWork s) (ho : s.mem.snk.closed = false) (hx : CodeWords (.internal w l r) xs)
include h ho hx

/-- R202, R205, R206: code words of literals, a code word of the end-of-stream symbol, and whatever follows. -/
theorem execDecode_words (hp : (Tree.internal w l r).leafAt p = some Config.eos)
    (hr : s.mem.src.rest = codeBits xs ++ (p ++ post)) :
    ∃ c, execDecode s =
      .next ((s.ran { s.work with cur := c } (s.mem.src.pos + (codeBits xs).length + p.length) (literalsOf xs)
        (decodeTxns xs ++ readBits p)).setPhase Phase.close) := by
  obtain ⟨weight, hleaf⟩ := Tree.follow_of_leafAt hp
  have hwalk := decodeLoop_body xs p post (h.setWork { s.work with cur := some (.internal w l r) }) ho hr rfl hx hleaf
  rw [State.setWork_mem] at hwalk
  exact ⟨_, by rw [execDecode_walk ht, hwalk, Res.thenPhase_ok, State.setWork_work, State.setWork_ran]⟩

/-- R204: code words of literals, and then bits that end inside the tree. -/
theorem execDecode_cut (hp : (Tree.internal w l r).insideAt p = true) (hr : s.mem.src.rest = codeBits xs ++ p) :
    execDecode s =
      .next ((s.ran s.work (s.mem.src.pos + (codeBits xs).length + p.length) (literalsOf xs)
        (decodeTxns xs ++ readBits p ++ [.srcRead 1 .eod])).enterFault ⟨Kind.truncatedStream, 0#4, 0#32⟩) := by
  obtain ⟨stores, hwalk⟩ :=
    decodeLoop_cut xs p (h.setWork { s.work with cur := some (.internal w l r) }) ho hr rfl hx hp
  rw [State.setWork_mem] at hwalk
  rw [execDecode_walk ht, hwalk, Res.thenPhase_raise, State.setWork_ran, enterFault_ran]

end

/-! ## The body of a byte string -/

/-- R105: the path to a symbol of the tree leads to a leaf that carries it. -/
theorem leafAt_pathOf {t : Tree} {x : Sym} (h : x ∈ t.syms) : t.leafAt (pathOf t x) = some x := by
  obtain ⟨p, hp⟩ := Tree.path_of_mem h
  rw [pathOf, hp]
  exact Tree.leafAt_path hp

/-- R112: the code words of a byte string under a tree, each with its symbol. -/
def wordsOf (t : Tree) (bs : List Byte) : List (List Bool × Sym) :=
  bs.map fun b => (pathOf t (b.setWidth 9), b.setWidth 9)

/-- R112: the body is the code words and then the terminator. -/
theorem bodyOf_eq_words (t : Tree) (bs : List Byte) :
    bodyOf t bs = codeBits (wordsOf t bs) ++ pathOf t Config.eos := by
  rw [bodyOf, codeBits, wordsOf, List.flatMap_map]

/-- R119: the literals of the code words are the bytes. -/
theorem literalsOf_wordsOf (t : Tree) (bs : List Byte) : literalsOf (wordsOf t bs) = bitsOfBytes bs := by
  rw [literalsOf, wordsOf, List.flatMap_map, bitsOfBytes]
  refine List.flatMap_congr fun b _ => ?_
  have hlow : b.toNat < 2 ^ 9 := b.isLt.trans (by decide)
  rw [BitVec.toNat_setWidth, Nat.mod_eq_of_lt hlow]

/-- R141, R173: bytes that are symbols of the tree have code words in it, none of them the terminator. -/
theorem codeWords_wordsOf {t : Tree} {bs : List Byte} (h : ∀ b ∈ bs, b.setWidth 9 ∈ t.syms) :
    CodeWords t (wordsOf t bs) := by
  intro x hx
  obtain ⟨b, hb, rfl⟩ := List.mem_map.1 hx
  exact ⟨leafAt_pathOf (h b hb), byte_ne_eos b⟩

end Sys2Proof.Machine

namespace Sys2Proof

open Machine Safety

/-- Settles O45: the body is code words and the terminator (bodyOf_eq_words, codeWords_wordsOf), so it is a case of the walk
(execDecode_words), and the literals the walk writes are the bytes (literalsOf_wordsOf). The first path to a symbol leads to
a leaf of that symbol even where it occurs twice: the distinctness of the symbols is not used. -/
theorem decodeInvertsTheBody : Obligations.DecodeInvertsTheBody := by
  unfold Obligations.DecodeInvertsTheBody
  refine ⟨fun s w l r bs post h ho ht _ he hbs hr => ?_, fun s w ht => ⟨rfl, execDecode_eosLeaf ht⟩⟩
  rw [bodyOf_eq_words, List.append_assoc] at hr
  obtain ⟨c, hrun⟩ := execDecode_words ht h ho (codeWords_wordsOf hbs) (leafAt_pathOf he) hr
  rw [literalsOf_wordsOf] at hrun
  rw [bodyOf_eq_words, List.length_append, ← Nat.add_assoc]
  exact ⟨c, _, hrun⟩

/-- Settles O41, by the operation's own law (execEncode_missing). -/
theorem encodeMissingCode : Obligations.EncodeMissingCode := by
  unfold Obligations.EncodeMissingCode
  intro s bs b more h ho hb hv hm
  exact execEncode_missing h ho hb hv hm

/-- Settles O43, by the operation's own law (execDecode_words). -/
theorem decodeFollowsTheWalk : Obligations.DecodeFollowsTheWalk := by
  unfold Obligations.DecodeFollowsTheWalk
  intro s w l r xs p post h ho ht hx hp hr
  rw [List.append_assoc] at hr
  exact execDecode_words ht h ho hx hp hr

/-- Settles O44: FAULT discards the stores, so nothing is left of the cursor of the walk that was cut off (execDecode_cut). -/
theorem decodeTruncated : Obligations.DecodeTruncated := by
  unfold Obligations.DecodeTruncated
  intro s w l r xs p h ho ht hx hp hr
  exact execDecode_cut ht h ho hx hp hr

/-- Settles O42, by the two leaves a root can be (execDecode_eosLeaf, execDecode_otherLeaf). -/
theorem decodeLeafRoot : Obligations.DecodeLeafRoot := by
  unfold Obligations.DecodeLeafRoot
  intro s x w ht
  refine ⟨fun hx => ?_, fun hx => execDecode_otherLeaf ht hx⟩
  subst hx
  exact execDecode_eosLeaf ht

end Sys2Proof
end

section
/-! SUPPORT. The commands (R220 to R229): how a CMD write is taken, CHKMAGIC by the next answer alone, and COMPRESS and
DECOMPRESS run from end to end while ports work. -/

namespace Sys2Proof

open Safety

/-! ## The tree COMPRESS makes -/

section
variable {r : Tree} {bs : List Byte} (h : r.leaves.Perm (presentSymbols (tally bs)))
include h

/-- R141, R152: the end-of-stream symbol has a leaf. -/
theorem eos_mem_of_tally : Config.eos ∈ r.syms :=
  Machine.mem_syms_of_perm h (i := Machine.eosIndex) (by rw [Machine.tally_eos]; exact Nat.one_pos)

/-- R144, R152: every byte that was counted has a leaf. -/
theorem literal_mem_of_tally {b : Byte} (hb : b ∈ bs) : b.setWidth 9 ∈ r.syms := by
  rw [← Machine.byte_eq_index]
  exact Machine.mem_syms_of_perm h (Machine.tally_literal hb)

/-- R13: the tree has at most 513 nodes. -/
theorem size_le_of_tally : r.size ≤ 513 := by
  have hsize := r.size_eq_leaves
  have hleaves := Machine.present_length (tally bs)
  rw [h.length_eq] at hsize
  omega

end

/-! ## The tree a header gives back (R185) -/

theorem Tree.parsed_path (t : Tree) (x : Sym) : t.parsed.path x = t.path x := by
  induction t with
  | leaf s w => rfl
  | internal w l r ihl ihr => rw [Tree.parsed, Tree.path, Tree.path, ihl, ihr]

theorem Tree.parsed_syms (t : Tree) : t.parsed.syms = t.syms := by
  induction t with
  | leaf s w => rfl
  | internal w l r ihl ihr => rw [Tree.parsed, Tree.syms, Tree.syms, ihl, ihr]

/-- R105, R185: weights make no difference to code words. -/
theorem bodyOf_parsed (t : Tree) (bs : List Byte) : bodyOf t.parsed bs = bodyOf t bs := by
  simp only [bodyOf, pathOf, Tree.parsed_path]

/-- R106, R107, R112: a compressed stream up to its padding. -/
def streamOf (magic : Word) (t : Tree) (bs : List Byte) : List Bool :=
  bitsOf 32 magic.toNat ++ encodeTree t ++ bodyOf t bs

/-- R65: whole bytes need no padding. -/
theorem padLength_bytes (bs : List Byte) : padLength (bitsOfBytes bs).length = 0 := by
  rw [bitsOfBytes_length, padLength]
  omega

end Sys2Proof

namespace Sys2Proof.Machine

open Safety

/-! ## A CMD write (R226) -/

/-- R101: the command is that of OP. -/
theorem decodeCmd_op (v : Word) : decodeCmd v = decodeCmd ((v.extractLsb' 0 2).setWidth 32) := by
  have hop : ((v.extractLsb' 0 2).setWidth 32).toNat % 4 = v.toNat % 4 := by simp
  rw [decodeCmd, decodeCmd, hop]

/-- R226: while BUSY no command word has an effect. -/
theorem exec_command_busy {s : State} (h : s.busy = true) (v : Word) : exec (decodeCmd v) s = .next s := by
  obtain hv | hv | hv | hv := decodeCmd_cases v <;> rw [hv]
  · rfl
  · exact acceptCommand_busy h Phase.count
  · exact acceptCommand_busy h Phase.chkmagic
  · rfl

/-- R102, R103: OP = 00 and OP = 11 have no effect. -/
theorem exec_command_void {s : State} {v : Word} (h : v.extractLsb' 0 2 = 0#2 ∨ v.extractLsb' 0 2 = 3#2) :
    exec (decodeCmd v) s = .next s := by
  obtain h | h := h <;> rw [decodeCmd_op, h] <;> rfl

/-- R224, R225, R226: where a command can start, OP = 01 and OP = 10 name its first operation. -/
theorem exec_command_startable {s : State} {v : Word} (hs : Startable s)
    (h : v.extractLsb' 0 2 = 1#2 ∨ v.extractLsb' 0 2 = 2#2) :
    exec (decodeCmd v) s =
      .next ((s.setCause 0#3 0#4 0#32).setPhase
        (if v.extractLsb' 0 2 = 1#2 then Phase.count else Phase.chkmagic)) := by
  obtain h | h := h <;> rw [decodeCmd_op, h]
  · exact acceptCommand_startable hs Phase.count
  · exact acceptCommand_startable hs Phase.chkmagic

/-- R34: STATUS once a command has started. -/
theorem status_of_started {s : State} (h : s.phase = Phase.count ∨ s.phase = Phase.chkmagic) :
    s.status.getLsbD 0 = true ∧ s.status.getLsbD 1 = false ∧ s.status.getLsbD 2 = false := by
  obtain ⟨hbusy, hdone, herr, -⟩ := status_bits s
  obtain ⟨hni, hnd, hnf⟩ : s.phase ≠ Phase.idle ∧ s.phase ≠ Phase.done ∧ s.phase ≠ Phase.fault := by
    obtain h | h := h <;> rw [h] <;> decide
  exact ⟨hbusy.2 ⟨hni, hnd, hnf⟩, Bool.eq_false_iff.2 (mt hdone.1 hnd), Bool.eq_false_iff.2 (mt herr.1 hnf)⟩

/-! ## CHKMAGIC (R221) -/

/-- R81: a transaction answered `io_fail`. -/
theorem transact_failed {α : Type} {s : State} (h : NextAnswer s .ioFail) (x : Txn) (sub : BitVec 4)
    (go : State → Res α) :
    transact x sub go s = .raise ⟨Kind.ioFault, sub, 0#32⟩ (s.ran s.work s.mem.src.pos [] [x]) := by
  obtain ⟨htwo, ha⟩ := h
  rw [State.ran_one, List.append_nil]
  simp only [transact, htwo, ha, Bool.false_eq_true, if_false]
  rfl

section
variable {s : State}

/-- R221, R241: fewer than 32 bits are left. -/
theorem execChkmagic_short (h : NextAnswer s .ok) (hr : s.mem.src.rest.length < 32) :
    execChkmagic s =
      .next ((s.ran s.work s.mem.src.pos [] [.srcRead 32 .eod]).enterFault ⟨Kind.formatError, 1#4, 0#32⟩) := by
  rw [Source.rest, List.length_drop] at hr
  rw [execChkmagic, checkMagic, srcRead_next_eod h hr, Res.bind_ok, Res.thenPhase_raise]

section
variable {m : Word} {post : List Bool} (h : NextAnswer s .ok) (hr : s.mem.src.rest = bitsOf 32 m.toNat ++ post)
include h hr

/-- R221: a word is read. -/
theorem srcRead_next_word :
    srcRead 32 s = .ok (some m.toNat) (s.ran s.work (s.mem.src.pos + 32) [] [.srcRead 32 (.value m.toNat)]) := by
  rw [srcRead_next_value h hr (bitsOf_length _ _), valOf_bitsOf, Nat.mod_eq_of_lt m.isLt]

/-- R221: the word is MAGIC. -/
theorem execChkmagic_magic (hm : m = s.cfg.magic) :
    execChkmagic s =
      .next ((s.ran s.work (s.mem.src.pos + 32) [] [.srcRead 32 (.value m.toNat)]).setPhase Phase.rdhdr) := by
  rw [execChkmagic, checkMagic, srcRead_next_word h hr, Res.bind_ok]
  simp only [BitVec.ofNat_toNat, BitVec.setWidth_eq, State.ran_cfg, if_pos hm, Res.thenPhase_ok]

/-- R221, R241: the word is another. -/
theorem execChkmagic_other (hm : m ≠ s.cfg.magic) :
    execChkmagic s =
      .next ((s.ran s.work (s.mem.src.pos + 32) [] [.srcRead 32 (.value m.toNat)]).enterFault
        ⟨Kind.formatError, 0#4, m⟩) := by
  rw [execChkmagic, checkMagic, srcRead_next_word h hr, Res.bind_ok]
  simp only [BitVec.ofNat_toNat, BitVec.setWidth_eq, State.ran_cfg, if_neg hm, Res.thenPhase_raise]

end

/-- R81, R221 -/
theorem execChkmagic_failed (h : NextAnswer s .ioFail) :
    execChkmagic s =
      .next ((s.ran s.work s.mem.src.pos [] [.srcRead 32 .ioFail]).enterFault ⟨Kind.ioFault, 0#4, 0#32⟩) := by
  rw [execChkmagic, checkMagic, srcRead, transact_failed h, Res.bind_raise, Res.thenPhase_raise]

end

/-! ## COMPRESS, to its end -/

/-- R31, R271: a block that rests, left alone, stays as it is. -/
theorem run_resting {s : State} (hb : s.busy = false) (hi : s.inputs = []) (k : Nat) : core.run k s = .next s := by
  induction k with
  | zero => rfl
  | succ k ih => exact run_of_step (M := core) ((step_silent hi).trans (exec_resting hb)) ih

/-- R140, R143: while ports work COUNT tallies the bytes, or it ends in FAULT. -/
theorem execCount_ok_or_fault {s : State} (h : PortsWork s) :
    execCount s =
      .next ((s.ran { s.work with freq := tally (bytesLeft s), nbytes := (bytesLeft s).length }
        (s.mem.src.pos + 8 * (bytesLeft s).length) []
        (readBytes (bytesLeft s) ++ [.srcRead 8 .eod])).setPhase Phase.build) ∨
      ∃ u, execCount s = .next u ∧ u.phase = Phase.fault := by
  have hstart : execCount s =
      ((countLoop (bytesLeft s).length (s.setWork s.work.clearCounts)).bind fun _ u =>
        .ok () (u.setWork u.work.markEos)).thenPhase Phase.build := by
    rw [execCount, bytesLeft_length]
  obtain hloop | ⟨r, u, hloop⟩ := countLoop_ok_or_raise (h.setWork s.work.clearCounts) (bs := bytesLeft s) rfl
  · left
    rw [hstart, hloop, Res.bind_ok, Res.thenPhase_ok, State.ran_setWork]
    simp only [State.ran_work, State.setWork_work, counted_eq_tally]
    rfl
  · right
    rw [hstart, hloop]
    exact ⟨u.enterFault r, rfl, rfl⟩

section
variable {c : Params} {src : List Bool} {pos : Nat} {out : List Bool} {s : State} {bs : List Byte} {r : Tree}

/-- R140, R143, R246: COUNT hands over to BUILD, or the block rests in FAULT. -/
theorem Running.count_or_fault (h : Running c src Phase.count 0 out s) (hb : bytesOfBits src = bs) :
    ∃ t, step s = .next t ∧
      (Running c src Phase.build (8 * bs.length) out t ∧ t.work.freq = tally bs ∨
        t.phase = Phase.fault ∧ t.inputs = []) := by
  have hl : bytesLeft s = bs := h.bytesLeft_eq.trans hb
  obtain hrun | ⟨u, hrun, hu⟩ := execCount_ok_or_fault h.ports
  · rw [hl, h.pos_eq, Nat.zero_add] at hrun
    exact ⟨_, h.step_eq.trans hrun, .inl ⟨by simpa using h.ran _ _ [] _ _, rfl⟩⟩
  · obtain ⟨-, -, -, -, -, -, hinputs, -⟩ := everyInstructionKeeps .count s u hrun
    exact ⟨u, h.step_eq.trans hrun, .inr ⟨hu, hinputs.trans h.inputs⟩⟩

/-- R224: the operations of COMPRESS after COUNT, to the end of the command; no premise on the width of the counters is left. -/
theorem Running.compressed (h : Running c src Phase.build pos [] s) (hf : s.work.freq = tally bs)
    (hb : bytesOfBits src = bs) :
    ∃ t r pad, core.run 7 s = .next t ∧ r.leaves.Perm (presentSymbols (tally bs)) ∧
      t.mem.snk.bits = streamOf c.magic r bs ++ pad := by
  obtain ⟨s1, r, e1, h1, htree, hperm, -⟩ := h.build (present_of_eos (by rw [hf, tally_eos]))
  rw [hf] at hperm
  obtain ⟨s2, e2, h2, htree, hcodes⟩ := h1.gencodes htree (symsInTable_of_perm hperm) (syms_nodup_of_perm hperm)
  obtain ⟨s3, e3, h3, hw3⟩ := h2.wrmagic
  obtain ⟨s4, e4, h4, hw4⟩ := h3.wrhdr (hw3 ▸ htree)
  obtain ⟨s5, e5, h5, hw5⟩ := h4.rewind
  rw [← hw3, ← hw4, ← hw5] at hcodes
  obtain ⟨s6, e6, h6⟩ := h5.encode hb hcodes (fun _ => literal_mem_of_tally hperm) (eos_mem_of_tally hperm)
  obtain ⟨t, e7, hsink, -⟩ := h6.close
  refine ⟨t, r, _, ?_, hperm, congrArg Sink.bits hsink⟩
  exact run_of_step (M := core) e1 <| run_of_step e2 <| run_of_step e3 <| run_of_step e4 <| run_of_step e5 <|
    run_of_step e6 <| run_of_step e7 rfl

/-- R224: a COMPRESS that ends in DONE has written the compressed stream of its bytes, with padding. -/
theorem stream_of_compress {t : State} (hstart : Startable s) (hports : PortsWork s)
    (hinputs : s.inputs = [.write 0 1#32]) (hsrc : s.mem.src = ⟨bitsOfBytes bs, 0⟩)
    (hrun : core.run 9 s = .next t) (hdone : t.phase = Phase.done) :
    ∃ r pad, r.leaves.Perm (presentSymbols (tally bs)) ∧ t.mem.snk.bits = streamOf s.cfg.magic r bs ++ pad := by
  obtain ⟨s1, e1, h1⟩ := compress_starts hstart hports hinputs
  rw [hsrc] at h1
  have hbytes := bytesOfBits_bitsOfBytes bs
  obtain ⟨s2, e2, ⟨h2, hfreq⟩ | ⟨hfault, hsilent⟩⟩ := h1.count_or_fault hbytes
  · obtain ⟨u, r, pad, e9, hperm, hbits⟩ := h2.compressed hfreq hbytes
    cases hrun.symm.trans (run_of_step (M := core) e1 (run_of_step e2 e9))
    exact ⟨r, pad, hperm, hbits⟩
  · have hrest : s2.busy = false := by rw [busy_eq_false, hfault]; rfl
    cases hrun.symm.trans (run_of_step (M := core) e1 (run_of_step e2 (run_resting hrest hsilent 7)))
    rw [hfault] at hdone
    cases hdone

/-! ## DECOMPRESS, operation by operation -/

/-- R225, R226: the write of OP = 10. -/
theorem decompress_starts (h : Startable s) (hp : PortsWork s) (hi : s.inputs = [.write 0 2#32]) :
    ∃ t, step s = .next t ∧ Running s.cfg s.mem.src.bits Phase.chkmagic s.mem.src.pos [] t :=
  ⟨((s.setInputs []).setCause 0#3 0#4 0#32).setPhase Phase.chkmagic,
    (step_command hi).trans (acceptCommand_startable (s := s.setInputs []) h Phase.chkmagic),
    hp, rfl, rfl, rfl, rfl, h.2.2⟩

theorem Running.rest_eq {p : BitVec 4} (h : Running c src p pos out s) : s.mem.src.rest = src.drop pos := by
  rw [h.source]
  rfl

/-- What is left of a stream once `pre` of it was read. -/
theorem drop_of_read {pre post : List Bool} (h : src.drop pos = pre ++ post) : src.drop (pos + pre.length) = post := by
  rw [← List.drop_drop, h, List.drop_left]

variable {post : List Bool}

/-- R221: the magic word passes. -/
theorem Running.chkmagic (h : Running c src Phase.chkmagic pos out s)
    (hr : src.drop pos = bitsOf 32 c.magic.toNat ++ post) :
    ∃ t, step s = .next t ∧ Running c src Phase.rdhdr (pos + 32) out t := by
  have hrun := execChkmagic_magic ⟨h.ports.2, h.ports.answer⟩ (h.rest_eq.trans hr) (by rw [h.cfg])
  rw [h.pos_eq] at hrun
  exact ⟨_, h.step_eq.trans hrun, by simpa using h.ran s.work (pos + 32) [] _ _⟩

/-- R181, R184 -/
theorem Running.rdhdr (h : Running c src Phase.rdhdr pos out s) (hr : src.drop pos = encodeTree r ++ post)
    (hfit : NodesFit c r.size) :
    ∃ t, step s = .next t ∧ Running c src Phase.decode (pos + (encodeTree r).length) out t ∧
      t.work.tree = some r.parsed := by
  have hrun := execRdhdr_ok h.ports (h.cfg ▸ hfit) (h.rest_eq.trans hr)
  rw [h.pos_eq] at hrun
  exact ⟨_, h.step_eq.trans hrun, by simpa using h.ran _ _ [] _ _, rfl⟩

/-- R141, R203: of one leaf, the end-of-stream symbol, and no bytes. -/
theorem execDecode_body_leaf {x : Sym} {w : Nat} (ht : s.work.tree = some (.leaf x w))
    (he : Config.eos ∈ (Tree.leaf x w).syms) (hbs : ∀ b ∈ bs, b.setWidth 9 ∈ (Tree.leaf x w).syms) :
    execDecode s = .next (s.setPhase Phase.close) ∧ bs = [] := by
  obtain rfl : Config.eos = x := List.mem_singleton.1 he
  refine ⟨execDecode_eosLeaf ht, List.eq_nil_iff_forall_not_mem.2 fun b hb => ?_⟩
  exact byte_ne_eos b (List.mem_singleton.1 (hbs b hb))

/-- R208: DECODE on the body of a byte string, for every tree that has its symbols. -/
theorem execDecode_body (h : PortsWork s) (ho : s.mem.snk.closed = false) (ht : s.work.tree = some r)
    (he : Config.eos ∈ r.syms) (hbs : ∀ b ∈ bs, b.setWidth 9 ∈ r.syms) (hr : s.mem.src.rest = bodyOf r bs ++ post) :
    ∃ w pos' txns, execDecode s = .next ((s.ran w pos' (bitsOfBytes bs) txns).setPhase Phase.close) := by
  cases r with
  | leaf x w =>
    obtain ⟨hrun, rfl⟩ := execDecode_body_leaf ht he hbs
    exact ⟨s.work, s.mem.src.pos, [], by rw [hrun, bitsOfBytes, List.flatMap_nil, State.ran_self]⟩
  | internal w l r =>
    rw [bodyOf_eq_words, List.append_assoc] at hr
    obtain ⟨cur, hrun⟩ := execDecode_words ht h ho (codeWords_wordsOf hbs) (leafAt_pathOf he) hr
    rw [literalsOf_wordsOf] at hrun
    exact ⟨_, _, _, hrun⟩

/-- R202, R208 -/
theorem Running.decode (h : Running c src Phase.decode pos out s) (ht : s.work.tree = some r.parsed)
    (he : Config.eos ∈ r.syms) (hbs : ∀ b ∈ bs, b.setWidth 9 ∈ r.syms) (hr : src.drop pos = bodyOf r bs ++ post) :
    ∃ t pos', step s = .next t ∧ Running c src Phase.close pos' (out ++ bitsOfBytes bs) t := by
  rw [← Tree.parsed_syms] at he hbs
  rw [← bodyOf_parsed, ← h.rest_eq] at hr
  obtain ⟨w, pos', txns, hrun⟩ := execDecode_body h.ports h.sink_open ht he hbs hr
  exact ⟨_, pos', h.step_eq.trans hrun, h.ran w pos' _ txns _⟩

/-- R225: DECOMPRESS on a source that begins with a compressed stream writes the bytes, whatever follows. -/
theorem decompress_stream (hstart : Startable s) (hports : PortsWork s) (hinputs : s.inputs = [.write 0 2#32])
    (hsrc : s.mem.src = ⟨streamOf s.cfg.magic r bs ++ post, 0⟩) (hfit : NodesFit s.cfg r.size)
    (he : Config.eos ∈ r.syms) (hbs : ∀ b ∈ bs, b.setWidth 9 ∈ r.syms) :
    ∃ t, core.run 5 s = .next t ∧ t.phase = Phase.done ∧ t.mem.snk = ⟨bitsOfBytes bs, true⟩ := by
  obtain ⟨s1, e1, h1⟩ := decompress_starts hstart hports hinputs
  rw [hsrc] at h1
  have hmagic : (streamOf s.cfg.magic r bs ++ post).drop 0 =
      bitsOf 32 s.cfg.magic.toNat ++ (encodeTree r ++ (bodyOf r bs ++ post)) := by
    simp only [List.drop_zero, streamOf, List.append_assoc]
  have hheader := drop_of_read hmagic
  rw [bitsOf_length] at hheader
  obtain ⟨s2, e2, h2⟩ := h1.chkmagic hmagic
  obtain ⟨s3, e3, h3, htree⟩ := h2.rdhdr hheader hfit
  obtain ⟨s4, _, e4, h4⟩ := h3.decode htree he hbs (drop_of_read hheader)
  obtain ⟨t, e5, hsink, hdone, -⟩ := h4.close
  refine ⟨t, ?_, hdone, ?_⟩
  · exact run_of_step (M := core) e1 <| run_of_step e2 <| run_of_step e3 <| run_of_step e4 <| run_of_step e5 rfl
  · rw [hsink, List.nil_append, padLength_bytes, List.replicate_zero, List.append_nil]

end

end Sys2Proof.Machine

namespace Sys2Proof

open Machine Safety

/-- Settles O59: what COMPRESS left on the sink is the compressed stream of the bytes under a tree that has all their symbols
(stream_of_compress), and DECOMPRESS on such a stream writes the bytes (decompress_stream). -/
theorem roundTrip : Obligations.RoundTrip := by
  unfold Obligations.RoundTrip
  intro s t s' bs tail hstart hports hinputs hsrc hrun hdone hstart' hports' hinputs' hsrc' hmagic hfit
  obtain ⟨r, pad, hperm, hbits⟩ := stream_of_compress hstart hports hinputs hsrc hrun hdone
  rw [hbits, ← hmagic, List.append_assoc] at hsrc'
  have hnodes : NodesFit s'.cfg r.size := fun c hc => (size_le_of_tally hperm).trans (hfit c hc)
  exact decompress_stream hstart' hports' hinputs' hsrc' hnodes (eos_mem_of_tally hperm)
    fun _ => literal_mem_of_tally hperm

/-- Settles O9, by what a CMD write is while BUSY, for the OP values without effect, and where a command can start. -/
theorem commandAcceptance : Obligations.CommandAcceptance := by
  unfold Obligations.CommandAcceptance
  intro s v rest hi
  rw [step_command hi]
  refine ⟨fun hb => exec_command_busy (s := s.setInputs rest) hb v, exec_command_void, fun hs hop => ?_⟩
  refine ⟨_, exec_command_startable (s := s.setInputs rest) hs hop, rfl, status_of_started ?_⟩
  rw [State.setPhase_phase]
  exact ite_eq_or_eq _ _ _

/-- Settles O39, by the answer to the one read and the word it gives. -/
theorem chkmagicCases : Obligations.ChkmagicCases := by
  unfold Obligations.ChkmagicCases
  intro s
  exact ⟨fun h => ⟨execChkmagic_short h, fun m post hr => ⟨execChkmagic_magic h hr, execChkmagic_other h hr⟩⟩,
    execChkmagic_failed⟩

end Sys2Proof
end

section
/-! SUPPORT. Which faults a part of an operation can raise, whatever the environment answers: the rows of the table of R240,
one lemma per shared operation, and from them the rows of every instruction. -/

namespace Sys2Proof.Machine

open Safety

/-- R240, R246: a state in FAULT records a row of `L`: INFO is the word read for (1, 0), the symbol of the leaf `root` for
(2, 2), and 0 for every other. -/
structure FaultRow (L : List (BitVec 3 × BitVec 4)) (root : Option Tree) (t : State) : Prop where
  cause : (t.causeKind, t.causeSub) ∈ L
  word : (t.causeKind, t.causeSub) = (1#3, 0#4) → ∃ v l, t.trace = .srcRead 32 (.value v) :: l ∧ t.info = BitVec.ofNat 32 v
  symbol : (t.causeKind, t.causeSub) = (2#3, 2#4) → ∃ x w, root = some (.leaf x w) ∧ t.info = x.setWidth 32
  zero : (t.causeKind, t.causeSub) ≠ (1#3, 0#4) → (t.causeKind, t.causeSub) ≠ (2#3, 2#4) → t.info = 0#32

/-- The faults a part of an operation raises are rows of `L`. -/
def Res.RaisesIn {α : Type} (L : List (BitVec 3 × BitVec 4)) (root : Option Tree) : Res α → Prop
  | .raise r t => FaultRow L root (t.enterFault r)
  | .ok _ _ => True
  | .cut _ => True
  | .stop _ => True
  | .refuse _ => True

/-- If an outcome is a state in FAULT, the state records a row of `L`. -/
def EntersIn (L : List (BitVec 3 × BitVec 4)) (root : Option Tree) (o : Host.Outcome State Fault Refusal) : Prop :=
  ∀ t, o = .next t → t.phase = Phase.fault → FaultRow L root t

section
variable {α β : Type} {L : List (BitVec 3 × BitVec 4)} {root : Option Tree} {s : State}

/-- R240: a row whose INFO is 0. -/
theorem Res.raisesIn_zero {k : BitVec 3} {sub : BitVec 4} (hrow : (k, sub) ∈ L)
    (hword : (k, sub) ≠ (1#3, 0#4) := by decide) (hsymbol : (k, sub) ≠ (2#3, 2#4) := by decide) :
    (Res.raise ⟨k, sub, 0#32⟩ s : Res α).RaisesIn L root :=
  ⟨hrow, fun h => absurd h hword, fun h => absurd h hsymbol, fun _ _ => rfl⟩

/-- R221, R241: FormatError with the word of the last transaction. -/
theorem Res.raisesIn_word {v : Nat} {l : List Txn} (hrow : (1#3, 0#4) ∈ L)
    (htrace : s.trace = .srcRead 32 (.value v) :: l) :
    (Res.raise ⟨Kind.formatError, 0#4, BitVec.ofNat 32 v⟩ s : Res α).RaisesIn L root :=
  ⟨hrow, fun _ => ⟨v, l, htrace, rfl⟩, nofun, fun h => absurd rfl h⟩

/-- R203: CorruptHeaderError with the symbol of a root that is a leaf. -/
theorem Res.raisesIn_symbol {x : Sym} {w : Nat} (hrow : (2#3, 2#4) ∈ L) (hroot : root = some (.leaf x w)) :
    (Res.raise ⟨Kind.corruptHeader, 2#4, x.setWidth 32⟩ s : Res α).RaisesIn L root :=
  ⟨hrow, nofun, fun _ => ⟨x, w, hroot, rfl⟩, fun _ h => absurd rfl h⟩

theorem Res.RaisesIn.bind {x : Res α} {f : α → State → Res β} (hx : x.RaisesIn L root)
    (hf : ∀ a t, x = .ok a t → (f a t).RaisesIn L root) : (x.bind f).RaisesIn L root := by
  cases x with
  | ok a t => exact hf a t rfl
  | raise r t => exact hx
  | cut | stop | refuse => trivial

/-- R246: where a part that completes is not in FAULT, only its faults are. -/
theorem Res.RaisesIn.outcome {x : Res Unit} (hx : x.RaisesIn L root)
    (hok : ∀ u, x = .ok () u → u.phase ≠ Phase.fault) : EntersIn L root x.outcome := by
  intro t h ht
  cases x with
  | ok a u => cases h; exact absurd ht (hok _ rfl)
  | raise r u => cases h; exact hx
  | cut u => cases h; cases ht
  | stop | refuse => cases h

/-- An operation that hands over to another. -/
theorem Res.RaisesIn.thenPhase {x : Res Unit} {p : BitVec 4} (hx : x.RaisesIn L root) (hp : p ≠ Phase.fault) :
    EntersIn L root (x.thenPhase p) := by
  refine Res.RaisesIn.outcome (.bind hx fun _ _ _ => trivial) fun u h => ?_
  obtain ⟨-, v, -, hv⟩ := Res.bind_eq_ok h
  cases hv
  exact hp

/-- An instruction that leaves PHASE as it was. -/
theorem Res.RaisesIn.outcome_of_meets {x : Res Unit} (hx : x.RaisesIn L root)
    (hmeets : x.Meets s fun _ => True) (hs : s.phase ≠ Phase.fault) : EntersIn L root x.outcome := by
  refine hx.outcome fun u h => ?_
  subst h
  exact fun hu => hs (hmeets.1.phase.symm.trans hu)

theorem entersIn_refused (r : Refusal) : EntersIn L root (.refused r) := nofun

theorem entersIn_next (hs : s.phase ≠ Phase.fault) : EntersIn L root (.next s) := by
  rintro _ ⟨⟩ ht
  exact absurd ht hs

theorem entersIn_ite {p : Prop} [Decidable p] {o o' : Host.Outcome State Fault Refusal} (ho : EntersIn L root o)
    (ho' : EntersIn L root o') : EntersIn L root (if p then o else o') := by
  split
  · exact ho
  · exact ho'

/-! ## The primitives -/

/-- R244: a transaction that fails is IoFault with its own sub-cause. -/
theorem transact_raises {x : Txn} {sub : BitVec 4} {go : State → Res α} (hrow : (4#3, sub) ∈ L)
    (hgo : (go s.answered).RaisesIn L root) : (transact x sub go s).RaisesIn L root := by
  unfold transact
  split
  · trivial
  · cases s.answer with
    | ok => exact hgo
    | ioFail => exact Res.raisesIn_zero hrow nofun nofun
    | never | reset => trivial

theorem srcRead_raises {n : Nat} (h : (4#3, 0#4) ∈ L) : (srcRead n s).RaisesIn L root := by
  refine transact_raises h ?_
  split <;> trivial

theorem srcReset_raises (h : (4#3, 1#4) ∈ L) : (srcReset s).RaisesIn L root := transact_raises h trivial

theorem snkWrite_raises {n v : Nat} (h : (4#3, 2#4) ∈ L) : (snkWrite n v s).RaisesIn L root := by
  refine transact_raises h ?_
  split <;> trivial

theorem snkClose_raises (h : (4#3, 3#4) ∈ L) : (snkClose s).RaisesIn L root := transact_raises h trivial

/-! ## The parts that several operations share -/

/-- R182, R248 -/
theorem readFlag_raises (h : [(2#3, 0#4), (4#3, 0#4), (5#3, 1#4)] ⊆ L) : (readFlag s).RaisesIn L root := by
  refine (srcRead_raises (h (by decide))).bind fun f t _ => ?_
  cases f with
  | none => exact Res.raisesIn_zero (h (by decide))
  | some v =>
    dsimp only
    split
    · exact Res.raisesIn_zero (h (by decide))
    · trivial

/-- R182 -/
theorem readSym_raises (h : [(2#3, 1#4), (4#3, 0#4)] ⊆ L) : (readSym s).RaisesIn L root := by
  refine (srcRead_raises (h (by decide))).bind fun v t _ => ?_
  cases v with
  | none => exact Res.raisesIn_zero (h (by decide))
  | some v => trivial

theorem writeLeaf_raises {x : Sym} (h : (4#3, 2#4) ∈ L) : (writeLeaf x s).RaisesIn L root :=
  (snkWrite_raises h).bind fun _ _ _ => snkWrite_raises h

theorem putCode_raises {bits : List Bool} (h : (4#3, 2#4) ∈ L) : (putCode bits s).RaisesIn L root := by
  induction bits generalizing s with
  | nil => trivial
  | cons b bits ih => exact (snkWrite_raises h).bind fun _ _ _ => ih

/-- R201 -/
theorem putByte_raises {b : Byte} (h : [(4#3, 2#4), (4#3, 4#4)] ⊆ L) : (putByte b s).RaisesIn L root := by
  unfold putByte
  split
  · exact putCode_raises (h (by decide))
  · exact Res.raisesIn_zero (h (by decide))

/-- R204 -/
theorem decodeBit_raises {r : Tree} (h : [(3#3, 0#4), (4#3, 0#4)] ⊆ L) : (decodeBit r s).RaisesIn L root := by
  refine (srcRead_raises (h (by decide))).bind fun b t _ => ?_
  cases b with
  | none => exact Res.raisesIn_zero (h (by decide))
  | some v => trivial

theorem putLiteral_raises {r : Tree} {x : Sym} (h : (4#3, 2#4) ∈ L) : (putLiteral r x s).RaisesIn L root :=
  (snkWrite_raises h).bind fun _ _ _ => trivial

/-- R221: the word that is not MAGIC was read last. -/
theorem checkMagic_raises (h : [(1#3, 0#4), (1#3, 1#4), (4#3, 0#4)] ⊆ L) : (checkMagic s).RaisesIn L root := by
  refine (srcRead_raises (h (by decide))).bind fun m t hread => ?_
  cases m with
  | none => exact Res.raisesIn_zero (h (by decide))
  | some v =>
    dsimp only
    split
    · trivial
    · obtain ⟨-, -, -, ⟨-, hnone, -⟩ | ⟨-, hv, -, htrace⟩⟩ := srcRead_eq_ok hread
      · cases hnone
      · cases hv
        exact Res.raisesIn_word (h (by decide)) htrace

/-- R204 -/
theorem walkCode_raises {r : Tree} {n : Nat} (h : [(3#3, 0#4), (4#3, 0#4)] ⊆ L) :
    (walkCode r n s).RaisesIn L root := by
  induction n generalizing s with
  | zero => exact (decodeBit_raises h).bind fun _ _ _ => Res.raisesIn_zero (h (by decide))
  | succ n ih =>
    refine (decodeBit_raises h).bind fun o t _ => ?_
    cases o with
    | inside => exact ih
    | eos | symbol => trivial

theorem readCode_raises (h : [(2#3, 2#4), (3#3, 0#4), (4#3, 0#4)] ⊆ L) : (readCode s).RaisesIn L s.work.tree := by
  unfold readCode
  split
  · trivial
  · next hroot =>
    split
    · trivial
    · exact Res.raisesIn_symbol (h (by decide)) hroot
  · exact walkCode_raises fun _ hc => h (List.mem_cons_of_mem _ hc)

end

/-! ## The parts of one operation -/

section
variable {root : Option Tree}

/-- R143 -/
theorem countLoop_raises (n : Nat) (s : State) : (countLoop n s).RaisesIn (causesOf .count) root := by
  induction n generalizing s with
  | zero => exact (srcRead_raises (by decide)).bind fun _ _ _ => trivial
  | succ n ih =>
    refine (srcRead_raises (by decide)).bind fun r t _ => ?_
    cases r with
    | none => trivial
    | some v =>
      dsimp only
      split
      · exact Res.raisesIn_zero (by decide)
      · exact ih _

theorem encodeLoop_raises (n : Nat) (s : State) : (encodeLoop n s).RaisesIn (causesOf .encode) root := by
  induction n generalizing s with
  | zero => exact (srcRead_raises (by decide)).bind fun _ _ _ => trivial
  | succ n ih =>
    refine (srcRead_raises (by decide)).bind fun r t _ => ?_
    cases r with
    | none => trivial
    | some v => exact (putByte_raises (by decide)).bind fun _ _ _ => ih _

theorem emitTree_raises (t : Tree) (s : State) : (emitTree t s).RaisesIn (causesOf .wrhdr) root := by
  induction t generalizing s with
  | leaf x w => exact writeLeaf_raises (by decide)
  | internal w l r ihl ihr =>
    exact (snkWrite_raises (by decide)).bind fun _ _ _ => (ihl _).bind fun _ _ _ => (ihr _).bind fun _ _ _ => trivial

theorem parseTree_raises (n : Nat) (s : State) : (parseTree n s).RaisesIn (causesOf .rdhdr) root := by
  induction n generalizing s with
  | zero =>
    exact (readFlag_raises (by decide)).bind fun _ _ _ => Res.raisesIn_zero (by decide)
  | succ n ih =>
    refine (readFlag_raises (by decide)).bind fun leaf t _ => ?_
    split
    · exact (readSym_raises (by decide)).bind fun _ _ _ => trivial
    · exact (ih _).bind fun _ _ _ => (ih _).bind fun _ _ _ => trivial

theorem decodeLoop_raises (r : Tree) (n : Nat) (s : State) : (decodeLoop r n s).RaisesIn (causesOf .decode) root := by
  induction n generalizing s with
  | zero =>
    exact (decodeBit_raises (by decide)).bind fun _ _ _ => Res.raisesIn_zero (by decide)
  | succ n ih =>
    refine (decodeBit_raises (by decide)).bind fun o t _ => ?_
    cases o with
    | inside => exact ih _
    | eos => trivial
    | symbol x => exact (putLiteral_raises (by decide)).bind fun _ _ _ => ih _

theorem readInternal_raises (s : State) : (readInternal s).RaisesIn (causesOf .wireNodeInternal) root := by
  refine (readFlag_raises (by decide)).bind fun leaf t _ => ?_
  split <;> trivial

theorem readLeaf_raises (x : Sym) (s : State) : (readLeaf x s).RaisesIn (causesOf (.wireNodeLeaf x)) root := by
  refine (readFlag_raises (by simp [causesOf])).bind fun leaf t _ => ?_
  split
  · refine (readSym_raises (by simp [causesOf])).bind fun y u _ => ?_
    split <;> trivial
  · trivial

theorem readByte_raises (b : Byte) (s : State) : (readByte b s).RaisesIn (causesOf (.wireCode b)) s.work.tree := by
  refine (readCode_raises (by simp [causesOf])).bind fun o t _ => ?_
  cases o with
  | inside | eos => trivial
  | symbol x =>
    dsimp only
    split
    · exact putLiteral_raises (by simp [causesOf])
    · trivial

theorem readEos_raises (s : State) : (readEos s).RaisesIn (causesOf .wireEosCode) s.work.tree := by
  refine (readCode_raises (by decide)).bind fun o t _ => ?_
  cases o with
  | inside | eos | symbol => trivial

end

/-! ## The instructions -/

/-- R69: an instruction that makes no port transaction enters no fault. -/
theorem phase_ne_fault_of_noPort {i : Instr} {s t : State} (hn : usesNoPort i = true) (h : exec i s = .next t)
    (hs : s.phase ≠ Phase.fault) : t.phase ≠ Phase.fault := by
  obtain rfl | ⟨p, ⟨-, rfl⟩ | ⟨-, rfl⟩, rfl⟩ | ⟨w, -, rfl⟩ | ⟨w, p, n, ⟨-, rfl⟩ | ⟨-, rfl⟩, rfl⟩ :=
    exec_noPort i s t hn h
  · exact hs
  · exact (by decide : Phase.count ≠ Phase.fault)
  · exact (by decide : Phase.chkmagic ≠ Phase.fault)
  · exact hs
  · exact (by decide : Phase.gencodes ≠ Phase.fault)
  · exact (by decide : Phase.wrmagic ≠ Phase.fault)

/-- R65: SnkClose leaves PHASE. -/
theorem snkClose_phase {s u : State} {a : Unit} (h : snkClose s = .ok a u) : u.phase = s.phase := by
  cases transact_eq_ok h
  rfl

theorem execClose_entersIn (s : State) (root : Option Tree) : EntersIn (causesOf .close) root (execClose s) := by
  refine Res.RaisesIn.outcome (.bind (snkClose_raises (by decide)) fun _ _ _ => trivial) fun u h => ?_
  obtain ⟨-, v, -, hv⟩ := Res.bind_eq_ok h
  cases hv
  exact (by decide : Phase.done ≠ Phase.fault)

theorem execWrhdr_entersIn (s : State) (root : Option Tree) : EntersIn (causesOf .wrhdr) root (execWrhdr s) := by
  unfold execWrhdr
  split
  · exact entersIn_refused _
  · exact (emitTree_raises _ _).thenPhase (by decide)

theorem execDecode_entersIn (s : State) : EntersIn (causesOf .decode) s.work.tree (execDecode s) := by
  unfold execDecode
  split
  · exact entersIn_refused _
  · next hroot =>
    refine entersIn_ite (entersIn_next (by decide : Phase.close ≠ Phase.fault)) ?_
    exact (Res.raisesIn_symbol (s := s) (by decide) hroot).outcome nofun
  · exact (decodeLoop_raises _ _ _).thenPhase (by decide)

/-- R240: every instruction enters FAULT in one of its own rows. A record (WIRE) is read or written, as PHASE says. -/
theorem exec_entersIn (i : Instr) (s : State) (hs : s.phase ≠ Phase.fault) :
    EntersIn (causesOf i) s.work.tree (exec i s) := by
  cases i with
  | cmdNop | compress | decompress | cmdReserved | idle | build | gencodes | phaseC | phaseD | done | fault | pqInsert
    | pqRemoveMin => exact fun t h ht => absurd ht (phase_ne_fault_of_noPort rfl h hs)
  | count => exact Res.RaisesIn.thenPhase (.bind (countLoop_raises _ _) fun _ _ _ => trivial) (by decide)
  | wrmagic => exact (snkWrite_raises (by decide)).thenPhase (by decide)
  | wrhdr => exact execWrhdr_entersIn s _
  | rewind => exact (srcReset_raises (by decide)).thenPhase (by decide)
  | encode => exact ((encodeLoop_raises _ _).bind fun _ _ _ => putCode_raises (by decide)).thenPhase (by decide)
  | close => exact execClose_entersIn s _
  | chkmagic => exact (checkMagic_raises (by decide)).thenPhase (by decide)
  | rdhdr => exact Res.RaisesIn.thenPhase (.bind (parseTree_raises _ _) fun _ _ _ => trivial) (by decide)
  | decode => exact execDecode_entersIn s
  | wireMagic =>
    exact entersIn_ite ((checkMagic_raises (by decide)).outcome_of_meets (checkMagic_meets _ _) hs)
      ((snkWrite_raises (by decide)).outcome_of_meets (snkWrite_meets _ _ _ _ fun _ => trivial) hs)
  | wireNodeInternal =>
    exact entersIn_ite ((readInternal_raises s).outcome_of_meets (readInternal_meets _ _ trivial) hs)
      ((snkWrite_raises (by decide)).outcome_of_meets (snkWrite_meets _ _ _ _ fun _ => trivial) hs)
  | wireNodeLeaf x =>
    exact entersIn_ite ((readLeaf_raises x s).outcome_of_meets (readLeaf_meets x _ _ trivial) hs)
      ((writeLeaf_raises (by simp [causesOf])).outcome_of_meets (writeLeaf_meets x _ _ fun _ => trivial) hs)
  | wireCode b =>
    exact entersIn_ite ((readByte_raises b s).outcome_of_meets (readByte_meets b _ _ trivial trivial fun _ => trivial) hs)
      ((putByte_raises (by simp [causesOf])).outcome_of_meets (putByte_meets b _ _ fun _ => trivial) hs)
  | wireEosCode =>
    exact entersIn_ite ((readEos_raises s).outcome_of_meets (readEos_meets _ _ trivial trivial) hs)
      ((putCode_raises (by decide)).outcome_of_meets (putCode_meets _ _ _ fun _ => trivial) hs)
  | wirePadding =>
    exact entersIn_ite (entersIn_next hs)
      ((snkClose_raises (by decide)).outcome fun _ h => (snkClose_phase h).trans_ne hs)
  | srcRead n =>
    exact Res.RaisesIn.outcome_of_meets (.bind (srcRead_raises (by simp [causesOf])) fun _ _ _ => trivial)
      ((srcRead_meets _ _ _).bind fun _ _ _ _ => Res.meets_ok_self _ _ _) hs
  | srcReset => exact (srcReset_raises (by decide)).outcome_of_meets (srcReset_meets _ _) hs
  | snkWrite n v =>
    exact entersIn_ite
      ((snkWrite_raises (by simp [causesOf])).outcome_of_meets (snkWrite_meets _ _ _ _ fun _ => trivial) hs)
      (entersIn_refused _)
  | snkClose => exact (snkClose_raises (by decide)).outcome fun _ h => (snkClose_phase h).trans_ne hs

end Sys2Proof.Machine

namespace Sys2Proof

open Machine Safety

/-- Settles O52: an instruction enters FAULT only by a fault of its parts, each a row of the table (exec_entersIn). -/
theorem faultTable : Obligations.FaultTable := by
  unfold Obligations.FaultTable
  intro i s t h hs ht
  obtain ⟨hcause, hword, hsymbol, hzero⟩ := exec_entersIn i s hs t h ht
  exact ⟨hcause, hword, hsymbol, hzero⟩

end Sys2Proof
end

section
/-! SUPPORT. A command runs to its end (R224, R225, R283, R284): while ports work and the host is silent, each operation
brings the block nearer to a phase in which it rests. -/

namespace Sys2Proof.Machine

open Safety

/-- R224, R225: how many operations a command has left, the one PHASE names among them. -/
def operationsLeft (p : BitVec 4) : Nat :=
  match p.toNat with
  | 1 => 8
  | 2 => 7
  | 3 => 6
  | 4 => 5
  | 5 => 4
  | 6 => 3
  | 7 => 2
  | 8 => 1
  | 9 => 4
  | 10 => 3
  | 11 => 2
  | _ => 0

/-- R224: COMPRESS is the longest command. -/
theorem operationsLeft_le (p : BitVec 4) : operationsLeft p ≤ 8 := by
  revert p
  decide

/-- R31: handing over leaves one operation less. -/
theorem operationsLeft_successor {p : BitVec 4} (hr : restingPhase p = false)
    (hp : p ≠ Phase.phaseC ∧ p ≠ Phase.phaseD) : operationsLeft (successor p) < operationsLeft p := by
  revert p
  decide

theorem operationsLeft_pos {p : BitVec 4} (hr : restingPhase p = false)
    (hp : p ≠ Phase.phaseC ∧ p ≠ Phase.phaseD) : 0 < operationsLeft p :=
  Nat.zero_lt_of_lt (operationsLeft_successor hr hp)

/-- R283: the block is left to itself: it is in order, every port transaction to come is answered normally, and the host does
nothing. -/
structure LeftAlone (s : State) : Prop where
  inv : Inv s
  ports : PortsAnswer s
  silent : s.inputs = []

/-- R18, R82: left to itself, the block neither stops nor is refused. -/
theorem LeftAlone.steps {s : State} (h : LeftAlone s) : ∃ t, exec (decodePhase s.phase) s = .next t := by
  cases ho : exec (decodePhase s.phase) s with
  | next t => exact ⟨t, rfl⟩
  | fault e => exact nomatch h.ports _ (never_of_fault ho)
  | refused r => exact absurd ho (exec_phase_ne_refused h.inv r)

/-- An operation neither adds answers nor moves the host, so the block stays left to itself. -/
theorem LeftAlone.next {s t : State} (h : LeftAlone s) (ho : exec (decodePhase s.phase) s = .next t) : LeftAlone t := by
  obtain ⟨hanswers, -⟩ := abnormalAnswersEndTheInstruction _ s t ho
  obtain ⟨-, -, -, -, -, -, hinputs, -⟩ := everyInstructionKeeps _ s t ho
  refine ⟨inv_of_exec h.inv ho, fun a ha => h.ports a ?_, hinputs.trans h.silent⟩
  rw [hanswers] at ha
  exact List.mem_of_mem_drop ha

/-- R224, R225: where the block does not rest, its operation leaves fewer operations to run. -/
theorem operationsLeft_of_busy {s t : State} (hinv : Inv s) (hb : s.busy = true)
    (ho : exec (decodePhase s.phase) s = .next t) : operationsLeft t.phase < operationsLeft s.phase := by
  have hr : restingPhase s.phase = false := by simpa [State.busy] using hb
  obtain hp | hp | hp := phase_of_busy hb ho <;> rw [hp]
  · exact operationsLeft_successor hr hinv.phase_produced
  · exact operationsLeft_pos hr hinv.phase_produced
  · exact operationsLeft_pos hr hinv.phase_produced

/-- R283, R284: left to itself, the block rests once the operations that are left have run. -/
theorem LeftAlone.rests {s : State} (h : LeftAlone s) :
    ∃ k t, k ≤ operationsLeft s.phase ∧ core.run k s = .next t ∧ t.busy = false := by
  induction hn : operationsLeft s.phase using Nat.strong_induction_on generalizing s with
  | _ n ih =>
    cases hb : s.busy with
    | false => exact ⟨0, s, Nat.zero_le n, rfl, hb⟩
    | true =>
      obtain ⟨t, ho⟩ := h.steps
      have hlt : operationsLeft t.phase < n := hn ▸ operationsLeft_of_busy h.inv hb ho
      obtain ⟨k, u, hk, hrun, hrest⟩ := ih _ hlt (h.next ho) rfl
      exact ⟨k + 1, u, hk.trans_lt hlt, run_of_step (M := core) ((step_silent h.silent).trans ho) hrun, hrest⟩

end Sys2Proof.Machine

namespace Sys2Proof

open Machine Safety

/-- Settles O57: left to itself, the block rests within the operations its command has left (LeftAlone.rests), at most eight. -/
theorem everyCommandEnds : Obligations.EveryCommandEnds := by
  unfold Obligations.EveryCommandEnds
  intro s hinv hports hsilent
  obtain ⟨k, t, hk, hrun, hrest⟩ := LeftAlone.rests ⟨hinv, hports, hsilent⟩
  exact ⟨k, t, hk.trans (operationsLeft_le s.phase), hrun, hrest⟩

end Sys2Proof
end
